-- ==== Sys2Proof/Word.lean ====
section
/-!
DEFINITION. The word types of the block's ports (spec/00_scope.md R7, R12), what a host can put at one
place of a port (R9, R90), and groups of four (R7: four lanes).
-/

namespace Sys2Proof

/-- The 16-bit pattern on a sample port: `unsigned16` of a Sample (R7 `SAMPLE_W`, R12). -/
abbrev SamplePattern := BitVec 16

/-- A 4-bit unsigned Nibble (R7 `NIBBLE_W`, R12). -/
abbrev Nibble := BitVec 4

/-- A 7-bit Codeword as the port holds it: bit `P - 1` is position `P` (R7 `CW_W`, R39). -/
abbrev Codeword := BitVec 7

/-- A 3-bit unsigned Syndrome (R7 `SYN_W`, R12). -/
abbrev Syndrome := BitVec 3

/-- What the host presents at one place: an integer, or one of the three ways of presenting no value
that R90 names (no value, unknown, high impedance). An integer need not fit the place: the boundary
refuses it then (R87 to R89). -/
inductive Signal where
  | value (n : Int)
  | undriven
  | unknown
  | highZ
  deriving DecidableEq, Repr

/-- Four like things, one for each nibble slot of a sample; `s0` belongs to slot 0, the most
significant (R26). -/
structure Quad (α : Type) where
  s0 : α
  s1 : α
  s2 : α
  s3 : α
  deriving DecidableEq, Repr

/-- The same function on all four lanes; no lane sees another (R55). -/
def Quad.map {α β : Type} (f : α → β) (q : Quad α) : Quad β :=
  ⟨f q.s0, f q.s1, f q.s2, f q.s3⟩

end Sys2Proof
end

