-- ==== Sys2Proof/Config.lean ====
section
/-!
DEFINITION. The parameters the spec fixes (spec/00_scope.md R7, R8, R12, R78) and those the model keeps open as
constants with no body: `T_SETTLE` and `ROUND_TIES` (R9), and the precision and rounding of the host's float
format (R86, log 11).
-/

namespace Sys2Proof.Config

/-- Smallest Sample (R7). -/
abbrev sampleMin : Int := -32768

/-- Largest Sample (R7). -/
abbrev sampleMax : Int := 32767

/-- Largest Nibble (R7). -/
abbrev nibbleMax : Int := 15

/-- Default `stride` of the host's ErrorInjector (R8, R78). -/
abbrev defaultStride : Int := 100

/-- Default `bit_index` of the host's ErrorInjector (R8, R78). -/
abbrev defaultBitIndex : Int := 6

/-- The scale of the host's audio adapters (R85, R86). -/
abbrev audioScale : Int := 32767

/-- FREE VALUE `T_SETTLE`: the time after an input change before the outputs are valid; `OPEN` (R9, R104,
D11). Log 4. -/
opaque tSettle : Nat

/-- FREE VALUE `ROUND_TIES`: whether the host's `round` takes a value half way between `n` and `n + 1` up to
`n + 1`; `OPEN` (R9, R85, D18). Log 10. -/
opaque roundTiesUp : Int → Bool

/-- FREE VALUE: the precision of the host's float format in bits: rounding to it moves a value by at most
`2^-floatPrecision` of itself (R86 says 'as a float' and gives no format). Log 11. -/
opaque floatPrecision : Nat

/-- FREE VALUE: what the host's float format holds for a value, within its precision (R86). Log 11. -/
opaque floatRounding : Rat → Rat

end Sys2Proof.Config
end

