-- ==== Sys2Proof/Syntax.lean ====
section
/-!
DEFINITION. The five operations of the block, one constructor for each row of spec/opcode_table.json (tags of
spec/30_encoding.md R35), each with what the host presents on the unit's input port.
-/

namespace Sys2Proof

/-- One operation: one evaluation of one unit on what the host presents (R15, R35), and the reading of
the output ports the tag names. A codeword is presented as the source's list `[b1, ..., b7]` (R39). -/
inductive Instr where
  /-- SPLIT on `nibble_splitter`: a Sample as an integer (R36, R49, R50). -/
  | split (sample : Signal)
  /-- JOIN on `nibble_joiner`: the nibbles of slots 0 to 3 (R37, R51). -/
  | join (n0 n1 n2 n3 : Signal)
  /-- ENCODE on `hamming_7_4_encoder`: a nibble (R38, R57). -/
  | encode (d : Signal)
  /-- DECODE on `hamming_7_4_decoder_with_correction`: reads `d` and `syndrome` (R40, R60 to R64). -/
  | decode (bits : List Signal)
  /-- DECODE_RAW on the same unit: reads `d_raw` (R40, R65). -/
  | decodeRaw (bits : List Signal)
  deriving DecidableEq, Repr

end Sys2Proof
end

