-- ==== Sys2Proof/WellFormed.lean ====
section
/-!
DEFINITION. An operation is well formed when its unit's ports can hold what the host presents: the source's
only invalid inputs are values a port cannot hold (spec/30_encoding.md R45), and a place with no value (R90).
-/

namespace Sys2Proof

/-- A presented integer in `[lo, hi]`; a place with no value is in no range (R90). -/
def Signal.inRange (lo hi : Int) : Signal → Bool
  | .value n => decide (lo ≤ n) && decide (n ≤ hi)
  | .undriven => false
  | .unknown => false
  | .highZ => false

/-- A Sample in [-32768, 32767] (R12, R87). -/
def Signal.isSample (x : Signal) : Bool := x.inRange Config.sampleMin Config.sampleMax

/-- A Nibble in [0, 15] (R12, R89). -/
def Signal.isNibble (n : Signal) : Bool := n.inRange 0 Config.nibbleMax

/-- A codeword element, 0 or 1 (R12, R88). -/
def Signal.isBit (b : Signal) : Bool := b.inRange 0 1

/-- Exactly 7 elements, each 0 or 1 (R88). -/
def isCodeword (bits : List Signal) : Bool := decide (bits.length = 7) && bits.all Signal.isBit

/-- The ports of the operation's unit can hold what is presented (R45). -/
def Instr.wf : Instr → Bool
  | .split x => x.isSample
  | .join n0 n1 n2 n3 => n0.isNibble && n1.isNibble && n2.isNibble && n3.isNibble
  | .encode d => d.isNibble
  | .decode bits => isCodeword bits
  | .decodeRaw bits => isCodeword bits

end Sys2Proof
end

