-- ==== Sys2Proof/Decode.lean ====
section
/-!
DEFINITION. The port formats (spec/30_encoding.md R35 to R44): bit fields, the codeword's bit map, `unsigned16`
and `signed16`; reading an operation from a unit selection and a port pattern, and writing one back. There
is no opcode (R35, D7): the selection is part of what is decoded.
-/

namespace Sys2Proof

/-! ## Numbers and bit fields -/

/-- `unsigned16(x)`, the 16-bit pattern of an integer (R11; R50: `x mod 65536`). -/
def unsigned16 (x : Int) : SamplePattern := BitVec.ofInt 16 x

/-- `signed16(u)`: u below 32768 as it is, else u - 65536 (R11). -/
def signed16 (u : SamplePattern) : Int :=
  if u.toNat < 32768 then u.toNat else (u.toNat : Int) - 65536

/-- The four fields [15:12], [11:8], [7:4], [3:0] of a 16-bit pattern, slot 0 first (R26, R43). -/
def fields16 (u : SamplePattern) : Quad Nibble :=
  ⟨u.extractLsb' 12 4, u.extractLsb' 8 4, u.extractLsb' 4 4, u.extractLsb' 0 4⟩

/-- Concatenation `{n0, n1, n2, n3}`, slot 0 most significant (R11, R43). -/
def concat16 (q : Quad Nibble) : SamplePattern := q.s0 ++ q.s1 ++ q.s2 ++ q.s3

/-- A nibble from `d1 d2 d3 d4`, d1 most significant (R42). -/
def nibbleOfBits (d1 d2 d3 d4 : Bool) : Nibble :=
  BitVec.ofBool d1 ++ BitVec.ofBool d2 ++ BitVec.ofBool d3 ++ BitVec.ofBool d4

/-- A codeword port from the list `[b1, ..., b7]`: position P at `cw[P-1]`, so `b7` is the most
significant bit (R39). -/
def codewordOfBits (b1 b2 b3 b4 b5 b6 b7 : Bool) : Codeword :=
  BitVec.ofBool b7 ++ BitVec.ofBool b6 ++ BitVec.ofBool b5 ++ BitVec.ofBool b4 ++ BitVec.ofBool b3 ++
    BitVec.ofBool b2 ++ BitVec.ofBool b1

/-- The bit at position P, `bP = cw[P-1]` (R39). -/
def bitAt (cw : Codeword) (P : Nat) : Bool := cw.getLsbD (P - 1)

/-! ## Host values and port values -/

/-- One codeword element as the host presents it. -/
def bitSignal (b : Bool) : Signal := .value (if b then 1 else 0)

/-- A codeword port as the source's list (R39). -/
def codewordSignals (cw : Codeword) : List Signal :=
  [bitSignal (bitAt cw 1), bitSignal (bitAt cw 2), bitSignal (bitAt cw 3), bitSignal (bitAt cw 4),
    bitSignal (bitAt cw 5), bitSignal (bitAt cw 6), bitSignal (bitAt cw 7)]

/-- A nibble as the host presents it: unsigned (R12, R44). -/
def nibbleSignal (n : Nibble) : Signal := .value n.toNat

/-- The port pattern of a presented Sample, if the port can hold it (R12, R87). -/
def sampleOf : Signal → Option SamplePattern
  | .value x => if Config.sampleMin ≤ x ∧ x ≤ Config.sampleMax then some (unsigned16 x) else none
  | .undriven => none
  | .unknown => none
  | .highZ => none

/-- The port value of a presented nibble, if the port can hold it (R12, R89). -/
def nibbleOf : Signal → Option Nibble
  | .value n => if 0 ≤ n ∧ n ≤ Config.nibbleMax then some (BitVec.ofInt 4 n) else none
  | .undriven => none
  | .unknown => none
  | .highZ => none

/-- A presented codeword element, if it is 0 or 1 (R88). -/
def bitOf : Signal → Option Bool
  | .value n => if n = 0 then some false else if n = 1 then some true else none
  | .undriven => none
  | .unknown => none
  | .highZ => none

/-- The port value of a presented sequence, if it is exactly 7 elements of 0 and 1 (R39, R88). -/
def codewordOf : List Signal → Option Codeword
  | [e1, e2, e3, e4, e5, e6, e7] =>
    match bitOf e1, bitOf e2, bitOf e3, bitOf e4, bitOf e5, bitOf e6, bitOf e7 with
    | some b1, some b2, some b3, some b4, some b5, some b6, some b7 =>
      some (codewordOfBits b1 b2 b3 b4 b5 b6 b7)
    | _, _, _, _, _, _, _ => none
  | _ => none

/-! ## Selection, decoding and encoding -/

/-- The five tags of R35. They have no numeric encoding. -/
inductive Tag where
  | split
  | join
  | encode
  | decode
  | decodeRaw
  deriving DecidableEq, Repr

/-- The width of the tag's input port as spec/opcode_table.json gives it (R36 to R40). -/
def Tag.width : Tag → Nat
  | .split => 16
  | .join => 16
  | .encode => 4
  | .decode => 7
  | .decodeRaw => 7

/-- What the host drives for one operation: the unit and reading it selects (structural, R35) and the
pattern on its input port, bit 0 the port's least significant bit (R48: 'the port values it drives'). -/
structure PortWord where
  tag : Tag
  pattern : Nat
  deriving DecidableEq, Repr

/-- Why a port word is no operation. -/
inductive Reject where
  /-- The pattern has bits above the port's width (R45: a value the port cannot hold). -/
  | patternTooWide (tag : Tag)
  deriving DecidableEq, Repr

/-- The operation that a pattern of a tag's port stands for. -/
def instrOfPattern : Tag → Nat → Instr
  | .split, p => .split (.value (signed16 (BitVec.ofNat 16 p)))
  | .join, p =>
    .join (nibbleSignal (fields16 (BitVec.ofNat 16 p)).s0) (nibbleSignal (fields16 (BitVec.ofNat 16 p)).s1)
      (nibbleSignal (fields16 (BitVec.ofNat 16 p)).s2) (nibbleSignal (fields16 (BitVec.ofNat 16 p)).s3)
  | .encode, p => .encode (nibbleSignal (BitVec.ofNat 4 p))
  | .decode, p => .decode (codewordSignals (BitVec.ofNat 7 p))
  | .decodeRaw, p => .decodeRaw (codewordSignals (BitVec.ofNat 7 p))

/-- Every pattern that the tag's port can hold is an operation (R45); a wider one is rejected by name. -/
def decode (w : PortWord) : Except Reject Instr :=
  if w.pattern < 2 ^ w.tag.width then .ok (instrOfPattern w.tag w.pattern)
  else .error (.patternTooWide w.tag)

/-- The port word of a well-formed operation; none for one that no port can hold. -/
def encode : Instr → Option PortWord
  | .split x => (sampleOf x).map fun u => ⟨.split, u.toNat⟩
  | .join n0 n1 n2 n3 =>
    match nibbleOf n0, nibbleOf n1, nibbleOf n2, nibbleOf n3 with
    | some a, some b, some c, some d => some ⟨.join, (concat16 ⟨a, b, c, d⟩).toNat⟩
    | _, _, _, _ => none
  | .encode d => (nibbleOf d).map fun n => ⟨.encode, n.toNat⟩
  | .decode bits => (codewordOf bits).map fun cw => ⟨.decode, cw.toNat⟩
  | .decodeRaw bits => (codewordOf bits).map fun cw => ⟨.decodeRaw, cw.toNat⟩

/-! ## A word of the opcode table without its selection -/

/-- The tags in the order of the rows of spec/opcode_table.json. -/
def tableOrder : List Tag := [.split, .join, .encode, .decode, .decodeRaw]

/-- A port's width in whole bytes, as bits. -/
def wholeBytes (width : Nat) : Nat := (width + 7) / 8 * 8

/-- DESIGN CHOICE (log 2): a table word carries no selection (R35), so the first row, in the table's
order, whose port is `nbits` wide (itself or in whole bytes) and can hold `w` is taken; where there is
none, a pattern that the decoder rejects. -/
def tableSelect (nbits w : Nat) : PortWord :=
  match tableOrder.find? fun t =>
      (decide (t.width = nbits) || decide (wholeBytes t.width = nbits)) && decide (w < 2 ^ t.width) with
  | some t => ⟨t, w⟩
  | none => ⟨.split, 2 ^ 16 + w⟩

/-- The operation the decoder reads from a table word, under the selection of `tableSelect`. -/
def decodeTableWord (nbits w : Nat) : Option Instr :=
  match decode (tableSelect nbits w) with
  | .ok i => some i
  | .error _ => none

end Sys2Proof
end

