-- ==== Sys2Proof/Machine/State.lean ====
section
/-!
DEFINITION. What the machine holds: the input ports of the four units (spec/10_state.md R13, R14), the
settling of each unit (R104), and the host that drives them: what it read last, the named values of its
program (R48), its buffers (R21) and the commands it has still to give (R15, R73). Then the ways a step
can stop (60_exceptions.md section 1) and the state before the host has done anything (R23, R101).
The block has no registers, flags, pc, memory, modes or interrupts (R13, R15, R17 to R20, R95 to R99).
-/

namespace Sys2Proof.Machine

/-! ## Ports -/

/-- The four units (R1). -/
inductive UnitId where
  | splitter
  | joiner
  | encoder
  | decoder
  deriving DecidableEq, Repr

/-- The input ports (R36 to R40). -/
inductive InPort where
  | splitterSample
  | joinerN0
  | joinerN1
  | joinerN2
  | joinerN3
  | encoderD
  | decoderCw
  deriving DecidableEq, Repr

/-- The output ports (R36 to R40). -/
inductive OutPort where
  | splitterN0
  | splitterN1
  | splitterN2
  | splitterN3
  | joinerSample
  | encoderCw
  | decoderD
  | decoderSyndrome
  | decoderDRaw
  deriving DecidableEq, Repr

/-- The unit an input port belongs to. -/
def InPort.unit : InPort → UnitId
  | .splitterSample => .splitter
  | .joinerN0 => .joiner
  | .joinerN1 => .joiner
  | .joinerN2 => .joiner
  | .joinerN3 => .joiner
  | .encoderD => .encoder
  | .decoderCw => .decoder

/-- The unit that drives an output port (R14). -/
def OutPort.unit : OutPort → UnitId
  | .splitterN0 => .splitter
  | .splitterN1 => .splitter
  | .splitterN2 => .splitter
  | .splitterN3 => .splitter
  | .joinerSample => .joiner
  | .encoderCw => .encoder
  | .decoderD => .decoder
  | .decoderSyndrome => .decoder
  | .decoderDRaw => .decoder

/-- An input port of `w` bits. Bit i of `known` says that bit i carries a 0 or a 1 (two-valued logic,
R9); where it does not, the bit is undriven, X or Z, which R90 treats alike, and its `value` bit is 0. -/
structure Port (w : Nat) where
  value : BitVec w
  known : BitVec w
  deriving DecidableEq, Repr

/-- A port driven at its full width (R28). -/
def Port.driven {w : Nat} (v : BitVec w) : Port w := ⟨v, BitVec.allOnes w⟩

/-- A port with no value on any bit (R90). -/
def Port.undriven (w : Nat) : Port w := ⟨0#w, 0#w⟩

/-- The port's value, if every bit has one (R90). -/
def Port.read {w : Nat} (p : Port w) : Option (BitVec w) :=
  if p.known = BitVec.allOnes w then some p.value else none

/-- The canonical form: no value on a bit that carries none. -/
def Port.canonical {w : Nat} (p : Port w) : Bool := decide (p.value &&& p.known = p.value)

/-- How long a unit's inputs have been unchanged (R104): `T_SETTLE` has passed, or at least `t` units of
time have. -/
inductive Settle where
  | settled
  | since (t : Nat)
  deriving DecidableEq, Repr

/-- The decoder's three outputs, always of the same `cw` (R29, R71). -/
structure DecoderOut where
  d : Nibble
  syndrome : Syndrome
  dRaw : Nibble
  deriving DecidableEq, Repr

/-! ## What the host reads, names and buffers -/

/-- What the host read at its last reading of outputs (R14, R73). -/
inductive Readout where
  /-- Nothing read yet. -/
  | nothing
  /-- SPLIT's outputs `n0 n1 n2 n3` (R36). -/
  | nibbles (n : Quad Nibble)
  /-- JOIN's output pattern (R37). -/
  | sample (u : SamplePattern)
  /-- ENCODE's output (R38). -/
  | codeword (cw : Codeword)
  /-- DECODE's outputs (R40). -/
  | decoded (d : Nibble) (syndrome : Syndrome)
  /-- DECODE_RAW's output (R40). -/
  | raw (dRaw : Nibble)
  /-- One output port read by itself, as a number. -/
  | port (q : OutPort) (v : Nat)
  /-- The new sequence a call of CORRUPT returned (R74). -/
  | corrupted (groups : List (Quad Codeword))
  deriving DecidableEq, Repr

/-- A float of the host's audio adapter: a finite value, exactly, or one with no finite value (R85). -/
inductive HostFloat where
  | finite (q : Rat)
  | posInf
  | negInf
  | nan
  deriving DecidableEq, Repr

/-- The names of a program of R48, numbered. -/
abbrev Name := Nat

/-- The value of a name in a program of R48, in the host's terms: a Sample and a nibble as integers, a
codeword as the list `[b1, ..., b7]`. A literal written as a pattern, `0xNNNN` or `0xNN`, is the Sample
`signed16` of it or the list its port bits make (R12, R39). -/
inductive Value where
  | sample (x : Int)
  | nibble (n : Int)
  | codeword (bits : List Int)
  | syndrome (y : Int)
  deriving DecidableEq, Repr

/-- The statements of the program notation (R48). -/
inductive Stmt where
  /-- `LET x = literal`; R48's literals are samples, nibbles and codewords, and that a syndrome may stand there too
  is the model's choice (log 20). -/
  | letValue (x : Name) (v : Value)
  /-- `SPLIT s -> a, b, c, d` -/
  | split (s a b c d : Name)
  /-- `JOIN a, b, c, d -> s` -/
  | join (a b c d s : Name)
  /-- `ENC n -> c` -/
  | enc (n c : Name)
  /-- `DEC c -> n, y, r` -/
  | dec (c n y r : Name)
  /-- `FLIP c, k -> c2` (host only) -/
  | flip (c : Name) (k : Int) (c2 : Name)
  deriving DecidableEq, Repr

/-- One change of an input port by the host, which may leave it without a value. -/
inductive Drive where
  | splitter (sample : Signal)
  | joiner0 (n : Signal)
  | joiner1 (n : Signal)
  | joiner2 (n : Signal)
  | joiner3 (n : Signal)
  | encoder (d : Signal)
  | decoder (bits : List Signal)
  deriving DecidableEq, Repr

/-- What the host does next (R15, R73). `evaluate` is the place the machine fetches its operations from. -/
inductive HostCmd where
  /-- One operation, given by the port pattern it drives (R48: the encoding of a statement). -/
  | evaluate (w : PortWord)
  /-- One operation, given by what the host presents, fitting the port or not (R87 to R90). -/
  | present (i : Instr)
  /-- Change an input port and read nothing. -/
  | drive (d : Drive)
  /-- Let `t` units of time pass (R104). -/
  | wait (t : Nat)
  /-- Read one output port (R14). -/
  | read (q : OutPort)
  /-- One statement of a program (R48). -/
  | stmt (st : Stmt)
  /-- A call of CORRUPT on codewords the host presents (R74). -/
  | corrupt (groups : List (Quad (List Signal))) (stride bitIndex : Int)
  /-- Begin a pipeline run on integers; `none` takes the default parameter (R81, R103). -/
  | begin (samples : List Int) (stride bitIndex : Option Int)
  /-- Begin a pipeline run on floats through the entry adapter (R85). -/
  | load (floats : List HostFloat) (stride bitIndex : Option Int)
  /-- PROCESS step 1 for sample i (R80). -/
  | encodeSample (i : Nat)
  /-- PROCESS step 2, over the whole clean array (R81). -/
  | corruptAll
  /-- PROCESS step 3 for sample i, uncorrected stream (R82). -/
  | decodeRawSample (i : Nat)
  /-- PROCESS step 3 for sample i, corrected stream (R83). -/
  | decodeSample (i : Nat)
  /-- Hand the three named outputs of an ended run to the exit adapter (R86). -/
  | save
  deriving DecidableEq, Repr

/-- The three named outputs as `AudioIO.save` receives them (R86). -/
structure Saved where
  original : List HostFloat
  error : List HostFloat
  corrected : List HostFloat
  deriving DecidableEq, Repr

/-- One pipeline run: its parameters (R8), the host's buffers (R21), sized from the input length before
use, an element `none` until it is written (R32), and the outputs handed over (R86). -/
structure Run where
  original : List HostFloat
  samples : List Int
  stride : Nat
  bitIndex : Nat
  cwClean : List (Option (Quad Codeword))
  cwCorrupt : Option (List (Quad Codeword))
  corrupted : List (Option Int)
  corrected : List (Option Int)
  saved : Option Saved
  deriving DecidableEq, Repr

/-- The buffers before any run: no sample, the default parameters (R78). -/
def Run.empty : Run :=
  { original := [], samples := [], stride := 100, bitIndex := 6, cwClean := [], cwCorrupt := none,
    corrupted := [], corrected := [], saved := none }

/-- The state: the block's is the current value of its input ports (R13); the rest is the host's. -/
structure State where
  splitterIn : Port 16
  joinerIn : Quad (Port 4)
  encoderIn : Port 4
  decoderIn : Port 7
  splitterSettle : Settle
  joinerSettle : Settle
  encoderSettle : Settle
  decoderSettle : Settle
  hostRead : Readout
  names : List (Name × Value)
  run : Run
  pending : List HostCmd
  deriving DecidableEq, Repr

/-! ## How a step can stop -/

/-- A value presented as a Sample that is none (R87). -/
inductive BadSample where
  | integer (x : Int)
  | float (x : HostFloat)
  deriving DecidableEq, Repr

/-- The parameters of the host's CORRUPT (R8). -/
inductive HostParam where
  | stride
  | bitIndex
  deriving DecidableEq, Repr

/-- The fault reasons: the closed enumeration of 60_exceptions.md section 1, with what each records. All
are raised at the boundary or in a host call, and all are safe: the spec itself stops there and no output
is produced (R93). `UncorrectableError` is not among them: it is never raised (R91). -/
inductive Fault where
  /-- Code 1, raised by SPLIT's boundary, by the entry adapter and by the begin of a run: a Sample integer
  outside [-32768, 32767], or a float with no finite value (R85, R87). Safe. -/
  | outOfRangeSample (value : BadSample) (index : Option Nat)
  /-- Code 2, raised by the boundary of DECODE and DECODE_RAW, and where the host gives CORRUPT or FLIP a
  sequence that is no codeword: not 7 elements, or an element that is not 0 or 1 (R88; for CORRUPT and FLIP log 9).
  `index` is none but where CORRUPT raises it (log 19). Safe. -/
  | malformedCodeword (sequence : List Signal) (index : Option (Nat × Nat))
  /-- Code 3, raised by the boundary of ENCODE and JOIN: a nibble outside [0, 15] (R89). Safe. -/
  | outOfRangeNibble (value : Int) (slot : Option Nat)
  /-- Code 4, raised on reading an output of a unit whose input port has no value on some bit, or whose
  inputs changed less than `T_SETTLE` ago (R90, R104); by an operation, CORRUPT or FLIP on a place without a
  value (log 9); and on driving a sequence that is malformed and has such a place (R94, log 23). Safe. -/
  | undrivenInput (unit : UnitId) (port : InPort)
  /-- Code 5, raised by the host's CORRUPT, FLIP and the begin of a run: `stride <= 0`, or `bit_index`
  outside 0..6 (R79, R92; for FLIP log 22). Safe. -/
  | badHostParameter (param : HostParam) (value : Int)
  deriving DecidableEq, Repr

/-- The spec's numeric codes (60_exceptions.md section 1, D9). -/
def Fault.code : Fault → Nat
  | .outOfRangeSample _ _ => 1
  | .malformedCodeword _ _ => 2
  | .outOfRangeNibble _ _ => 3
  | .undrivenInput _ _ => 4
  | .badHostParameter _ _ => 5

/-- Host commands to which the spec gives no effect. No operation of the block ends in one. All are safe:
the machine stops where the spec says nothing. -/
inductive Refusal where
  /-- An operation with no meaning in the model, by its mnemonic; no arm of exec answers so. Safe. -/
  | notModelled (mnemonic : String)
  /-- `evaluate` with a pattern wider than the port (R45); the host's other form, `present`, names the
  boundary fault. Safe. -/
  | notAPortWord (why : Reject)
  /-- A statement that uses a name of the wrong kind (R48 types the operands of each form). Safe. -/
  | illTyped (name : Name)
  /-- A statement that assigns a name again: 'a name is assigned once' (R48). Safe. -/
  | assignedTwice (name : Name)
  /-- A pipeline command for an index that is not below N (R21). Safe. -/
  | noSuchSample (index : Nat)
  /-- CORRUPT of a clean array with an element not written yet (R81, R32). Safe. -/
  | cleanNotComplete
  /-- A decode before CORRUPT has produced the corrupt array (R34, R107). Safe. -/
  | corruptNotComplete
  /-- A reading of the finished buffers of a run that has not ended (R32, R111). Safe. -/
  | runNotEnded
  deriving DecidableEq, Repr

/-- The outcome of a step of this machine. -/
abbrev Outcome := Host.Outcome State Fault Refusal

/-- Before the host has done anything: no input port is driven (R23, R90; N4, N11: no power-up value may be
assumed), nothing is read or named, no run has begun and no command waits. -/
def State.reset : State :=
  { splitterIn := Port.undriven 16
    joinerIn := ⟨Port.undriven 4, Port.undriven 4, Port.undriven 4, Port.undriven 4⟩
    encoderIn := Port.undriven 4
    decoderIn := Port.undriven 7
    splitterSettle := .settled
    joinerSettle := .settled
    encoderSettle := .settled
    decoderSettle := .settled
    hostRead := .nothing
    names := []
    run := Run.empty
    pending := [] }

end Sys2Proof.Machine
end

