-- ==== Sys2Proof/Machine/Flags.lean ====
section
/-!
DEFINITION. The block has no status flags, condition codes or predicates (spec/10_state.md R17). What an
instruction set computes as flags has its nearest kin in the code's check bits, which stand here: the
encoder's parity bits (R57) and the decoder's syndrome (R60, R61), all plain data.
-/

namespace Sys2Proof.Machine

/-! ## Parity bits of a nibble (R57), with `d1 = d[3]`, ..., `d4 = d[0]` (R42) -/

def p1 (d : Nibble) : Bool := d.getLsbD 3 ^^ d.getLsbD 2 ^^ d.getLsbD 0
def p2 (d : Nibble) : Bool := d.getLsbD 3 ^^ d.getLsbD 1 ^^ d.getLsbD 0
def p3 (d : Nibble) : Bool := d.getLsbD 2 ^^ d.getLsbD 1 ^^ d.getLsbD 0

/-! ## Syndrome bits of a received word (R60), with `bP = cw[P-1]` -/

def s1 (cw : Codeword) : Bool := bitAt cw 1 ^^ bitAt cw 3 ^^ bitAt cw 5 ^^ bitAt cw 7
def s2 (cw : Codeword) : Bool := bitAt cw 2 ^^ bitAt cw 3 ^^ bitAt cw 6 ^^ bitAt cw 7
def s3 (cw : Codeword) : Bool := bitAt cw 4 ^^ bitAt cw 5 ^^ bitAt cw 6 ^^ bitAt cw 7

/-- `pos = s1 + 2·s2 + 4·s3`, a natural in [0, 7] (R61). -/
def pos (cw : Codeword) : Nat := (s1 cw).toNat + 2 * (s2 cw).toNat + 4 * (s3 cw).toNat

/-- The syndrome port: bit 0 is s1, bit 1 is s2, bit 2 is s3 (R64). -/
def syndromeOf (cw : Codeword) : Syndrome :=
  BitVec.ofBool (s3 cw) ++ BitVec.ofBool (s2 cw) ++ BitVec.ofBool (s1 cw)

end Sys2Proof.Machine
end

