-- ==== Sys2Proof/Machine/Operands.lean ====
section
/-!
DEFINITION. The model's boundary: from what the host presents to the values of input ports, with the faults of
spec/60_exceptions.md R87 to R90. Within one value `UndrivenInput` comes before the range fault (R94).
-/

namespace Sys2Proof.Machine

/-- A place that carries no value: undriven, X or Z (R90). -/
def hasNoValue : Signal → Bool
  | .value _ => false
  | .undriven => true
  | .unknown => true
  | .highZ => true

/-! ## Operands of an operation: every place must have a value, since the operation reads outputs -/

/-- The operand of SPLIT (R87): refused, not reduced modulo 2^16. -/
def takeSample (x : Signal) : Except Fault SamplePattern :=
  match x with
  | .value n =>
    match sampleOf (.value n) with
    | some u => .ok u
    | none => .error (.outOfRangeSample (.integer n) none)
  | .undriven => .error (.undrivenInput .splitter .splitterSample)
  | .unknown => .error (.undrivenInput .splitter .splitterSample)
  | .highZ => .error (.undrivenInput .splitter .splitterSample)

/-- A nibble operand for an input port (R89): refused, not truncated to 4 bits. -/
def takeNibble (port : InPort) (slot : Option Nat) (n : Signal) : Except Fault Nibble :=
  match n with
  | .value k =>
    match nibbleOf (.value k) with
    | some v => .ok v
    | none => .error (.outOfRangeNibble k slot)
  | .undriven => .error (.undrivenInput port.unit port)
  | .unknown => .error (.undrivenInput port.unit port)
  | .highZ => .error (.undrivenInput port.unit port)

/-- The operands of JOIN, in input order: slot k ascending (R94). -/
def takeNibbles (n0 n1 n2 n3 : Signal) : Except Fault (Quad Nibble) :=
  match takeNibble .joinerN0 (some 0) n0 with
  | .error f => .error f
  | .ok a =>
    match takeNibble .joinerN1 (some 1) n1 with
    | .error f => .error f
    | .ok b =>
      match takeNibble .joinerN2 (some 2) n2 with
      | .error f => .error f
      | .ok c =>
        match takeNibble .joinerN3 (some 3) n3 with
        | .error f => .error f
        | .ok d => .ok ⟨a, b, c, d⟩

/-- A presented sequence as a codeword (R88); `index` is the sequence's place in the host's array, none where it has
none (an operation, FLIP: the model's choice, log 19). Where CORRUPT or FLIP presents it, no decoder is driven, and that
the fault then names the decoder's port is the model's choice (log 9). -/
def takeSequence (index : Option (Nat × Nat)) (bits : List Signal) : Except Fault Codeword :=
  if bits.any hasNoValue then .error (.undrivenInput .decoder .decoderCw)
  else
    match codewordOf bits with
    | some cw => .ok cw
    | none => .error (.malformedCodeword bits index)

/-- The operand of DECODE and DECODE_RAW (R88). -/
def takeCodeword (bits : List Signal) : Except Fault Codeword := takeSequence none bits

/-! ## Driving a port without reading: a place may be left without a value (R90) -/

/-- The sample port under what the host presents. -/
def portOfSample (x : Signal) : Except Fault (Port 16) :=
  if hasNoValue x then .ok (Port.undriven 16)
  else
    match takeSample x with
    | .ok u => .ok (Port.driven u)
    | .error f => .error f

/-- A nibble port under what the host presents. -/
def portOfNibble (port : InPort) (slot : Option Nat) (n : Signal) : Except Fault (Port 4) :=
  if hasNoValue n then .ok (Port.undriven 4)
  else
    match takeNibble port slot n with
    | .ok v => .ok (Port.driven v)
    | .error f => .error f

/-- The value and known bits of a sequence, its first element bit 0 (R39); the bit of an element that is not 0 or 1
is not known. -/
def levelsOf : List Signal → Nat × Nat
  | [] => (0, 0)
  | e :: rest =>
    match bitOf e with
    | some b => (2 * (levelsOf rest).1 + b.toNat, 2 * (levelsOf rest).2 + 1)
    | none => (2 * (levelsOf rest).1, 2 * (levelsOf rest).2)

/-- An element that one bit of the codeword port can show: 0, 1, or no value (R88, R90). -/
def fitsBit (e : Signal) : Bool := hasNoValue e || e.isBit

/-- The codeword port is driven at its full width (R28): exactly 7 elements, each 0, 1 or without a value. -/
def fitsCodewordPort (bits : List Signal) : Bool := decide (bits.length = 7) && bits.all fitsBit

/-- The codeword port under what the host presents: a place without a value leaves its bit not known (R90), and a
sequence that does not fit the port is refused as it is for an operation (R88, R94; log 23). -/
def portOfBits (bits : List Signal) : Except Fault (Port 7) :=
  if fitsCodewordPort bits then
    .ok ⟨BitVec.ofNat 7 (levelsOf bits).1, BitVec.ofNat 7 (levelsOf bits).2⟩
  else (takeCodeword bits).map Port.driven

/-! ## Parameters of the host's CORRUPT -/

/-- `stride >= 1` and `bit_index` in 0..6, the stride looked at first; anything else is refused (R79, R92). -/
def takeParams (stride bitIndex : Int) : Except Fault (Nat × Nat) :=
  if stride ≤ 0 then .error (.badHostParameter .stride stride)
  else if bitIndex < 0 ∨ 6 < bitIndex then .error (.badHostParameter .bitIndex bitIndex)
  else .ok (stride.toNat, bitIndex.toNat)

/-- The samples of a run, the first bad one reported by its index (R87, R94, R103). -/
def checkSamples : Nat → List Int → Except Fault Unit
  | _, [] => .ok ()
  | i, x :: rest =>
    if Config.sampleMin ≤ x ∧ x ≤ Config.sampleMax then checkSamples (i + 1) rest
    else .error (.outOfRangeSample (.integer x) (some i))

end Sys2Proof.Machine
end

