-- ==== Sys2Proof/Machine/Ops.lean ====
section
/-!
DEFINITION. The shared operations over the state: driving an input port, the host's reading, the names of a
program, time, and stopping. The block takes no exception and returns from none: nothing is saved on a
fault, there is no vector and no handler (spec/60_exceptions.md R96, R97), so a fault is the outcome `.fault`
and no operation enters or leaves a handler. It has no memory either (20_memory.md R25, R30).
-/

namespace Sys2Proof.Machine

/-! ## Updates of the state -/

/-- The splitter's input port and how long it has been so. -/
def State.setSplitter (s : State) (p : Port 16) (t : Settle) : State :=
  { s with splitterIn := p, splitterSettle := t }

/-- The joiner's four input ports and how long they have been so. -/
def State.setJoiner (s : State) (p : Quad (Port 4)) (t : Settle) : State :=
  { s with joinerIn := p, joinerSettle := t }

/-- The encoder's input port and how long it has been so. -/
def State.setEncoder (s : State) (p : Port 4) (t : Settle) : State :=
  { s with encoderIn := p, encoderSettle := t }

/-- The decoder's input port and how long it has been so. -/
def State.setDecoder (s : State) (p : Port 7) (t : Settle) : State :=
  { s with decoderIn := p, decoderSettle := t }

/-- What the host has just read. -/
def State.setRead (s : State) (r : Readout) : State := { s with hostRead := r }

/-- The program's names. -/
def State.setNames (s : State) (n : List (Name × Value)) : State := { s with names := n }

/-- The pipeline run. -/
def State.setRun (s : State) (r : Run) : State := { s with run := r }

/-- The commands the host has still to give. -/
def State.setPending (s : State) (c : List HostCmd) : State := { s with pending := c }

/-- A unit whose inputs have been unchanged for `t` more units of time (R104). -/
def Settle.later (t : Nat) : Settle → Settle
  | .settled => .settled
  | .since u => .since (u + t)

/-- Time passes; nothing else happens (R104). -/
def State.passTime (s : State) (t : Nat) : State :=
  { s with
    splitterSettle := s.splitterSettle.later t
    joinerSettle := s.joinerSettle.later t
    encoderSettle := s.encoderSettle.later t
    decoderSettle := s.decoderSettle.later t }

/-! ## Outcomes -/

/-- `raise <Fault>(info)`: a refusal by the model's boundary that ends the operation or run with no output
and no handler (R11, R93, R97). -/
def raise (f : Fault) : Outcome := .fault f

/-- Go on with `k` where the first outcome is a next state. -/
def andThen (o : Outcome) (k : State → Outcome) : Outcome :=
  match o with
  | .next s => k s
  | .fault f => .fault f
  | .refused r => .refused r

/-- Go on with the value where the boundary or a host call has one; raise its fault otherwise. -/
def orRaise {α : Type} (x : Except Fault α) (k : α → Outcome) : Outcome :=
  match x with
  | .ok a => k a
  | .error f => raise f

/-! ## Time (R104) -/

/-- `T_SETTLE` has passed since the last change, so far as the model knows. -/
def Settle.over : Settle → Bool
  | .settled => true
  | .since t => decide (Config.tSettle ≤ t)

/-- After new input: time starts anew only where the input changed ('since the last change'). -/
def Settle.afterDrive (changed : Bool) (old : Settle) : Settle := if changed then .since 0 else old

/-! ## Names of a program (R48), a list with strictly rising names -/

/-- The value of a name, if it has been assigned. -/
def lookupName (k : Name) : List (Name × Value) → Option Value
  | [] => none
  | (j, v) :: rest => if j = k then some v else lookupName k rest

/-- The list with one more name in its place. -/
def insertName (k : Name) (v : Value) : List (Name × Value) → List (Name × Value)
  | [] => [(k, v)]
  | (j, w) :: rest =>
    if k < j then (k, v) :: (j, w) :: rest
    else if k = j then (k, v) :: rest
    else (j, w) :: insertName k v rest

/-- Every name is above `k` and the names rise strictly. -/
def namesAbove (k : Name) : List (Name × Value) → Bool
  | [] => true
  | (j, _) :: rest => decide (k < j) && namesAbove j rest

/-- The canonical form of the names: strictly rising. -/
def namesWf : List (Name × Value) → Bool
  | [] => true
  | (j, _) :: rest => namesAbove j rest

/-- 'A name is assigned once' (R48). The names of a state are those of one program: no command ends a program or
forgets its names, and a further program takes other numbers for its names, the model's choice (log 20). -/
def assign (k : Name) (v : Value) (s : State) : Outcome :=
  match lookupName k s.names with
  | some _ => .refused (.assignedTwice k)
  | none => .next (s.setNames (insertName k v s.names))

/-- A host integer on a port. -/
def intSignals (bits : List Int) : List Signal := bits.map Signal.value

/-- A codeword as the list of integers `[b1, ..., b7]` (R39). -/
def codewordInts (cw : Codeword) : List Int :=
  [(bitAt cw 1).toNat, (bitAt cw 2).toNat, (bitAt cw 3).toNat, (bitAt cw 4).toNat, (bitAt cw 5).toNat,
    (bitAt cw 6).toNat, (bitAt cw 7).toNat]

end Sys2Proof.Machine
end

