-- ==== Sys2Proof/Machine/HammingCodec.lean ====
section
/-!
DEFINITION. `hamming_7_4_encoder` and `hamming_7_4_decoder_with_correction` (spec/41_hamming_codec.md): the
functions of the two units and the meanings of ENCODE, DECODE and DECODE_RAW.
-/

namespace Sys2Proof.Machine

/-- The encoder: `[b1..b7] = [p1, p2, d1, p3, d2, d3, d4]` (R57, R58). -/
def hammingEncode (d : Nibble) : Codeword :=
  codewordOfBits (p1 d) (p2 d) (d.getLsbD 3) (p3 d) (d.getLsbD 2) (d.getLsbD 1) (d.getLsbD 0)

/-- The word with the bit at position P inverted (R62). -/
def flipAt (cw : Codeword) (P : Nat) : Codeword := cw ^^^ (1#7 <<< (P - 1))

/-- The working copy: the bit at position `pos` inverted where `pos` is not 0 (R62). -/
def workingCopy (cw : Codeword) : Codeword := if pos cw = 0 then cw else flipAt cw (pos cw)

/-- `{b3, b5, b6, b7}` of a word (R63, R65). -/
def dataBits (cw : Codeword) : Nibble := nibbleOfBits (bitAt cw 3) (bitAt cw 5) (bitAt cw 6) (bitAt cw 7)

/-- The decoder's output `d`: the data bits of the working copy (R63). -/
def hammingDecode (cw : Codeword) : Nibble := dataBits (workingCopy cw)

/-- The decoder's output `d_raw`: the data bits of the input as they are (R65). -/
def hammingDecodeRaw (cw : Codeword) : Nibble := dataBits cw

/-- ENCODE (R57, R58): the host drives `d` and, once the unit has settled, reads `cw`. -/
def execEncode (d : Signal) (s : State) : Outcome :=
  orRaise (takeNibble .encoderD none d) fun n =>
    .next ((s.setEncoder (Port.driven n) .settled).setRead (.codeword (hammingEncode n)))

/-- DECODE (R60 to R64): the host drives `cw` and, once the unit has settled, reads `d` and `syndrome`. -/
def execDecode (bits : List Signal) (s : State) : Outcome :=
  orRaise (takeCodeword bits) fun cw =>
    .next ((s.setDecoder (Port.driven cw) .settled).setRead (.decoded (hammingDecode cw) (syndromeOf cw)))

/-- DECODE_RAW (R65): the host drives `cw` and, once the unit has settled, reads `d_raw`. -/
def execDecodeRaw (bits : List Signal) (s : State) : Outcome :=
  orRaise (takeCodeword bits) fun cw =>
    .next ((s.setDecoder (Port.driven cw) .settled).setRead (.raw (hammingDecodeRaw cw)))

end Sys2Proof.Machine
end

