-- ==== Sys2Proof/Machine/NibbleCodec.lean ====
section
/-!
DEFINITION. `nibble_splitter` and `nibble_joiner` (spec/40_nibble_codec.md): the functions of the two units and
the meanings of SPLIT and JOIN.
-/

namespace Sys2Proof.Machine

/-- `nibble_splitter`: n0 = u[15:12], n1 = u[11:8], n2 = u[7:4], n3 = u[3:0] (R49). -/
def splitNibbles (u : SamplePattern) : Quad Nibble := fields16 u

/-- `nibble_joiner`: {n0, n1, n2, n3} (R51). -/
def joinNibbles (q : Quad Nibble) : SamplePattern := concat16 q

/-- SPLIT (R49): the host drives `sample` and, once the unit has settled, reads `n0 n1 n2 n3`. -/
def execSplit (x : Signal) (s : State) : Outcome :=
  orRaise (takeSample x) fun u =>
    .next ((s.setSplitter (Port.driven u) .settled).setRead (.nibbles (splitNibbles u)))

/-- JOIN (R51): the host drives `n0 n1 n2 n3` and, once the unit has settled, reads `sample`. -/
def execJoin (n0 n1 n2 n3 : Signal) (s : State) : Outcome :=
  orRaise (takeNibbles n0 n1 n2 n3) fun q =>
    .next ((s.setJoiner (q.map Port.driven) .settled).setRead (.sample (joinNibbles q)))

end Sys2Proof.Machine
end

