-- ==== Sys2Proof/Machine/Pipeline.lean ====
section
/-!
DEFINITION. The reference host (spec/45_host_reference.md): the ErrorInjector (R74 to R79), the Pipeline (R80 to
R84) and the audio adapters (R85, R86). The pipeline's acts on single samples may come in any order (R31);
they evaluate copies of the units (R100), so the ports of the state stay as they are (log 6).
-/

namespace Sys2Proof.Machine

/-! ## ErrorInjector -/

/-- CORRUPT on the group of sample i: where i is a multiple of the stride, slot 0 has its bit at the
0-based `bit_index` inverted (R75, R76). -/
def corruptGroup (stride bitIndex i : Nat) (q : Quad Codeword) : Quad Codeword :=
  if i % stride = 0 then { q with s0 := flipAt q.s0 (bitIndex + 1) } else q

/-- CORRUPT: a new sequence, a function of its arguments alone (R74, R77). -/
def corrupt (stride bitIndex : Nat) (groups : List (Quad Codeword)) : List (Quad Codeword) :=
  groups.mapIdx (corruptGroup stride bitIndex)

/-- A presented group as four codewords, slot k ascending (R88, R94). -/
def takeGroup (i : Nat) (g : Quad (List Signal)) : Except Fault (Quad Codeword) :=
  match takeSequence (some (i, 0)) g.s0 with
  | .error f => .error f
  | .ok a =>
    match takeSequence (some (i, 1)) g.s1 with
    | .error f => .error f
    | .ok b =>
      match takeSequence (some (i, 2)) g.s2 with
      | .error f => .error f
      | .ok c =>
        match takeSequence (some (i, 3)) g.s3 with
        | .error f => .error f
        | .ok d => .ok ⟨a, b, c, d⟩

/-- The presented groups, sample index ascending (R94). -/
def takeGroups : Nat → List (Quad (List Signal)) → Except Fault (List (Quad Codeword))
  | _, [] => .ok []
  | i, g :: rest =>
    match takeGroup i g with
    | .error f => .error f
    | .ok q =>
      match takeGroups (i + 1) rest with
      | .error f => .error f
      | .ok qs => .ok (q :: qs)

/-- A call of CORRUPT by itself: the parameters first, then the codewords (R79, R94); the caller gets the
new sequence and nothing else changes (R74). -/
def callCorrupt (groups : List (Quad (List Signal))) (stride bitIndex : Int) (s : State) : Outcome :=
  orRaise (takeParams stride bitIndex) fun sk =>
    orRaise (takeGroups 0 groups) fun qs => .next (s.setRead (.corrupted (corrupt sk.1 sk.2 qs)))

/-! ## Pipeline, on one sample -/

/-- Step 1: `ENCODE(SPLIT(unsigned16(x)).n_k)` for k = 0..3 (R80). -/
def encodeGroup (x : Int) : Quad Codeword := (splitNibbles (unsigned16 x)).map hammingEncode

/-- Step 3, uncorrected: `signed16(JOIN(d_raw of the four words))` (R82). -/
def rawSample (q : Quad Codeword) : Int := signed16 (joinNibbles (q.map hammingDecodeRaw))

/-- Step 3, corrected: `signed16(JOIN(d of the four words))` (R83). -/
def correctedSample (q : Quad Codeword) : Int := signed16 (joinNibbles (q.map hammingDecode))

/-! ## Pipeline, as one function (R80 to R84) -/

/-- PROCESS: the pair of `corrupted` and `corrected`, or the first fault (R84, R94). -/
def process (stride bitIndex : Int) (samples : List Int) : Except Fault (List Int × List Int) :=
  match takeParams stride bitIndex with
  | .error f => .error f
  | .ok sk =>
    match checkSamples 0 samples with
    | .error f => .error f
    | .ok _ =>
      .ok ((corrupt sk.1 sk.2 (samples.map encodeGroup)).map rawSample,
        (corrupt sk.1 sk.2 (samples.map encodeGroup)).map correctedSample)

/-! ## Pipeline, step by step over the host's buffers (R21) -/

/-- The elements of a buffer, if every one has been written (R32). -/
def allWritten {α : Type} : List (Option α) → Option (List α)
  | [] => some []
  | none :: _ => none
  | some a :: rest =>
    match allWritten rest with
    | some l => some (a :: l)
    | none => none

/-- The buffers at the start of a run, sized from the input length (R103); nothing of an earlier run is
kept (R24, R102). -/
def freshRun (original : List HostFloat) (samples : List Int) (stride bitIndex : Nat) : Run :=
  { original := original, samples := samples, stride := stride, bitIndex := bitIndex
    cwClean := List.replicate samples.length none, cwCorrupt := none
    corrupted := List.replicate samples.length none, corrected := List.replicate samples.length none
    saved := none }

/-- Begin a run: the parameters first, then the samples in order (R94, R103). -/
def beginRun (original : List HostFloat) (samples : List Int) (stride bitIndex : Option Int) (s : State) :
    Outcome :=
  orRaise (takeParams (stride.getD Config.defaultStride) (bitIndex.getD Config.defaultBitIndex)) fun sk =>
    orRaise (checkSamples 0 samples) fun _ => .next (s.setRun (freshRun original samples sk.1 sk.2))

/-- `cw_clean[i][k]` for k = 0..3 (R80). -/
def encodeSample (i : Nat) (s : State) : Outcome :=
  match s.run.samples[i]? with
  | none => .refused (.noSuchSample i)
  | some x => .next (s.setRun { s.run with cwClean := s.run.cwClean.set i (some (encodeGroup x)) })

/-- `cw_corrupt = corrupt(cw_clean, stride, bit_index)`, always from the clean copy and over all of it
(R81, R106, R107). -/
def corruptRun (s : State) : Outcome :=
  match allWritten s.run.cwClean with
  | none => .refused .cleanNotComplete
  | some qs => .next (s.setRun { s.run with cwCorrupt := some (corrupt s.run.stride s.run.bitIndex qs) })

/-- `cw_corrupt[i]`, once CORRUPT has produced all of it (R34, R107). -/
def corruptWords (i : Nat) (r : Run) : Except Refusal (Quad Codeword) :=
  match r.cwCorrupt with
  | none => .error .corruptNotComplete
  | some qs =>
    match qs[i]? with
    | none => .error (.noSuchSample i)
    | some q => .ok q

/-- `corrupted[i]`, written at the index of its input (R82, R109). -/
def decodeRawSample (i : Nat) (s : State) : Outcome :=
  match corruptWords i s.run with
  | .error r => .refused r
  | .ok q => .next (s.setRun { s.run with corrupted := s.run.corrupted.set i (some (rawSample q)) })

/-- `corrected[i]`, from the same words (R83, R109, 90_conflicts.md C3). -/
def decodeSample (i : Nat) (s : State) : Outcome :=
  match corruptWords i s.run with
  | .error r => .refused r
  | .ok q => .next (s.setRun { s.run with corrected := s.run.corrected.set i (some (correctedSample q)) })

/-- A run has ended when both outputs have all their N elements (R111); a fault ends it otherwise, and is
then the outcome of the machine. -/
def Run.ended (r : Run) : Bool :=
  decide (r.corrupted.length = r.samples.length) && decide (r.corrected.length = r.samples.length) &&
    (allWritten r.corrupted).isSome && (allWritten r.corrected).isSome

/-! ## Audio adapters -/

/-- The numerator of `clip(num / den, -32768, 32767)` over the same denominator (R85). -/
def clip (num : Int) (den : Nat) : Int := max (-32768 * den) (min num (32767 * den))

/-- `round(num / den)`, to the nearest integer; a value half way between `n` and `n + 1` goes as
`ROUND_TIES` says (R85, D18). -/
def roundNearest (num : Int) (den : Nat) : Int :=
  if 2 * (num % den) < den then num / den
  else if (den : Int) < 2 * (num % den) then num / den + 1
  else if Config.roundTiesUp (num / den) then num / den + 1
  else num / den

/-- The entry adapter on the float at index i: `round(clip(x·32767, -32768, 32767))`; a float with no
finite value is refused (R85, R87, D19). -/
def entrySample (i : Nat) : HostFloat → Except Fault Int
  | .finite x => .ok (roundNearest (clip (x.num * Config.audioScale) x.den) x.den)
  | .posInf => .error (.outOfRangeSample (.float .posInf) (some i))
  | .negInf => .error (.outOfRangeSample (.float .negInf) (some i))
  | .nan => .error (.outOfRangeSample (.float .nan) (some i))

/-- The entry adapter on a buffer, index ascending (R85, R94). -/
def entrySamples : Nat → List HostFloat → Except Fault (List Int)
  | _, [] => .ok []
  | i, x :: rest =>
    match entrySample i x with
    | .error f => .error f
    | .ok y =>
      match entrySamples (i + 1) rest with
      | .error f => .error f
      | .ok ys => .ok (y :: ys)

/-- Begin a run on floats (R85), the parameters looked at first (R94). -/
def loadRun (floats : List HostFloat) (stride bitIndex : Option Int) (s : State) : Outcome :=
  orRaise (takeParams (stride.getD Config.defaultStride) (bitIndex.getD Config.defaultBitIndex)) fun _ =>
    orRaise (entrySamples 0 floats) fun xs => beginRun floats xs stride bitIndex s

/-- The most that rounding to the host's float format moves a value (log 11). -/
def floatError (q : Rat) : Rat := |q| / 2 ^ Config.floatPrecision

/-- A value 'as a float' (R86): an integer as it is (of the exit adapter's quotients -1, 0 and 1, which every
format holds), any other value as the open rounding gives it, no farther off than the open precision (log 11). -/
def asFloat (q : Rat) : Rat :=
  if q.den = 1 then q else max (q - floatError q) (min (q + floatError q) (Config.floatRounding q))

/-- What `AudioIO.save` receives for a Sample: it divided by 32767.0, as a float (R86). -/
def exitFloat (x : Int) : HostFloat := .finite (asFloat ((x : Rat) / Config.audioScale))

/-- The three named outputs of an ended run (R86, R32). A run of no sample has both outputs complete as it stands
(R84, R111), so a save before any run hands over three empty outputs: the model's choice (log 14). -/
def saveRun (s : State) : Outcome :=
  match allWritten s.run.corrupted, allWritten s.run.corrected with
  | some e, some c =>
    .next (s.setRun { s.run with
      saved := some { original := s.run.original, error := e.map exitFloat, corrected := c.map exitFloat } })
  | _, _ => .refused .runNotEnded

end Sys2Proof.Machine
end

