-- ==== Sys2Proof/Machine/Dispatch.lean ====
section
/-!
DEFINITION. The meaning of each operation of spec/opcode_table.json.
-/

namespace Sys2Proof.Machine

def exec (i : Instr) (s : State) : Host.Outcome State Fault Refusal :=
  match i with
  | .split x => Sys2Proof.Machine.execSplit x s
  | .join n0 n1 n2 n3 => Sys2Proof.Machine.execJoin n0 n1 n2 n3 s
  | .encode d => Sys2Proof.Machine.execEncode d s
  | .decode bits => Sys2Proof.Machine.execDecode bits s
  | .decodeRaw bits => Sys2Proof.Machine.execDecodeRaw bits s

end Sys2Proof.Machine
end

