-- ==== Sys2Proof/Machine/Ports.lean ====
section
/-!
DEFINITION. The output ports as functions of the input ports (spec/10_state.md R14, R23), and the host's single
acts on ports: driving one input, letting time pass, reading one output (R29, R73, R90, R104).
-/

namespace Sys2Proof.Machine

/-! ## Output ports -/

/-- The value at an input port for its unit's outputs: it has one once it is driven on every bit and has
settled (R90, R104). -/
def inputValue {w : Nat} (port : InPort) (t : Settle) (p : Port w) : Except Fault (BitVec w) :=
  if t.over then
    match p.read with
    | some v => .ok v
    | none => .error (.undrivenInput port.unit port)
  else .error (.undrivenInput port.unit port)

/-- `n0 n1 n2 n3` of `nibble_splitter`, together (R23, R29). -/
def splitterOut (s : State) : Except Fault (Quad Nibble) :=
  match inputValue .splitterSample s.splitterSettle s.splitterIn with
  | .ok u => .ok (splitNibbles u)
  | .error f => .error f

/-- `sample` of `nibble_joiner` (R23); of several ports without a value the lowest slot is named (R94), and of an
early read slot 0, whichever input changed (R104 names no port; log 19). -/
def joinerOut (s : State) : Except Fault SamplePattern :=
  match inputValue .joinerN0 s.joinerSettle s.joinerIn.s0 with
  | .error f => .error f
  | .ok a =>
    match inputValue .joinerN1 s.joinerSettle s.joinerIn.s1 with
    | .error f => .error f
    | .ok b =>
      match inputValue .joinerN2 s.joinerSettle s.joinerIn.s2 with
      | .error f => .error f
      | .ok c =>
        match inputValue .joinerN3 s.joinerSettle s.joinerIn.s3 with
        | .error f => .error f
        | .ok d => .ok (joinNibbles ⟨a, b, c, d⟩)

/-- `cw` of `hamming_7_4_encoder` (R23). -/
def encoderOut (s : State) : Except Fault Codeword :=
  match inputValue .encoderD s.encoderSettle s.encoderIn with
  | .ok d => .ok (hammingEncode d)
  | .error f => .error f

/-- `d`, `syndrome` and `d_raw` of `hamming_7_4_decoder_with_correction`, together (R23, R29). -/
def decoderOut (s : State) : Except Fault DecoderOut :=
  match inputValue .decoderCw s.decoderSettle s.decoderIn with
  | .ok cw => .ok ⟨hammingDecode cw, syndromeOf cw, hammingDecodeRaw cw⟩
  | .error f => .error f

/-- One output port as a number. -/
def outputOf (q : OutPort) (s : State) : Except Fault Nat :=
  match q with
  | .splitterN0 => (splitterOut s).map fun n => n.s0.toNat
  | .splitterN1 => (splitterOut s).map fun n => n.s1.toNat
  | .splitterN2 => (splitterOut s).map fun n => n.s2.toNat
  | .splitterN3 => (splitterOut s).map fun n => n.s3.toNat
  | .joinerSample => (joinerOut s).map fun u => u.toNat
  | .encoderCw => (encoderOut s).map fun cw => cw.toNat
  | .decoderD => (decoderOut s).map fun o => o.d.toNat
  | .decoderSyndrome => (decoderOut s).map fun o => o.syndrome.toNat
  | .decoderDRaw => (decoderOut s).map fun o => o.dRaw.toNat

/-! ## The host's acts on one port -/

/-- The sample port newly driven. -/
def driveSplitter (x : Signal) (s : State) : Outcome :=
  orRaise (portOfSample x) fun p =>
    .next (s.setSplitter p (s.splitterSettle.afterDrive (decide (p ≠ s.splitterIn))))

/-- One of the joiner's ports newly driven; the other three keep their values. -/
def driveJoiner (port : InPort) (slot : Nat) (put : Quad (Port 4) → Port 4 → Quad (Port 4)) (n : Signal)
    (s : State) : Outcome :=
  orRaise (portOfNibble port (some slot) n) fun p =>
    .next (s.setJoiner (put s.joinerIn p) (s.joinerSettle.afterDrive (decide (put s.joinerIn p ≠ s.joinerIn))))

/-- The encoder's port newly driven. -/
def driveEncoder (d : Signal) (s : State) : Outcome :=
  orRaise (portOfNibble .encoderD none d) fun p =>
    .next (s.setEncoder p (s.encoderSettle.afterDrive (decide (p ≠ s.encoderIn))))

/-- The decoder's port newly driven. -/
def driveDecoder (bits : List Signal) (s : State) : Outcome :=
  orRaise (portOfBits bits) fun p =>
    .next (s.setDecoder p (s.decoderSettle.afterDrive (decide (p ≠ s.decoderIn))))

/-- The host changes one input port and reads nothing, so a place without a value is no fault yet (R90). -/
def runDrive (d : Drive) (s : State) : Outcome :=
  match d with
  | .splitter x => driveSplitter x s
  | .joiner0 n => driveJoiner .joinerN0 0 (fun q p => { q with s0 := p }) n s
  | .joiner1 n => driveJoiner .joinerN1 1 (fun q p => { q with s1 := p }) n s
  | .joiner2 n => driveJoiner .joinerN2 2 (fun q p => { q with s2 := p }) n s
  | .joiner3 n => driveJoiner .joinerN3 3 (fun q p => { q with s3 := p }) n s
  | .encoder d => driveEncoder d s
  | .decoder bits => driveDecoder bits s

/-- The host reads one output port; reading has no side effect on the block (R29), and an output that has
no value is the fault `UndrivenInput` (R90, R104). -/
def runRead (q : OutPort) (s : State) : Outcome :=
  orRaise (outputOf q s) fun v => .next (s.setRead (.port q v))

end Sys2Proof.Machine
end

