-- ==== Sys2Proof/Machine/Program.lean ====
section
/-!
DEFINITION. The statements of the program notation (spec/30_encoding.md R48), run by the host on the block: a
statement drives a unit with the values of its names and gives the outputs read to new names. Of several defects of
one statement, the stop is that of a name of the wrong kind, then the boundary's fault, then that of a name assigned
again, an order the spec leaves open and the model chooses (log 24).
-/

namespace Sys2Proof.Machine

/-- What a name carries to a sample port; a name not assigned carries no value (R48, R90). -/
def sampleNamed (k : Name) (names : List (Name × Value)) : Except Refusal Signal :=
  match lookupName k names with
  | none => .ok .undriven
  | some (.sample x) => .ok (.value x)
  | some (.nibble _) => .error (.illTyped k)
  | some (.codeword _) => .error (.illTyped k)
  | some (.syndrome _) => .error (.illTyped k)

/-- What a name carries to a nibble port. -/
def nibbleNamed (k : Name) (names : List (Name × Value)) : Except Refusal Signal :=
  match lookupName k names with
  | none => .ok .undriven
  | some (.nibble n) => .ok (.value n)
  | some (.sample _) => .error (.illTyped k)
  | some (.codeword _) => .error (.illTyped k)
  | some (.syndrome _) => .error (.illTyped k)

/-- What a name carries to the codeword port. -/
def codewordNamed (k : Name) (names : List (Name × Value)) : Except Refusal (List Signal) :=
  match lookupName k names with
  | none => .ok (List.replicate 7 .undriven)
  | some (.codeword bits) => .ok (intSignals bits)
  | some (.sample _) => .error (.illTyped k)
  | some (.nibble _) => .error (.illTyped k)
  | some (.syndrome _) => .error (.illTyped k)

/-- Go on with the value of a name, or stop with the refusal. -/
def orRefuse {α : Type} (x : Except Refusal α) (k : α → Outcome) : Outcome :=
  match x with
  | .ok a => k a
  | .error r => .refused r

/-- The host names what it read at a nibble port. -/
def assignNibble (k : Name) (n : Nibble) (s : State) : Outcome := assign k (.nibble n.toNat) s

/-- `SPLIT s -> a, b, c, d` (R48, R49). -/
def runSplit (n a b c d : Name) (s : State) : Outcome :=
  orRefuse (sampleNamed n s.names) fun x =>
    andThen (exec (.split x) s) fun t =>
      orRaise (splitterOut t) fun q =>
        andThen (assignNibble a q.s0 t) fun t =>
          andThen (assignNibble b q.s1 t) fun t =>
            andThen (assignNibble c q.s2 t) fun t => assignNibble d q.s3 t

/-- `JOIN a, b, c, d -> s`: the Sample is `signed16` of the port (R48, R51). All four kinds are looked at before any value,
and the new name last, the model's choice (log 24). -/
def runJoin (a b c d n : Name) (s : State) : Outcome :=
  orRefuse (nibbleNamed a s.names) fun n0 =>
    orRefuse (nibbleNamed b s.names) fun n1 =>
      orRefuse (nibbleNamed c s.names) fun n2 =>
        orRefuse (nibbleNamed d s.names) fun n3 =>
          andThen (exec (.join n0 n1 n2 n3) s) fun t =>
            orRaise (joinerOut t) fun u => assign n (.sample (signed16 u)) t

/-- `ENC n -> c` (R48, R57, R58). -/
def runEnc (n c : Name) (s : State) : Outcome :=
  orRefuse (nibbleNamed n s.names) fun d =>
    andThen (exec (.encode d) s) fun t =>
      orRaise (encoderOut t) fun cw => assign c (.codeword (codewordInts cw)) t

/-- `DEC c -> n, y, r`: one evaluation, all three outputs (R48, R60 to R65, R71). -/
def runDec (c n y r : Name) (s : State) : Outcome :=
  orRefuse (codewordNamed c s.names) fun bits =>
    andThen (exec (.decode bits) s) fun t =>
      orRaise (decoderOut t) fun o =>
        andThen (assignNibble n o.d t) fun t =>
          andThen (assign y (.syndrome o.syndrome.toNat) t) fun t => assignNibble r o.dRaw t

/-- `FLIP c, k -> c2`, the host's: `c XOR (1 << k)` for k in 0..6 (R48, R76), the parameter looked at
first (R94). R48 gives no effect for another k; that it is `BadHostParameter`, as for CORRUPT (R92), is the model's
choice (log 22). A named list that is no codeword is `MalformedCodeword` here too, the model's reading (log 9), and
records no index, a name having no place in an array, the model's choice (log 19); so is the order of the looks (log 24). -/
def runFlip (c : Name) (k : Int) (c2 : Name) (s : State) : Outcome :=
  orRaise (takeParams 1 k) fun sk =>
    orRefuse (codewordNamed c s.names) fun bits =>
      orRaise (takeSequence none bits) fun cw => assign c2 (.codeword (codewordInts (flipAt cw (sk.2 + 1)))) s

/-- One statement of a program (R48); which of several defects stops it is the model's choice (log 24). -/
def runStmt (st : Stmt) (s : State) : Outcome :=
  match st with
  | .letValue x v => assign x v s
  | .split n a b c d => runSplit n a b c d s
  | .join a b c d n => runJoin a b c d n s
  | .enc n c => runEnc n c s
  | .dec c n y r => runDec c n y r s
  | .flip c k c2 => runFlip c k c2 s

end Sys2Proof.Machine
end

