-- ==== Sys2Proof/Machine/Commands.lean ====
section
/-!
DEFINITION. What each command of the host does (spec/10_state.md R15, spec/45_host_reference.md R73).
-/

namespace Sys2Proof.Machine

/-- An operation given by its port word: decoded, then run. -/
def runWord (w : PortWord) (s : State) : Outcome :=
  match decode w with
  | .ok i => exec i s
  | .error why => .refused (.notAPortWord why)

/-- One command of the host. -/
def runCmd (c : HostCmd) (s : State) : Outcome :=
  match c with
  | .evaluate w => runWord w s
  | .present i => exec i s
  | .drive d => runDrive d s
  | .wait t => .next (s.passTime t)
  | .read q => runRead q s
  | .stmt st => runStmt st s
  | .corrupt groups stride bitIndex => callCorrupt groups stride bitIndex s
  | .begin samples stride bitIndex => beginRun [] samples stride bitIndex s
  | .load floats stride bitIndex => loadRun floats stride bitIndex s
  | .encodeSample i => encodeSample i s
  | .corruptAll => corruptRun s
  | .decodeRawSample i => decodeRawSample i s
  | .decodeSample i => decodeSample i s
  | .save => saveRun s

/-- The next command is taken from the front; with none waiting nothing is driven and nothing changes
(R15: what comes next is the host's choice; log 3). -/
def hostStep (s : State) : Outcome :=
  match s.pending with
  | [] => .next s
  | c :: rest => runCmd c (s.setPending rest)

/-- The state in which the host's next command is the operation of a table word. -/
def selectNext (nbits w : Nat) (s : State) : State :=
  s.setPending (.evaluate (tableSelect nbits w) :: s.pending)

end Sys2Proof.Machine
end

