-- ==== Sys2Proof/Machine/Step.lean ====
section
/-!
DEFINITION. One step: the host's next command (spec/10_state.md R15; spec/20_memory.md R29, one evaluation is
one atomic step).
-/

namespace Sys2Proof.Machine

/-- One step of the machine. -/
def step (s : State) : Host.Outcome State Fault Refusal := hostStep s

/-- `s` with the operation of a table word as the host's next command (logs 2 and 3). -/
def State.withFetchWord (s : State) (nbits w : Nat) : State := selectNext nbits w s

end Sys2Proof.Machine
end

