-- ==== Sys2Proof/Safety.lean ====
section
/-!
DEFINITION. The terms claims are stated in: the valid codewords (spec/41_hamming_codec.md R46), the names a statement
assigns (R48), reading once settled (R104), the invariant of
the state (canonical ports and names, the host's buffers as the pipeline rules give them), a run that has
ended (R111).
-/

namespace Sys2Proof.Machine

/-! ## The code -/

/-- One of the 16 words the encoder can produce (R46). -/
def ValidCodeword (cw : Codeword) : Prop := ∃ d : Nibble, hammingEncode d = cw

/-- In how many positions two words differ (R59). -/
def distance (a b : Codeword) : Nat :=
  ((List.range 7).filter fun i => a.getLsbD i != b.getLsbD i).length

/-- The word with every position of a set inverted (R69). -/
def flipAll (cw : Codeword) (positions : List Nat) : Codeword := positions.foldl flipAt cw

/-! ## Runs -/

/-- `n` steps one after the other, up to the first that stops. -/
def runSteps : Nat → State → Outcome
  | 0, s => .next s
  | n + 1, s => andThen (step s) (runSteps n)

/-! ## Programs and settling -/

/-- The names a statement assigns, in the order it assigns them (R48). -/
def Stmt.outputs : Stmt → List Name
  | .letValue x _ => [x]
  | .split _ a b c d => [a, b, c, d]
  | .join _ _ _ _ s => [s]
  | .enc _ c => [c]
  | .dec _ n y r => [n, y, r]
  | .flip _ _ c2 => [c2]

/-- What the host reads at a unit whose inputs have just changed (R104): the fault `UndrivenInput` at every output
until `T_SETTLE` has passed, and the listed values from then on. -/
def State.ReadsOnceSettled (t : State) (unit : UnitId) (values : List (OutPort × Nat)) : Prop :=
  ∀ k : Nat,
    (k < Config.tSettle → ∀ q, q.unit = unit →
      ∃ p : InPort, p.unit = unit ∧ runRead q (t.passTime k) = .fault (.undrivenInput unit p)) ∧
    (Config.tSettle ≤ k → ∀ q v, (q, v) ∈ values →
      runRead q (t.passTime k) = .next ((t.passTime k).setRead (.port q v)))

/-! ## The state -/

/-- No port holds a value on a bit that carries none. -/
def PortsCanonical (s : State) : Prop :=
  s.splitterIn.canonical = true ∧ s.joinerIn.s0.canonical = true ∧ s.joinerIn.s1.canonical = true ∧
    s.joinerIn.s2.canonical = true ∧ s.joinerIn.s3.canonical = true ∧ s.encoderIn.canonical = true ∧
    s.decoderIn.canonical = true

/-- The names of the program rise strictly, so each is assigned once (R48). -/
def NamesRising (s : State) : Prop := namesWf s.names = true

/-- The corrupt array that the rules give for a run's input and parameters (R80, R81). -/
def Run.expectedCorrupt (r : Run) : List (Quad Codeword) :=
  corrupt r.stride r.bitIndex (r.samples.map encodeGroup)

/-- The host's buffers are as the pipeline rules give them: each has the length of the input (R21, R84), the
input and the parameters passed the boundary (R79, R87), and what has been written is what R80 to R83 say,
the corrected stream being the input itself (R78). -/
structure RunConsistent (r : Run) : Prop where
  stride_pos : 1 ≤ r.stride
  bitIndex_le : r.bitIndex ≤ 6
  samples_ok : ∀ x ∈ r.samples, -32768 ≤ x ∧ x ≤ 32767
  clean_len : r.cwClean.length = r.samples.length
  corrupted_len : r.corrupted.length = r.samples.length
  corrected_len : r.corrected.length = r.samples.length
  clean_ok : ∀ (i : Nat) (q : Quad Codeword), r.cwClean[i]? = some (some q) →
    (r.samples[i]?).map encodeGroup = some q
  corrupt_ok : ∀ qs, r.cwCorrupt = some qs → qs = r.expectedCorrupt
  corrupted_ok : ∀ (i : Nat) (y : Int), r.corrupted[i]? = some (some y) →
    (r.expectedCorrupt[i]?).map rawSample = some y
  corrected_ok : ∀ (i : Nat) (y : Int), r.corrected[i]? = some (some y) → r.samples[i]? = some y

/-- What every state of a safe run satisfies. -/
structure State.Inv (s : State) : Prop where
  ports : PortsCanonical s
  names : NamesRising s
  run : RunConsistent s.run

end Sys2Proof.Machine
end

