-- ==== Sys2Proof/Certificates/Slice0/Obligations.lean ====
section
/-!
DEFINITION. The statements about the model, from the numbered rules of spec/. Each docstring names the rules it
formalises; where a statement rests on a choice of the model's own, it names the log entry.
-/

open Sys2Proof Sys2Proof.Machine

/-! ## Encoding -/

/-- The port words of five worked examples, drawn bit by bit from the port maps R36 to R43, stand for the
operations they were drawn from: SPLIT of -100 (0xFF9C), JOIN of 1 0 0 0, ENCODE of 1, and the word
`[1,1,0,1,0,0,0]` = 0x0B on the decoder. -/
def Obligations.SpecPortWordsDecode : Prop :=
  decode ⟨.split, 0b1111111110011100⟩ = .ok (.split (.value (-100))) ∧
  decode ⟨.join, 0b0001000000000000⟩ = .ok (.join (.value 1) (.value 0) (.value 0) (.value 0)) ∧
  decode ⟨.encode, 0b0001⟩ = .ok (.encode (.value 1)) ∧
  decode ⟨.decode, 0b0001011⟩ =
    .ok (.decode [.value 1, .value 1, .value 0, .value 1, .value 0, .value 0, .value 0]) ∧
  decode ⟨.decodeRaw, 0b0001011⟩ =
    .ok (.decodeRaw [.value 1, .value 1, .value 0, .value 1, .value 0, .value 0, .value 0])

/-- Every well-formed operation, with every operand the ports admit, has a port word, and decoding that word
gives the operation back (port maps R36 to R44). -/
def Obligations.DecodeOfEncodeIsIdentity : Prop :=
  ∀ i : Instr, i.wf = true → ∃ w, encode i = some w ∧ decode w = .ok i

/-- Every port word that decodes, decodes to a well-formed operation whose port word it is (port maps R36 to
R44): no two patterns of one port stand for the same operation. -/
def Obligations.EncodeOfDecodeIsIdentity : Prop :=
  ∀ (w : PortWord) (i : Instr), decode w = .ok i → i.wf = true ∧ encode i = some w

/-- R45: every pattern of every unit's input port is an operation that completes in every state, for all 2^16
SPLIT and JOIN patterns, all 2^4 ENCODE and all 2^7 DECODE and DECODE_RAW patterns. That a pattern too wide for the
port is the refusal `notAPortWord` is the model's choice (log 16). -/
def Obligations.EveryPortPatternIsLegal : Prop :=
  (∀ (tag : Tag) (p : Nat) (s : State), p < 2 ^ tag.width →
    ∃ i t, decode ⟨tag, p⟩ = .ok i ∧ i.wf = true ∧ exec i s = .next t) ∧
  (Tag.width .split = 16 ∧ Tag.width .join = 16 ∧ Tag.width .encode = 4 ∧ Tag.width .decode = 7 ∧
    Tag.width .decodeRaw = 7) ∧
  (∀ (tag : Tag) (p : Nat) (s : State), 2 ^ tag.width ≤ p →
    runWord ⟨tag, p⟩ s = .refused (.notAPortWord (.patternTooWide tag)))

/-- An operation completes exactly when its unit's ports can hold what the host presents; otherwise it is a
fault, and it is never refused (R45, R87 to R90). -/
def Obligations.OperationCompletesExactlyWhenWellFormed : Prop :=
  ∀ (i : Instr) (s : State),
    ((∃ t, exec i s = .next t) ↔ i.wf = true) ∧ (i.wf = false → ∃ f, exec i s = .fault f)

/-! ## The step -/

/-- A step runs the host's next command in the state with that command taken from the queue: an operation given by its
port word is decoded and run, one that is presented is run, and every other command is the host's act it names (R15,
R73). The queue and the idle step are the model's (log 3), and so is the refusal of a port word that does not decode
(log 16). -/
def Obligations.StepRunsTheDecodedOperation : Prop :=
  ∀ (s : State) (rest : List HostCmd),
    let u := { s with pending := rest }
    (∀ w i, s.pending = .evaluate w :: rest → decode w = .ok i → step s = exec i u) ∧
    (∀ w why, s.pending = .evaluate w :: rest → decode w = .error why → step s = .refused (.notAPortWord why)) ∧
    (∀ i, s.pending = .present i :: rest → step s = exec i u) ∧
    (s.pending = [] → step s = .next s) ∧
    (∀ d, s.pending = .drive d :: rest → step s = runDrive d u) ∧
    (∀ t, s.pending = .wait t :: rest → step s = .next (u.passTime t)) ∧
    (∀ q, s.pending = .read q :: rest → step s = runRead q u) ∧
    (∀ st, s.pending = .stmt st :: rest → step s = runStmt st u) ∧
    (∀ g x y, s.pending = .corrupt g x y :: rest → step s = callCorrupt g x y u) ∧
    (∀ xs x y, s.pending = .begin xs x y :: rest → step s = beginRun [] xs x y u) ∧
    (∀ fs x y, s.pending = .load fs x y :: rest → step s = loadRun fs x y u) ∧
    (∀ i, s.pending = .encodeSample i :: rest → step s = encodeSample i u) ∧
    (s.pending = .corruptAll :: rest → step s = corruptRun u) ∧
    (∀ i, s.pending = .decodeRawSample i :: rest → step s = decodeRawSample i u) ∧
    (∀ i, s.pending = .decodeSample i :: rest → step s = decodeSample i u) ∧
    (s.pending = .save :: rest → step s = saveRun u)

/-- With a table word as the next command, a step runs the operation that the decoder reads from it, in the
state as it was (the choice among rows of one width is the model's, log 2). -/
def Obligations.FetchWordIsTheNextOperation : Prop :=
  ∀ (s : State) (nbits w : Nat) (i : Instr),
    decodeTableWord nbits w = some i → step (s.withFetchWord nbits w) = exec i s

/-! ## SPLIT and JOIN -/

/-- R49: SPLIT of a Sample x completes; the port holds `unsigned16(x)`, and n0 to n3 are its fields [15:12],
[11:8], [7:4], [3:0], both as read and on the output ports; nothing else changes. That the unit is settled then, in
whatever state it was, and the other units' ages stay, is the model's choice (log 4). -/
def Obligations.SplitExtractsTheFourFields : Prop :=
  ∀ (s : State) (x : Int), -32768 ≤ x → x ≤ 32767 →
    let u := BitVec.ofInt 16 x
    let n : Quad Nibble :=
      ⟨u.extractLsb' 12 4, u.extractLsb' 8 4, u.extractLsb' 4 4, u.extractLsb' 0 4⟩
    let t := { s with splitterIn := Port.driven u, splitterSettle := .settled, hostRead := .nibbles n }
    exec (.split (.value x)) s = .next t ∧ splitterOut t = .ok n

/-- R50: for a Sample given as an integer x the port holds x mod 65536, every n_k is in [0, 15], and x is
`signed16(4096·n0 + 256·n1 + 16·n2 + n3)`. -/
def Obligations.SplitOfIntegerReassembles : Prop :=
  ∀ (s : State) (x : Int), -32768 ≤ x → x ≤ 32767 →
    ∃ t u n, exec (.split (.value x)) s = .next t ∧ t.splitterIn = Port.driven u ∧ t.hostRead = .nibbles n ∧
      (u.toNat : Int) = x % 65536 ∧
      n.s0.toNat ≤ 15 ∧ n.s1.toNat ≤ 15 ∧ n.s2.toNat ≤ 15 ∧ n.s3.toNat ≤ 15 ∧
      x = signed16 (BitVec.ofNat 16
        (4096 * n.s0.toNat + 256 * n.s1.toNat + 16 * n.s2.toNat + n.s3.toNat))

/-- R87: an integer outside [-32768, 32767] presented to SPLIT is the fault `OutOfRangeSample` and is not
reduced; so is a float with no finite value at the entry adapter; no 16-bit pattern on the port faults. That the
fault of an operation carries no sample index is the model's choice (log 19). -/
def Obligations.OutOfRangeSampleIsRefused : Prop :=
  (∀ (s : State) (x : Int), x < -32768 ∨ 32767 < x →
    exec (.split (.value x)) s = .fault (.outOfRangeSample (.integer x) none)) ∧
  (∀ (i : Nat) (f : HostFloat), (∀ q, f ≠ .finite q) →
    entrySample i f = .error (.outOfRangeSample (.float f) (some i))) ∧
  (∀ (s : State) (p : Nat), p < 65536 → ∃ t, runWord ⟨.split, p⟩ s = .next t)

/-- R51: JOIN of four nibbles completes with the pattern v = 4096·n0 + 256·n1 + 16·n2 + n3, both as read and
on the output port, whose value is v below 32768 and v - 65536 from there on; nothing else changes. That the unit
is settled then, in whatever state it was, and the other units' ages stay, is the model's choice (log 4). -/
def Obligations.JoinConcatenatesTheNibbles : Prop :=
  ∀ (s : State) (a b c d : Nat), a ≤ 15 → b ≤ 15 → c ≤ 15 → d ≤ 15 →
    let v := 4096 * a + 256 * b + 16 * c + d
    let t := { s with
      joinerIn := ⟨Port.driven (BitVec.ofNat 4 a), Port.driven (BitVec.ofNat 4 b),
        Port.driven (BitVec.ofNat 4 c), Port.driven (BitVec.ofNat 4 d)⟩,
      joinerSettle := .settled, hostRead := .sample (BitVec.ofNat 16 v) }
    exec (.join (.value a) (.value b) (.value c) (.value d)) s = .next t ∧
      joinerOut t = .ok (BitVec.ofNat 16 v) ∧
      signed16 (BitVec.ofNat 16 v) = if v < 32768 then (v : Int) else (v : Int) - 65536

/-- R52: whatever JOIN is given when it completes, it was given four nibbles; the result is their unsigned value
4096·n0 + 256·n1 + 16·n2 + n3 read as 16-bit two's complement, in [-32768, 32767], and negative exactly from 32768
on. -/
def Obligations.JoinIsTwosComplement : Prop :=
  ∀ (s t : State) (n0 n1 n2 n3 : Signal), exec (.join n0 n1 n2 n3) s = .next t →
    ∃ (a b c d : Nat) (u : SamplePattern),
      (n0 = .value a ∧ n1 = .value b ∧ n2 = .value c ∧ n3 = .value d) ∧
      (a ≤ 15 ∧ b ≤ 15 ∧ c ≤ 15 ∧ d ≤ 15) ∧
      t.hostRead = .sample u ∧ u.toNat = 4096 * a + 256 * b + 16 * c + d ∧ signed16 u = u.toInt ∧
      -32768 ≤ signed16 u ∧ signed16 u ≤ 32767 ∧ (32768 ≤ u.toNat ↔ signed16 u < 0)

/-- R89: a nibble value above 15 or below 0 presented to ENCODE, or to an input of JOIN whose earlier slots
fit, is the fault `OutOfRangeNibble` with the value and slot; it is not truncated. That the lowest slot is the one
named, whatever the later ones hold, is R94's order; that ENCODE's fault carries no slot is the model's choice
(log 19). -/
def Obligations.OutOfRangeNibbleIsRefused : Prop :=
  ∀ (s : State) (n : Int), n < 0 ∨ 15 < n →
    exec (.encode (.value n)) s = .fault (.outOfRangeNibble n none) ∧
    ∀ a b c : Nat, a ≤ 15 → b ≤ 15 → c ≤ 15 → ∀ x y z : Signal,
      exec (.join (.value n) x y z) s = .fault (.outOfRangeNibble n (some 0)) ∧
      exec (.join (.value a) (.value n) y z) s = .fault (.outOfRangeNibble n (some 1)) ∧
      exec (.join (.value a) (.value b) (.value n) z) s = .fault (.outOfRangeNibble n (some 2)) ∧
      exec (.join (.value a) (.value b) (.value c) (.value n)) s = .fault (.outOfRangeNibble n (some 3))

/-- R53: joining what SPLIT gave gives the pattern back, for all 65536 patterns; and for every Sample x the
two operations, one after the other, end with the value x. -/
def Obligations.JoinAfterSplitIsIdentity : Prop :=
  (∀ u : SamplePattern, joinNibbles (splitNibbles u) = u) ∧
  ∀ (s : State) (x : Int), -32768 ≤ x → x ≤ 32767 →
    ∃ t n t' u, exec (.split (.value x)) s = .next t ∧ t.hostRead = .nibbles n ∧
      exec (.join (.value n.s0.toNat) (.value n.s1.toNat) (.value n.s2.toNat) (.value n.s3.toNat)) t = .next t' ∧
      t'.hostRead = .sample u ∧ signed16 u = x

/-- R54: splitting what JOIN gave gives the four nibbles back, for every four nibbles; so the two units are a
bijection between patterns and 4-tuples of nibbles. -/
def Obligations.SplitAfterJoinIsIdentity : Prop :=
  (∀ q : Quad Nibble, splitNibbles (joinNibbles q) = q) ∧ Function.Bijective splitNibbles ∧
  ∀ (s : State) (a b c d : Nat), a ≤ 15 → b ≤ 15 → c ≤ 15 → d ≤ 15 →
    ∃ t u t' n, exec (.join (.value a) (.value b) (.value c) (.value d)) s = .next t ∧ t.hostRead = .sample u ∧
      exec (.split (.value (signed16 u))) t = .next t' ∧ t'.hostRead = .nibbles n ∧
      n.s0.toNat = a ∧ n.s1.toNat = b ∧ n.s2.toNat = c ∧ n.s3.toNat = d

/-- R55: a new nibble in one lane changes only that lane's bits of the joined pattern; in lane 0 it changes the
unsigned pattern by 4096 times the nibble's change, and the sign exactly when bit 3 of the nibble changes. -/
def Obligations.JoinLanesAreIndependent : Prop :=
  ∀ (q : Quad Nibble) (n : Nibble),
    (splitNibbles (joinNibbles { q with s0 := n }) = { q with s0 := n } ∧
      splitNibbles (joinNibbles { q with s1 := n }) = { q with s1 := n } ∧
      splitNibbles (joinNibbles { q with s2 := n }) = { q with s2 := n } ∧
      splitNibbles (joinNibbles { q with s3 := n }) = { q with s3 := n }) ∧
    ((joinNibbles { q with s0 := n }).toNat : Int) - (joinNibbles q).toNat =
      4096 * ((n.toNat : Int) - q.s0.toNat) ∧
    ((signed16 (joinNibbles { q with s0 := n }) < 0 ↔ signed16 (joinNibbles q) < 0) ↔
      n.getLsbD 3 = q.s0.getLsbD 3)

/-! ## ENCODE -/

/-- R57, R58: ENCODE of a nibble completes with cw[0..6] = p1, p2, d1, p3, d2, d3, d4, where d1 to d4 are bits 3
to 0 of the nibble, p1 = d1⊕d2⊕d4, p2 = d1⊕d3⊕d4, p3 = d2⊕d3⊕d4, both as read and on the output port; nothing
else changes. That the unit is settled then, in whatever state it was, and the other units' ages stay, is the model's
choice (log 4). -/
def Obligations.EncodeEmitsParityAndData : Prop :=
  ∀ (s : State) (n : Nat), n ≤ 15 →
    ∃ cw : Codeword,
      let t := { s with
        encoderIn := Port.driven (BitVec.ofNat 4 n), encoderSettle := .settled, hostRead := .codeword cw }
      exec (.encode (.value n)) s = .next t ∧ encoderOut t = .ok cw ∧
      cw.getLsbD 0 = (n.testBit 3 ^^ n.testBit 2 ^^ n.testBit 0) ∧
      cw.getLsbD 1 = (n.testBit 3 ^^ n.testBit 1 ^^ n.testBit 0) ∧
      cw.getLsbD 2 = n.testBit 3 ∧
      cw.getLsbD 3 = (n.testBit 2 ^^ n.testBit 1 ^^ n.testBit 0) ∧
      cw.getLsbD 4 = n.testBit 2 ∧ cw.getLsbD 5 = n.testBit 1 ∧ cw.getLsbD 6 = n.testBit 0

/-- R59: the nibble's bits stand unchanged at positions 3, 5, 6, 7, and two distinct outputs of the encoder
differ in at least 3 positions, some in exactly 3, so the 16 outputs are distinct. -/
def Obligations.EncodeIsSystematicWithDistanceThree : Prop :=
  (∀ n : Nibble, bitAt (hammingEncode n) 3 = n.getLsbD 3 ∧ bitAt (hammingEncode n) 5 = n.getLsbD 2 ∧
    bitAt (hammingEncode n) 6 = n.getLsbD 1 ∧ bitAt (hammingEncode n) 7 = n.getLsbD 0) ∧
  (∀ a b : Nibble, a ≠ b → hammingEncode a ≠ hammingEncode b ∧ 3 ≤ distance (hammingEncode a) (hammingEncode b)) ∧
  (∃ a b : Nibble, distance (hammingEncode a) (hammingEncode b) = 3)

/-- R70: ENCODE is linear, `ENCODE(a XOR b) = ENCODE(a) XOR ENCODE(b)`. -/
def Obligations.EncodeIsLinear : Prop :=
  ∀ a b : Nibble, hammingEncode (a ^^^ b) = hammingEncode a ^^^ hammingEncode b

/-! ## DECODE and DECODE_RAW -/

/-- R60 to R64: DECODE of `[b1..b7]` completes; the port holds bP at cw[P-1] (R39); the syndrome bits are
s1 = b1⊕b3⊕b5⊕b7, s2 = b2⊕b3⊕b6⊕b7, s3 = b4⊕b5⊕b6⊕b7, the port's value is pos = s1 + 2·s2 + 4·s3, and d is
`{b3, b5, b6, b7}` of the working copy, the word with the bit at position pos inverted where pos is not 0, which is
d_raw ⊕ M(pos); both outputs as read and on the ports; nothing else changes. That the unit is settled then, in
whatever state it was, and the other units' ages stay, is the model's choice (log 4). -/
def Obligations.DecodeCorrectsAtTheSyndromePosition : Prop :=
  ∀ (s : State) (b1 b2 b3 b4 b5 b6 b7 : Bool),
    ∃ (cw : Codeword) (d : Nibble) (y : Syndrome),
      let t := { s with
        decoderIn := Port.driven cw, decoderSettle := .settled, hostRead := .decoded d y }
      exec (.decode ([b1, b2, b3, b4, b5, b6, b7].map bitSignal)) s = .next t ∧
      (∃ r, decoderOut t = .ok ⟨d, y, r⟩ ∧
        d = r ^^^ (match y.toNat with | 3 => 0x8#4 | 5 => 0x4#4 | 6 => 0x2#4 | 7 => 0x1#4 | _ => 0x0#4)) ∧
      (cw.getLsbD 0 = b1 ∧ cw.getLsbD 1 = b2 ∧ cw.getLsbD 2 = b3 ∧ cw.getLsbD 3 = b4 ∧ cw.getLsbD 4 = b5 ∧
        cw.getLsbD 5 = b6 ∧ cw.getLsbD 6 = b7) ∧
      (y.getLsbD 0 = (b1 ^^ b3 ^^ b5 ^^ b7) ∧ y.getLsbD 1 = (b2 ^^ b3 ^^ b6 ^^ b7) ∧
        y.getLsbD 2 = (b4 ^^ b5 ^^ b6 ^^ b7)) ∧
      y.toNat = (b1 ^^ b3 ^^ b5 ^^ b7).toNat + 2 * (b2 ^^ b3 ^^ b6 ^^ b7).toNat +
        4 * (b4 ^^ b5 ^^ b6 ^^ b7).toNat ∧
      ∃ w : Codeword,
        (∀ P, 1 ≤ P → P ≤ 7 → w.getLsbD (P - 1) = (cw.getLsbD (P - 1) ^^ decide (P = y.toNat))) ∧
        d.getLsbD 3 = w.getLsbD 2 ∧ d.getLsbD 2 = w.getLsbD 4 ∧ d.getLsbD 1 = w.getLsbD 5 ∧
        d.getLsbD 0 = w.getLsbD 6

/-- R65: DECODE_RAW of `[b1..b7]` completes with d_raw = `{b3, b5, b6, b7}`, as read and on the port, and
changes nothing else; it equals DECODE's d exactly when the syndrome is 0, 1, 2 or 4. That the unit is settled then,
in whatever state it was, and the other units' ages stay, is the model's choice (log 4). -/
def Obligations.DecodeRawTakesTheDataBits : Prop :=
  ∀ (s : State) (b1 b2 b3 b4 b5 b6 b7 : Bool),
    ∃ (cw : Codeword) (d r : Nibble) (y : Syndrome),
      let t := { s with decoderIn := Port.driven cw, decoderSettle := .settled, hostRead := .raw r }
      exec (.decodeRaw ([b1, b2, b3, b4, b5, b6, b7].map bitSignal)) s = .next t ∧
      (cw.getLsbD 0 = b1 ∧ cw.getLsbD 1 = b2 ∧ cw.getLsbD 2 = b3 ∧ cw.getLsbD 3 = b4 ∧ cw.getLsbD 4 = b5 ∧
        cw.getLsbD 5 = b6 ∧ cw.getLsbD 6 = b7) ∧
      decoderOut t = .ok ⟨d, y, r⟩ ∧
      (r.getLsbD 3 = b3 ∧ r.getLsbD 2 = b5 ∧ r.getLsbD 1 = b6 ∧ r.getLsbD 0 = b7) ∧
      (r = d ↔ y.toNat = 0 ∨ y.toNat = 1 ∨ y.toNat = 2 ∨ y.toNat = 4)

/-- R61: pos = s1 + 2·s2 + 4·s3, a natural in [0, 7], and it is the XOR of the position numbers of every bit that is 1. -/
def Obligations.SyndromeIsXorOfPositions : Prop :=
  ∀ cw : Codeword, pos cw = (syndromeOf cw).toNat ∧ pos cw ≤ 7 ∧
    pos cw = (s1 cw).toNat + 2 * (s2 cw).toNat + 4 * (s3 cw).toNat ∧
    pos cw = [1, 2, 3, 4, 5, 6, 7].foldl (fun acc P => if bitAt cw P then acc ^^^ P else acc) 0

/-- R88: a sequence of integers that has other than 7 elements, or an element other than 0 and 1, is the fault
`MalformedCodeword` on DECODE and DECODE_RAW, recording the sequence; no 7-bit pattern on the port faults. That the
fault of an operation carries no index (i, k) is the model's choice (log 19). -/
def Obligations.MalformedCodewordIsRefused : Prop :=
  (∀ (s : State) (bits : List Int), (bits.length ≠ 7 ∨ ∃ b ∈ bits, b ≠ 0 ∧ b ≠ 1) →
    exec (.decode (bits.map .value)) s = .fault (.malformedCodeword (bits.map .value) none) ∧
    exec (.decodeRaw (bits.map .value)) s = .fault (.malformedCodeword (bits.map .value) none)) ∧
  (∀ (s : State) (p : Nat), p < 128 →
    ∃ t t', runWord ⟨.decode, p⟩ s = .next t ∧ runWord ⟨.decodeRaw, p⟩ s = .next t')

/-- R67: DECODE of an unmodified codeword gives syndrome 0, flips nothing and gives the nibble encoded, and DECODE of a codeword with
the bit at any one position P inverted gives syndrome P and still that nibble. -/
def Obligations.SingleBitErrorIsCorrected : Prop :=
  ∀ (s : State) (n : Nibble),
    (∃ t, exec (.decode (codewordSignals (hammingEncode n))) s = .next t ∧ t.hostRead = .decoded n 0 ∧
      workingCopy (hammingEncode n) = hammingEncode n) ∧
    ∀ P, 1 ≤ P → P ≤ 7 →
      ∃ t y, exec (.decode (codewordSignals (hammingEncode n ^^^ (1#7 <<< (P - 1))))) s = .next t ∧
        t.hostRead = .decoded n y ∧ y.toNat = P

/-- R68: DECODE gives syndrome 0 exactly for the outputs of ENCODE. -/
def Obligations.ZeroSyndromeExactlyForValidCodewords : Prop :=
  ∀ (s : State) (cw : Codeword),
    ∃ t d y, exec (.decode (codewordSignals cw)) s = .next t ∧ t.hostRead = .decoded d y ∧
      (y = 0 ↔ ∃ n : Nibble, hammingEncode n = cw)

/-- R69, R91: with two positions inverted DECODE completes, raises nothing, has syndrome i XOR j, not 0, i or j,
and a nibble other than the encoded one, the one of another valid codeword; with three inverted the syndrome is
i XOR j XOR k, the nibble is also wrong, and where the syndrome is 0 it is the nibble of the received word, itself
valid, and otherwise of the valid word that inverting the fourth position named gives; with all seven inverted the
syndrome is 0 and the nibble is the complement. -/
def Obligations.MultiBitErrorsAreSilentlyMiscorrected : Prop :=
  ∀ (s : State) (n : Nibble),
    (∀ i j, 1 ≤ i → i < j → j ≤ 7 →
      ∃ t d y, exec (.decode (codewordSignals (flipAll (hammingEncode n) [i, j]))) s = .next t ∧
        t.hostRead = .decoded d y ∧ y.toNat = i ^^^ j ∧ y.toNat ≠ 0 ∧ y.toNat ≠ i ∧ y.toNat ≠ j ∧ d ≠ n ∧
        flipAt (flipAll (hammingEncode n) [i, j]) y.toNat = hammingEncode d) ∧
    (∀ i j k, 1 ≤ i → i < j → j < k → k ≤ 7 →
      ∃ t d y, exec (.decode (codewordSignals (flipAll (hammingEncode n) [i, j, k]))) s = .next t ∧
        t.hostRead = .decoded d y ∧ d ≠ n ∧ y.toNat = i ^^^ j ^^^ k ∧
        y.toNat ≠ i ∧ y.toNat ≠ j ∧ y.toNat ≠ k ∧
        (y.toNat = 0 → flipAll (hammingEncode n) [i, j, k] = hammingEncode d) ∧
        (y.toNat ≠ 0 → flipAt (flipAll (hammingEncode n) [i, j, k]) y.toNat = hammingEncode d)) ∧
    (∃ t, exec (.decode (codewordSignals (~~~(hammingEncode n)))) s = .next t ∧
      t.hostRead = .decoded (n ^^^ 0xF#4) 0)

/-- R72: DECODE undoes ENCODE, ENCODE undoes DECODE on valid codewords, and for every received word the working
copy is the one valid codeword within distance 1, which is what the decoded nibble encodes to. -/
def Obligations.CodeIsPerfect : Prop :=
  (∀ n : Nibble, hammingDecode (hammingEncode n) = n) ∧
  (∀ c : Codeword, ValidCodeword c → hammingEncode (hammingDecode c) = c) ∧
  (∀ r : Codeword, ValidCodeword (workingCopy r) ∧ distance r (workingCopy r) ≤ 1 ∧
    (∀ v, ValidCodeword v → distance r v ≤ 1 → v = workingCopy r) ∧
    hammingEncode (hammingDecode r) = workingCopy r)

/-! ## Ports and evaluations -/

/-- R29, R71: DECODE and DECODE_RAW of the same codeword are one evaluation of the same unit: they leave the same
port, all three outputs belong to that codeword, and the two states differ in what the host read only. That the unit is
settled then is the model's choice (log 4). -/
def Obligations.DecoderOutputsComeTogether : Prop :=
  ∀ (s : State) (cw : Codeword),
    ∃ t t' o, exec (.decode (codewordSignals cw)) s = .next t ∧
      exec (.decodeRaw (codewordSignals cw)) s = .next t' ∧
      decoderOut t = .ok o ∧ decoderOut t' = .ok o ∧ t.decoderIn = Port.driven cw ∧
      t.hostRead = .decoded o.d o.syndrome ∧ t'.hostRead = .raw o.dRaw ∧
      t' = { t with hostRead := t'.hostRead }

/-- R16: each unit can be evaluated in every state, whatever was evaluated before, and an evaluation of one unit
never changes the output of another. That this holds of an output that has not settled, so that another unit's age
stays, is the model's choice (log 4); so is what no operation changes of the host's: the program's names, the buffers
(R13, R21) and the queue (log 3). -/
def Obligations.EvaluationsAreIndependent : Prop :=
  ∀ (s t : State),
    (∀ i : Instr, i.wf = true → ∃ u, exec i s = .next u) ∧
    (∀ x, exec (.split x) s = .next t →
      joinerOut t = joinerOut s ∧ encoderOut t = encoderOut s ∧ decoderOut t = decoderOut s) ∧
    (∀ a b c d, exec (.join a b c d) s = .next t →
      splitterOut t = splitterOut s ∧ encoderOut t = encoderOut s ∧ decoderOut t = decoderOut s) ∧
    (∀ d, exec (.encode d) s = .next t →
      splitterOut t = splitterOut s ∧ joinerOut t = joinerOut s ∧ decoderOut t = decoderOut s) ∧
    (∀ bits, exec (.decode bits) s = .next t ∨ exec (.decodeRaw bits) s = .next t →
      splitterOut t = splitterOut s ∧ joinerOut t = joinerOut s ∧ encoderOut t = encoderOut s) ∧
    (∀ i, exec i s = .next t → t.names = s.names ∧ t.run = s.run ∧ t.pending = s.pending)

/-- R29: evaluating a unit again on the same input gives the same outputs and leaves the state as it is. That the whole
state stays rests on an operation leaving its unit settled (log 4) and on hostRead (log 13), the model's choices. -/
def Obligations.EvaluatingAgainChangesNothing : Prop :=
  ∀ (i : Instr) (s t : State), exec i s = .next t → exec i t = .next t

/-- R14, R23, R104: once its unit's input is driven and `T_SETTLE` has passed, however long ago, every output port
reads as the unit's function of that input, and reading changes nothing but what the host has read (R29; the field
that holds it is the model's, log 13). -/
def Obligations.OutputPortsFollowTheInputs : Prop :=
  ∀ (s : State),
    (∀ u : SamplePattern, s.splitterIn = Port.driven u → s.splitterSettle.over = true →
      runRead .splitterN0 s = .next (s.setRead (.port .splitterN0 (u.toNat / 4096))) ∧
      runRead .splitterN1 s = .next (s.setRead (.port .splitterN1 (u.toNat / 256 % 16))) ∧
      runRead .splitterN2 s = .next (s.setRead (.port .splitterN2 (u.toNat / 16 % 16))) ∧
      runRead .splitterN3 s = .next (s.setRead (.port .splitterN3 (u.toNat % 16)))) ∧
    (∀ a b c d : Nibble, s.joinerIn = ⟨Port.driven a, Port.driven b, Port.driven c, Port.driven d⟩ →
      s.joinerSettle.over = true →
      runRead .joinerSample s = .next
        (s.setRead (.port .joinerSample (4096 * a.toNat + 256 * b.toNat + 16 * c.toNat + d.toNat)))) ∧
    (∀ d : Nibble, s.encoderIn = Port.driven d → s.encoderSettle.over = true →
      runRead .encoderCw s = .next (s.setRead (.port .encoderCw (hammingEncode d).toNat))) ∧
    (∀ cw : Codeword, s.decoderIn = Port.driven cw → s.decoderSettle.over = true →
      runRead .decoderD s = .next (s.setRead (.port .decoderD (hammingDecode cw).toNat)) ∧
      runRead .decoderSyndrome s = .next (s.setRead (.port .decoderSyndrome (pos cw))) ∧
      runRead .decoderDRaw s = .next (s.setRead (.port .decoderDRaw (dataBits cw).toNat)))

/-- R90: an operation with an operand that has no value (undriven, X or Z) is the fault `UndrivenInput`, naming the
unit and port: SPLIT, ENCODE, each slot of JOIN whose earlier slots fit (R94), and DECODE and DECODE_RAW with any
element without a value. That this fault comes before `MalformedCodeword` where the sequence is malformed besides is the
model's reading of R94 (log 23). -/
def Obligations.UndrivenOperandFaults : Prop :=
  ∀ (s : State) (z : Signal), z = .undriven ∨ z = .unknown ∨ z = .highZ →
    exec (.split z) s = .fault (.undrivenInput .splitter .splitterSample) ∧
    exec (.encode z) s = .fault (.undrivenInput .encoder .encoderD) ∧
    (∀ a b c : Nat, a ≤ 15 → b ≤ 15 → c ≤ 15 → ∀ x y w : Signal,
      exec (.join z x y w) s = .fault (.undrivenInput .joiner .joinerN0) ∧
      exec (.join (.value a) z y w) s = .fault (.undrivenInput .joiner .joinerN1) ∧
      exec (.join (.value a) (.value b) z w) s = .fault (.undrivenInput .joiner .joinerN2) ∧
      exec (.join (.value a) (.value b) (.value c) z) s = .fault (.undrivenInput .joiner .joinerN3)) ∧
    (∀ bits : List Signal, z ∈ bits →
      exec (.decode bits) s = .fault (.undrivenInput .decoder .decoderCw) ∧
      exec (.decodeRaw bits) s = .fault (.undrivenInput .decoder .decoderCw))

/-- R90: reading any output of a unit whose input port has no value on some bit is the fault `UndrivenInput`; the
joiner's is so when any of its four ports is. -/
def Obligations.ReadingWithoutAnInputValueFaults : Prop :=
  ∀ (s : State) (q : OutPort),
    (q.unit = .splitter → s.splitterIn.known ≠ BitVec.allOnes 16 →
      runRead q s = .fault (.undrivenInput .splitter .splitterSample)) ∧
    (q.unit = .joiner → s.joinerIn.s0.known ≠ BitVec.allOnes 4 ∨ s.joinerIn.s1.known ≠ BitVec.allOnes 4 ∨
        s.joinerIn.s2.known ≠ BitVec.allOnes 4 ∨ s.joinerIn.s3.known ≠ BitVec.allOnes 4 →
      ∃ p, p.unit = .joiner ∧ runRead q s = .fault (.undrivenInput .joiner p)) ∧
    (q.unit = .encoder → s.encoderIn.known ≠ BitVec.allOnes 4 →
      runRead q s = .fault (.undrivenInput .encoder .encoderD)) ∧
    (q.unit = .decoder → s.decoderIn.known ≠ BitVec.allOnes 7 →
      runRead q s = .fault (.undrivenInput .decoder .decoderCw))

/-- R104: after a change of a unit's input, reading any of its outputs before `T_SETTLE` has passed is the fault
`UndrivenInput` of that unit, and reading it from then on gives the unit's function of the new input: the splitter, the
joiner with any one input changed, the encoder and the decoder with all three outputs, for every value of the open
parameter (log 4). -/
def Obligations.ReadingBeforeSettlingFaults : Prop :=
  ∀ (s : State),
    (∀ u : SamplePattern, s.splitterIn ≠ Port.driven u →
      ∃ t, runDrive (.splitter (.value (signed16 u))) s = .next t ∧ t.splitterIn = Port.driven u ∧
        t.ReadsOnceSettled .splitter
          [(.splitterN0, u.toNat / 4096), (.splitterN1, u.toNat / 256 % 16), (.splitterN2, u.toNat / 16 % 16),
            (.splitterN3, u.toNat % 16)]) ∧
    (∀ (q : Quad Nibble) (d : Drive), s.joinerIn ≠ q.map Port.driven →
      ((d = .joiner0 (.value q.s0.toNat) ∧ { s.joinerIn with s0 := Port.driven q.s0 } = q.map Port.driven) ∨
        (d = .joiner1 (.value q.s1.toNat) ∧ { s.joinerIn with s1 := Port.driven q.s1 } = q.map Port.driven) ∨
        (d = .joiner2 (.value q.s2.toNat) ∧ { s.joinerIn with s2 := Port.driven q.s2 } = q.map Port.driven) ∨
        (d = .joiner3 (.value q.s3.toNat) ∧ { s.joinerIn with s3 := Port.driven q.s3 } = q.map Port.driven)) →
      ∃ t, runDrive d s = .next t ∧ t.joinerIn = q.map Port.driven ∧
        t.ReadsOnceSettled .joiner
          [(.joinerSample, 4096 * q.s0.toNat + 256 * q.s1.toNat + 16 * q.s2.toNat + q.s3.toNat)]) ∧
    (∀ n : Nibble, s.encoderIn ≠ Port.driven n →
      ∃ t, runDrive (.encoder (.value n.toNat)) s = .next t ∧ t.encoderIn = Port.driven n ∧
        t.ReadsOnceSettled .encoder [(.encoderCw, (hammingEncode n).toNat)]) ∧
    (∀ cw : Codeword, s.decoderIn ≠ Port.driven cw →
      ∃ t, runDrive (.decoder (codewordSignals cw)) s = .next t ∧ t.decoderIn = Port.driven cw ∧
        t.ReadsOnceSettled .decoder
          [(.decoderD, (hammingDecode cw).toNat), (.decoderSyndrome, pos cw), (.decoderDRaw, (dataBits cw).toNat)])

/-- R13, R14, R28: driving an input port with a value it can hold sets that port and keeps every other, the joiner's
other three included, and a value it cannot hold is the boundary's fault of R87 to R89. That the boundary stands where
the port is driven is the model's reading (log 17), and for a sequence log 23; that a drive which changes nothing
starts no new settling time is its choice (log 4), and so is that the fault carries no index, and ENCODE's no slot
(log 19). -/
def Obligations.DrivingSetsOnePortOrIsRefused : Prop :=
  ∀ (s : State),
    (∀ u : SamplePattern, runDrive (.splitter (.value (signed16 u))) s = .next
      { s with
        splitterIn := Port.driven u
        splitterSettle := if s.splitterIn = Port.driven u then s.splitterSettle else .since 0 }) ∧
    (∀ (n : Nibble) (d : Drive) (q : Quad (Port 4)),
      ((d = .joiner0 (.value n.toNat) ∧ q = { s.joinerIn with s0 := Port.driven n }) ∨
        (d = .joiner1 (.value n.toNat) ∧ q = { s.joinerIn with s1 := Port.driven n }) ∨
        (d = .joiner2 (.value n.toNat) ∧ q = { s.joinerIn with s2 := Port.driven n }) ∨
        (d = .joiner3 (.value n.toNat) ∧ q = { s.joinerIn with s3 := Port.driven n })) →
      runDrive d s = .next
        { s with joinerIn := q, joinerSettle := if s.joinerIn = q then s.joinerSettle else .since 0 }) ∧
    (∀ n : Nibble, runDrive (.encoder (.value n.toNat)) s = .next
      { s with
        encoderIn := Port.driven n
        encoderSettle := if s.encoderIn = Port.driven n then s.encoderSettle else .since 0 }) ∧
    (∀ cw : Codeword, runDrive (.decoder (codewordSignals cw)) s = .next
      { s with
        decoderIn := Port.driven cw
        decoderSettle := if s.decoderIn = Port.driven cw then s.decoderSettle else .since 0 }) ∧
    (∀ x : Int, x < -32768 ∨ 32767 < x →
      runDrive (.splitter (.value x)) s = .fault (.outOfRangeSample (.integer x) none)) ∧
    (∀ n : Int, n < 0 ∨ 15 < n →
      runDrive (.joiner0 (.value n)) s = .fault (.outOfRangeNibble n (some 0)) ∧
      runDrive (.joiner1 (.value n)) s = .fault (.outOfRangeNibble n (some 1)) ∧
      runDrive (.joiner2 (.value n)) s = .fault (.outOfRangeNibble n (some 2)) ∧
      runDrive (.joiner3 (.value n)) s = .fault (.outOfRangeNibble n (some 3)) ∧
      runDrive (.encoder (.value n)) s = .fault (.outOfRangeNibble n none)) ∧
    (∀ bits : List Int, (bits.length ≠ 7 ∨ ∃ b ∈ bits, b ≠ 0 ∧ b ≠ 1) →
      runDrive (.decoder (bits.map .value)) s = .fault (.malformedCodeword (bits.map .value) none))

/-- R90: driving a port with a place without a value (undriven, X or Z) is no fault: it leaves that port without a
value, the codeword port on that bit alone, and keeps every other port and the rest of the state; and every output of
the unit then is the fault `UndrivenInput` when read. So for the splitter, each input of the joiner, the encoder, and
the decoder with such a place anywhere among seven elements that are otherwise 0 or 1. No sequence with such a place
leaves every bit of the port known, and one that is malformed besides (R88) is refused where it is driven, as
`UndrivenInput` by R94's order. Logs 17 and 23 are the model's readings; that a drive which changes nothing starts no
new settling time (log 4) and that the three ways of having no value leave one state (log 12) are its choices. -/
def Obligations.DrivingWithoutAValueMakesReadingFault : Prop :=
  ∀ (s : State) (z : Signal), z = .undriven ∨ z = .unknown ∨ z = .highZ →
    (∃ t, runDrive (.splitter z) s = .next t ∧
      t = { s with
        splitterIn := Port.undriven 16
        splitterSettle := if s.splitterIn = Port.undriven 16 then s.splitterSettle else .since 0 } ∧
      ∀ q, q.unit = .splitter → runRead q t = .fault (.undrivenInput .splitter .splitterSample)) ∧
    (∀ (d : Drive) (p : Quad (Port 4)),
      ((d = .joiner0 z ∧ p = { s.joinerIn with s0 := Port.undriven 4 }) ∨
        (d = .joiner1 z ∧ p = { s.joinerIn with s1 := Port.undriven 4 }) ∨
        (d = .joiner2 z ∧ p = { s.joinerIn with s2 := Port.undriven 4 }) ∨
        (d = .joiner3 z ∧ p = { s.joinerIn with s3 := Port.undriven 4 })) →
      ∃ t, runDrive d s = .next t ∧
        t = { s with joinerIn := p, joinerSettle := if s.joinerIn = p then s.joinerSettle else .since 0 } ∧
        ∃ port : InPort, port.unit = .joiner ∧ runRead .joinerSample t = .fault (.undrivenInput .joiner port)) ∧
    (∃ t, runDrive (.encoder z) s = .next t ∧
      t = { s with
        encoderIn := Port.undriven 4
        encoderSettle := if s.encoderIn = Port.undriven 4 then s.encoderSettle else .since 0 } ∧
      runRead .encoderCw t = .fault (.undrivenInput .encoder .encoderD)) ∧
    (∀ bits : List Signal, z ∈ bits →
      (bits.length = 7 → (∀ e ∈ bits, ∀ n, e = .value n → n = 0 ∨ n = 1) →
        ∃ p : Port 7,
          (∀ i e, bits[i]? = some e →
            p.known.getLsbD i = !hasNoValue e ∧ p.value.getLsbD i = decide (e = .value 1)) ∧
          runDrive (.decoder bits) s = .next
            { s with
              decoderIn := p
              decoderSettle := if s.decoderIn = p then s.decoderSettle else .since 0 }) ∧
      (∀ t, runDrive (.decoder bits) s = .next t → t.decoderIn.known ≠ BitVec.allOnes 7 ∧
        ∀ q, q.unit = .decoder → runRead q t = .fault (.undrivenInput .decoder .decoderCw)) ∧
      ((bits.length ≠ 7 ∨ ∃ n, .value n ∈ bits ∧ n ≠ 0 ∧ n ≠ 1) →
        runDrive (.decoder bits) s = .fault (.undrivenInput .decoder .decoderCw)))

/-- R23, R101: nothing has a value after reset: reading any output port then is the fault `UndrivenInput`, of the
unit that drives the port. That no port is driven is the model's reading of R23 (log 5). -/
def Obligations.ResetOutputsHaveNoValue : Prop :=
  ∀ q : OutPort, ∃ p, p.unit = q.unit ∧
    step { State.reset with pending := [.read q] } = .fault (.undrivenInput q.unit p)

/-- R13, R29, R73: commands that drive no port leave every input port as it is: reading, waiting, CORRUPT, all of the
pipeline, and the statements LET and FLIP of R48, which change nothing but the program's names; no other of these
commands changes a name. That the pipeline evaluates copies of the units is the model's reading of R100 (log 6). -/
def Obligations.OnlyDrivingChangesInputPorts : Prop :=
  ∀ (s t : State) (c : HostCmd) (rest : List HostCmd), s.pending = c :: rest → step s = .next t →
    ((∀ w, c ≠ .evaluate w) ∧ (∀ i, c ≠ .present i) ∧ (∀ d, c ≠ .drive d) ∧
      (∀ st, c = .stmt st → (∃ x v, st = .letValue x v) ∨ ∃ x k y, st = .flip x k y)) →
    t.splitterIn = s.splitterIn ∧ t.joinerIn = s.joinerIn ∧ t.encoderIn = s.encoderIn ∧
      t.decoderIn = s.decoderIn ∧ t.pending = rest ∧
      ((∀ st, c ≠ .stmt st) → t.names = s.names) ∧
      (∀ st, c = .stmt st → t = { s with names := t.names, pending := rest })

/-! ## The invariant -/

/-- The invariant holds in the state after reset. What that state is are the model's choices: no port driven (log 5)
and the host's data empty, with the default parameters (log 14). -/
def Obligations.ResetSatisfiesTheInvariant : Prop := State.reset.Inv

/-- Every step keeps the invariant: ports and names stay in canonical form, the host's buffers keep the length of
the input (R84), every written element is what R80 to R83 give, the corrupt array is CORRUPT of the clean one, and
every written element of the corrected stream is its input sample (R78). -/
def Obligations.StepKeepsTheInvariant : Prop :=
  ∀ s t : State, s.Inv → step s = .next t → t.Inv

/-- R78, R82, R111: in every state that satisfies the invariant, a run that has ended has as its corrected stream
exactly its input, and as its uncorrected stream the raw decoding of the corrupt array: `signed16` of the JOIN of the
bits at positions 3, 5, 6, 7 of the four words, whatever these are. -/
def Obligations.EndedRunReturnsItsInput : Prop :=
  ∀ s : State, s.Inv → s.run.ended = true →
    let r := fun cw : Codeword => 8 * (cw.getLsbD 2).toNat + 4 * (cw.getLsbD 4).toNat +
      2 * (cw.getLsbD 5).toNat + (cw.getLsbD 6).toNat
    s.run.corrected = s.run.samples.map some ∧
    s.run.corrupted = (corrupt s.run.stride s.run.bitIndex (s.run.samples.map encodeGroup)).map fun q =>
      some (signed16 (BitVec.ofNat 16 (4096 * r q.s0 + 256 * r q.s1 + 16 * r q.s2 + r q.s3)))

/-! ## The reference host -/

/-- R76, with the hit indices of R75: CORRUPT inverts the bit at `bit_index` of the slot-0 codeword of every sample
whose index the stride divides, and every other codeword passes through unchanged. -/
def Obligations.CorruptFlipsOneBitOfHitGroups : Prop :=
  ∀ (stride bitIndex : Nat) (groups : List (Quad Codeword)),
    (corrupt stride bitIndex groups).length = groups.length ∧
    ∀ (i : Nat) (q : Quad Codeword), groups[i]? = some q →
      (corrupt stride bitIndex groups)[i]? = some
        (if stride ∣ i then ⟨q.s0 ^^^ (1#7 <<< bitIndex), q.s1, q.s2, q.s3⟩ else q)

/-- R75: with stride s >= 1 the groups CORRUPT changes are those at 0, s, 2s, ... below N, ceil(N / s) of them;
index 0 is one of them whenever N >= 1. -/
def Obligations.CorruptHitsEveryStride : Prop :=
  ∀ (stride bitIndex : Nat) (groups : List (Quad Codeword)), 1 ≤ stride → bitIndex ≤ 6 →
    (∀ i, i < groups.length → ((corrupt stride bitIndex groups)[i]? ≠ groups[i]? ↔ i % stride = 0)) ∧
    ((List.range groups.length).filter fun i =>
      decide ((corrupt stride bitIndex groups)[i]? ≠ groups[i]?)).length =
        (groups.length + stride - 1) / stride ∧
    (1 ≤ groups.length → (corrupt stride bitIndex groups)[0]? ≠ groups[0]?)

/-- R77: CORRUPT applied to its own output undoes the flips, `corrupt(corrupt(x, s, k), s, k) = x`. -/
def Obligations.CorruptTwiceRestores : Prop :=
  ∀ (stride bitIndex : Nat) (groups : List (Quad Codeword)),
    corrupt stride bitIndex (corrupt stride bitIndex groups) = groups

/-- R79, R92: with `stride <= 0` or `bit_index` outside 0..6, given or beside a default, a call of CORRUPT and the begin
of a run, on integers or on floats, are the host fault `BadHostParameter`, whatever the codewords, samples and floats
are (R94); with good parameters well-formed codewords give the new sequence and nothing else changes (R74). That the
caller's new sequence stands in hostRead is the model's choice (log 21), and so is which of two bad parameters is named
(log 19). -/
def Obligations.BadHostParameterIsRefused : Prop :=
  (∀ (s : State) (stride bitIndex : Int) (groups : List (Quad (List Signal))),
    (stride ≤ 0 ∨ bitIndex < 0 ∨ 6 < bitIndex) →
    ∃ p v, callCorrupt groups stride bitIndex s = .fault (.badHostParameter p v) ∧
      ((p = .stride ∧ v = stride ∧ stride ≤ 0) ∨ (p = .bitIndex ∧ v = bitIndex ∧ (bitIndex < 0 ∨ 6 < bitIndex)))) ∧
  (∀ (s : State) (stride bitIndex : Option Int) (original floats : List HostFloat) (samples : List Int),
    ((∃ x, stride = some x ∧ x ≤ 0) ∨ ∃ x, bitIndex = some x ∧ (x < 0 ∨ 6 < x)) →
    ∃ p v, beginRun original samples stride bitIndex s = .fault (.badHostParameter p v) ∧
      loadRun floats stride bitIndex s = .fault (.badHostParameter p v) ∧
      ((p = .stride ∧ stride = some v ∧ v ≤ 0) ∨ (p = .bitIndex ∧ bitIndex = some v ∧ (v < 0 ∨ 6 < v)))) ∧
  (∀ (s : State) (stride bitIndex : Nat) (qs : List (Quad Codeword)), 1 ≤ stride → bitIndex ≤ 6 →
    callCorrupt (qs.map fun q => q.map codewordSignals) stride bitIndex s =
      .next { s with hostRead := .corrupted (corrupt stride bitIndex qs) })

/-- The order of faults in one host call (R94, the spec's own choice): with good parameters, given or by default, the
first bad sample, by index, is the one reported, of integers and of floats; and of the codewords of a call of CORRUPT
the first bad one, by sample and then by slot, is reported, as `MalformedCodeword` with its index (i, k) (R88), or as
`UndrivenInput` where some place of it has no value. That those two are CORRUPT's faults, and the unit and port named,
are the model's (log 9); that `UndrivenInput` comes first is its reading of R94 (log 23). -/
def Obligations.FirstBadSampleIsReported : Prop :=
  ∀ (s : State) (stride bitIndex : Option Int), 1 ≤ stride.getD 100 → 0 ≤ bitIndex.getD 6 → bitIndex.getD 6 ≤ 6 →
    (∀ (original : List HostFloat) (good bad : List Int) (x : Int),
      (∀ y ∈ good, -32768 ≤ y ∧ y ≤ 32767) → (x < -32768 ∨ 32767 < x) →
      beginRun original (good ++ x :: bad) stride bitIndex s =
        .fault (.outOfRangeSample (.integer x) (some good.length))) ∧
    (∀ (good bad : List HostFloat) (f : HostFloat),
      (∀ g ∈ good, ∃ q, g = .finite q) → (∀ q, f ≠ .finite q) →
      loadRun (good ++ f :: bad) stride bitIndex s = .fault (.outOfRangeSample (.float f) (some good.length))) ∧
    (∀ (good : List (Quad Codeword)) (c0 c1 c2 : Codeword) (w x y z : List Signal) (bad : List (Quad (List Signal))),
      isCodeword w = false →
      let call := fun g => callCorrupt (good.map (fun q => q.map codewordSignals) ++ g :: bad)
        (stride.getD 100) (bitIndex.getD 6) s
      let first := fun k : Nat => if w.any hasNoValue then Fault.undrivenInput .decoder .decoderCw
        else .malformedCodeword w (some (good.length, k))
      call ⟨w, x, y, z⟩ = .fault (first 0) ∧
      call ⟨codewordSignals c0, w, y, z⟩ = .fault (first 1) ∧
      call ⟨codewordSignals c0, codewordSignals c1, w, z⟩ = .fault (first 2) ∧
      call ⟨codewordSignals c0, codewordSignals c1, codewordSignals c2, w⟩ = .fault (first 3))

/-- R24, R102: a run keeps nothing from an earlier run: beginning it with the same input gives the same buffers
from any two states, whatever runs came before. R78, R94, R103: with good parameters, given or by default, and
Samples, beginning a run completes with empty buffers of the input's length and changes nothing else; so does the step
on that command. That the run then has no input floats is the model's choice (log 21). -/
def Obligations.RunKeepsNothingOfEarlierRuns : Prop :=
  (∀ (s s' t : State) (original : List HostFloat) (samples : List Int) (stride bitIndex : Option Int),
    beginRun original samples stride bitIndex s = .next t →
    ∃ t', beginRun original samples stride bitIndex s' = .next t' ∧ t'.run = t.run ∧
      t'.run.samples = samples ∧ t'.run.cwCorrupt = none ∧
      (∀ y ∈ t'.run.corrupted, y = none) ∧ (∀ y ∈ t'.run.corrected, y = none)) ∧
  ∀ (s : State) (samples : List Int) (stride bitIndex : Option Int),
    1 ≤ stride.getD 100 → 0 ≤ bitIndex.getD 6 → bitIndex.getD 6 ≤ 6 →
    (∀ x ∈ samples, -32768 ≤ x ∧ x ≤ 32767) →
    let fresh := fun original : List HostFloat =>
      { original := original, samples := samples, stride := (stride.getD 100).toNat,
        bitIndex := (bitIndex.getD 6).toNat, cwClean := List.replicate samples.length none,
        cwCorrupt := none, corrupted := List.replicate samples.length none,
        corrected := List.replicate samples.length none, saved := none : Run }
    (∀ original, beginRun original samples stride bitIndex s = .next { s with run := fresh original }) ∧
    (∀ rest, s.pending = .begin samples stride bitIndex :: rest →
      step s = .next { s with run := fresh [], pending := rest })

/-- R67, R80 to R84: for every stride >= 1, every bit_index in 0..6 and every buffer of Samples, of any length,
PROCESS completes and its corrected stream is the input; its uncorrected stream has the same length and equals the
input except at hit samples, where the pattern has the Sample bit inverted that `bit_index` stands for: bit 15, 14, 13,
12 for bit_index 2, 4, 5, 6 (R41, R76, R82), and none for the parity positions 0, 1, 3. -/
def Obligations.ProcessCorrectsEveryRun : Prop :=
  ∀ (stride bitIndex : Nat) (samples : List Int), 1 ≤ stride → bitIndex ≤ 6 →
    (∀ x ∈ samples, -32768 ≤ x ∧ x ≤ 32767) →
    ∃ raw, process stride bitIndex samples = .ok (raw, samples) ∧ raw.length = samples.length ∧
      (∀ i : Nat, i % stride ≠ 0 → raw[i]? = samples[i]?) ∧
      ∀ (i : Nat) (x : Int), i % stride = 0 → samples[i]? = some x →
        ∃ y, raw[i]? = some y ∧ -32768 ≤ y ∧ y ≤ 32767 ∧
          unsigned16 y = unsigned16 x ^^^
            (match bitIndex with
              | 2 => 0x8000#16 | 4 => 0x4000#16 | 5 => 0x2000#16 | 6 => 0x1000#16 | _ => 0x0000#16)

/-- R78: with the defaults, stride 100 and bit_index 6, the uncorrected stream has as many Samples as the input, each
with bit 12 inverted at every hit index and equal to the input's elsewhere; the corrected stream is the input. -/
def Obligations.DefaultCorruptionFlipsBitTwelve : Prop :=
  Config.defaultStride = 100 ∧ Config.defaultBitIndex = 6 ∧
  ∀ samples : List Int, (∀ x ∈ samples, -32768 ≤ x ∧ x ≤ 32767) →
    ∃ raw, process Config.defaultStride Config.defaultBitIndex samples = .ok (raw, samples) ∧
      raw.length = samples.length ∧
      ∀ (i : Nat) (x : Int), samples[i]? = some x →
        ∃ y, raw[i]? = some y ∧ -32768 ≤ y ∧ y ≤ 32767 ∧
          (i % 100 = 0 → unsigned16 y = unsigned16 x ^^^ 0x1000#16) ∧ (i % 100 ≠ 0 → y = x)

/-- R31: the acts on single samples may come in any order: encoding all samples, then CORRUPT, then decoding all
samples into both streams, the two streams interleaved in any way, ends in buffers that hold what PROCESS gives. -/
def Obligations.StepwiseRunInAnyOrderGivesProcess : Prop :=
  ∀ (s : State) (samples raw cor : List Int) (stride bitIndex : Int) (enc : List Nat) (decs : List HostCmd),
    process stride bitIndex samples = .ok (raw, cor) →
    (∀ i, i ∈ enc ↔ i < samples.length) →
    (∀ c, c ∈ decs ↔ ∃ i, i < samples.length ∧ (c = .decodeRawSample i ∨ c = .decodeSample i)) →
    let cmds := [HostCmd.begin samples (some stride) (some bitIndex)] ++ enc.map .encodeSample ++
      [.corruptAll] ++ decs
    ∃ t, runSteps cmds.length { s with pending := cmds } = .next t ∧ t.run.samples = samples ∧
      t.run.corrupted = raw.map some ∧ t.run.corrected = cor.map some ∧ t.run.ended = true ∧ t.pending = []

/-- R31: decoding sample i and decoding sample j, in either stream, commute. R31 gives this of the buffers; that it
holds of the whole state, ports included, rests on the model's choice that the pipeline evaluates copies (log 6). -/
def Obligations.DecodingSamplesCommutes : Prop :=
  ∀ (s : State) (qs : List (Quad Codeword)) (i j : Nat), s.run.cwCorrupt = some qs →
    i < qs.length → j < qs.length →
    (∃ t, andThen (decodeSample i s) (decodeSample j) = .next t) ∧
    andThen (decodeSample i s) (decodeSample j) = andThen (decodeSample j s) (decodeSample i) ∧
    andThen (decodeRawSample i s) (decodeSample j) = andThen (decodeSample j s) (decodeRawSample i) ∧
    andThen (decodeRawSample i s) (decodeRawSample j) = andThen (decodeRawSample j s) (decodeRawSample i)

/-- R34, R106, R107: CORRUPT waits for the whole clean array and starts from it alone, no decode runs before
CORRUPT, and no decode changes the clean or the corrupt array. The refusals by name are the model's (log 7), and so is
that CORRUPT leaves the ports as they are (log 6). -/
def Obligations.CorruptionComesBeforeDecoding : Prop :=
  ∀ (s : State) (i : Nat),
    (s.run.cwCorrupt = none →
      decodeSample i s = .refused .corruptNotComplete ∧ decodeRawSample i s = .refused .corruptNotComplete) ∧
    (none ∈ s.run.cwClean → corruptRun s = .refused .cleanNotComplete) ∧
    (∀ qs, s.run.cwClean = qs.map some →
      corruptRun s = .next (s.setRun
        { s.run with cwCorrupt := some (corrupt s.run.stride s.run.bitIndex qs) })) ∧
    (∀ t, decodeSample i s = .next t ∨ decodeRawSample i s = .next t →
      t.run.cwClean = s.run.cwClean ∧ t.run.cwCorrupt = s.run.cwCorrupt)

/-- R85: the entry adapter gives each finite float x a Sample nearest to x·32767 clipped to [-32768, 32767], for
either way of taking ties (log 10); for x in [-1, 1] it is in [-32767, 32767]; a float with no finite value is
refused. That x is an exact rational and the product exact is the model's choice (logs 11 and 18). -/
def Obligations.EntryAdapterRoundsTheClippedProduct : Prop :=
  (∀ (i : Nat) (x : Rat), ∃ y : Int, entrySample i (.finite x) = .ok y ∧
    -32768 ≤ y ∧ y ≤ 32767 ∧
    |(y : Rat) - max (-32768) (min (x * 32767) 32767)| ≤ 1 / 2 ∧
    (-1 ≤ x → x ≤ 1 → -32767 ≤ y ∧ y ≤ 32767)) ∧
  (∀ (i : Nat) (f : HostFloat), f = .posInf ∨ f = .negInf ∨ f = .nan →
    entrySample i f = .error (.outOfRangeSample (.float f) (some i)))

/-- R86, R32: an ended run hands over its input floats unchanged, and both streams with each Sample divided by
32767, as a float: 0, 1 and -1 exactly, and no quotient farther off than the open precision of the host's format
(log 11). That what was handed over stands in `saved` is the model's choice (log 21), and so is the refusal by name of
a run that has not ended (log 7); so is that a save before any run completes, with three empty outputs (log 14). -/
def Obligations.SaveHandsOverThreeOutputs : Prop :=
  ∀ (s : State),
    (∀ e c : List Int, s.run.corrupted = e.map some → s.run.corrected = c.map some →
      saveRun s = .next (s.setRun
        { s.run with
          saved := some
            { original := s.run.original
              error := e.map exitFloat
              corrected := c.map exitFloat } })) ∧
    (∀ x : Int, ∃ q : Rat, exitFloat x = .finite q ∧
      |q - (x : Rat) / 32767| ≤ |(x : Rat) / 32767| / 2 ^ Config.floatPrecision ∧
      (x = 0 → q = 0) ∧ (x = 32767 → q = 1) ∧ (x = -32767 → q = -1)) ∧
    (s.run.ended = false → s.run.corrupted.length = s.run.samples.length →
      s.run.corrected.length = s.run.samples.length → saveRun s = .refused .runNotEnded)

/-- R85, R103: a run begun on finite floats has them as its input, one Sample for each at the index of its float,
nearest to the clipped product, and empty buffers of their length; nothing else changes. That the product is exact and
a float a rational is the model's choice (logs 11 and 18). -/
def Obligations.LoadBeginsARunOnRoundedSamples : Prop :=
  ∀ (s : State) (floats : List HostFloat) (stride bitIndex : Option Int),
    1 ≤ stride.getD 100 → 0 ≤ bitIndex.getD 6 → bitIndex.getD 6 ≤ 6 → (∀ f ∈ floats, ∃ q, f = .finite q) →
    ∃ xs : List Int, xs.length = floats.length ∧
      (∀ (i : Nat) (x : Rat), floats[i]? = some (.finite x) →
        ∃ y, xs[i]? = some y ∧ -32768 ≤ y ∧ y ≤ 32767 ∧
          |(y : Rat) - max (-32768) (min (x * 32767) 32767)| ≤ 1 / 2) ∧
      loadRun floats stride bitIndex s = .next
        { s with
          run :=
            { original := floats, samples := xs, stride := (stride.getD 100).toNat,
              bitIndex := (bitIndex.getD 6).toNat, cwClean := List.replicate floats.length none,
              cwCorrupt := none, corrupted := List.replicate floats.length none,
              corrected := List.replicate floats.length none, saved := none } }

/-- R80: encoding sample i of a run writes `cw_clean[i][k] = ENCODE(SPLIT(unsigned16(samples[i])).n_k)` for the four
slots k, and changes nothing else. That an index not below N is refused by name is the model's choice (log 7), and so
is that the splitter's and encoder's ports stay as they are, the pipeline evaluating copies (log 6). -/
def Obligations.EncodeSampleWritesItsGroup : Prop :=
  ∀ (s : State) (i : Nat),
    (∀ x : Int, s.run.samples[i]? = some x →
      let u := unsigned16 x
      encodeSample i s = .next
        { s with
          run :=
            { s.run with
              cwClean := s.run.cwClean.set i (some
                ⟨hammingEncode (u.extractLsb' 12 4), hammingEncode (u.extractLsb' 8 4),
                  hammingEncode (u.extractLsb' 4 4), hammingEncode (u.extractLsb' 0 4)⟩) } }) ∧
    (s.run.samples.length ≤ i → encodeSample i s = .refused (.noSuchSample i))

/-! ## Programs -/

/-- R48, R49, R51, R57, R58: LET names its literal, SPLIT the four nibbles of a name that holds a Sample, JOIN the
Sample of four names that hold nibbles, ENC the codeword of a name that holds a nibble; no other name changes. LET
changes nothing else; each of the others drives its unit's input ports with the values of its names and nothing else
changes. That the unit is settled then (log 4) and that hostRead is what the statement's operation read (log 20) are the
model's choices. A name that holds a value no port can hold is the boundary's fault (R87, R89; no index: log 19). A form
that uses a name not assigned is `UndrivenInput` (R90; log 9), and one that uses a name of the wrong kind is the refusal
`illTyped` (log 8), the model's readings. That LET takes a syndrome (log 20), and a literal that no port can hold
(log 17), are the model's too, and so is which stop is named where a statement has several defects (log 24). -/
def Obligations.StatementsNameWhatTheirUnitGives : Prop :=
  ∀ (s : State), namesWf s.names = true →
    (∀ (x : Name) (v : Value), lookupName x s.names = none →
      ∃ t, runStmt (.letValue x v) s = .next t ∧ t = { s with names := insertName x v s.names } ∧
        lookupName x t.names = some v ∧ ∀ k, k ≠ x → lookupName k t.names = lookupName k s.names) ∧
    (∀ (n : Name) (x : Int) (a b c d : Name), lookupName n s.names = some (.sample x) →
      -32768 ≤ x → x ≤ 32767 → (∀ k ∈ [a, b, c, d], lookupName k s.names = none) → [a, b, c, d].Nodup →
      let u := unsigned16 x
      let q : Quad Nibble := ⟨u.extractLsb' 12 4, u.extractLsb' 8 4, u.extractLsb' 4 4, u.extractLsb' 0 4⟩
      ∃ t, runStmt (.split n a b c d) s = .next t ∧
        t = { s with
          splitterIn := Port.driven u, splitterSettle := .settled, hostRead := .nibbles q
          names := insertName d (.nibble q.s3.toNat) (insertName c (.nibble q.s2.toNat)
            (insertName b (.nibble q.s1.toNat) (insertName a (.nibble q.s0.toNat) s.names))) } ∧
        lookupName a t.names = some (.nibble q.s0.toNat) ∧ lookupName b t.names = some (.nibble q.s1.toNat) ∧
        lookupName c t.names = some (.nibble q.s2.toNat) ∧ lookupName d t.names = some (.nibble q.s3.toNat) ∧
        ∀ k, k ∉ [a, b, c, d] → lookupName k t.names = lookupName k s.names) ∧
    (∀ (a b c d n : Name) (p q r w : Nat), lookupName a s.names = some (.nibble p) →
      lookupName b s.names = some (.nibble q) → lookupName c s.names = some (.nibble r) →
      lookupName d s.names = some (.nibble w) → p ≤ 15 → q ≤ 15 → r ≤ 15 → w ≤ 15 →
      lookupName n s.names = none →
      let u := BitVec.ofNat 16 (4096 * p + 256 * q + 16 * r + w)
      ∃ t, runStmt (.join a b c d n) s = .next t ∧
        t = { s with
          joinerIn := ⟨Port.driven (BitVec.ofNat 4 p), Port.driven (BitVec.ofNat 4 q),
            Port.driven (BitVec.ofNat 4 r), Port.driven (BitVec.ofNat 4 w)⟩
          joinerSettle := .settled, hostRead := .sample u
          names := insertName n (.sample (signed16 u)) s.names } ∧
        lookupName n t.names = some (.sample (signed16 u)) ∧
        ∀ k, k ≠ n → lookupName k t.names = lookupName k s.names) ∧
    (∀ (n c : Name) (p : Nat), lookupName n s.names = some (.nibble p) → p ≤ 15 → lookupName c s.names = none →
      let cw := hammingEncode (BitVec.ofNat 4 p)
      ∃ t, runStmt (.enc n c) s = .next t ∧
        t = { s with
          encoderIn := Port.driven (BitVec.ofNat 4 p), encoderSettle := .settled, hostRead := .codeword cw
          names := insertName c (.codeword (codewordInts cw)) s.names } ∧
        lookupName c t.names = some (.codeword (codewordInts cw)) ∧
        ∀ k, k ≠ c → lookupName k t.names = lookupName k s.names) ∧
    (∀ (n a b c d : Name) (x : Int),
      (lookupName n s.names = some (.sample x) → x < -32768 ∨ 32767 < x →
        runStmt (.split n a b c d) s = .fault (.outOfRangeSample (.integer x) none)) ∧
      (lookupName n s.names = some (.nibble x) → x < 0 ∨ 15 < x →
        runStmt (.enc n c) s = .fault (.outOfRangeNibble x none))) ∧
    (∀ (a b c d n : Name) (p q r w : Int) (f : Fault), lookupName a s.names = some (.nibble p) →
      lookupName b s.names = some (.nibble q) → lookupName c s.names = some (.nibble r) →
      lookupName d s.names = some (.nibble w) →
      exec (.join (.value p) (.value q) (.value r) (.value w)) s = .fault f →
      runStmt (.join a b c d n) s = .fault f) ∧
    (∀ n a b c d : Name,
      (lookupName n s.names = none →
        runStmt (.split n a b c d) s = .fault (.undrivenInput .splitter .splitterSample) ∧
        runStmt (.enc n c) s = .fault (.undrivenInput .encoder .encoderD)) ∧
      (∀ v, lookupName n s.names = some v → (∀ x, v ≠ .sample x) →
        runStmt (.split n a b c d) s = .refused (.illTyped n)) ∧
      (∀ v, lookupName n s.names = some v → (∀ x, v ≠ .nibble x) →
        runStmt (.enc n c) s = .refused (.illTyped n))) ∧
    (∀ a b c d n : Name,
      ((∃ k ∈ [a, b, c, d], lookupName k s.names = none) →
        (∀ k ∈ [a, b, c, d], ∀ v, lookupName k s.names = some v → ∃ p : Nat, v = .nibble p ∧ p ≤ 15) →
        ∃ port : InPort, port.unit = .joiner ∧
          runStmt (.join a b c d n) s = .fault (.undrivenInput .joiner port)) ∧
      ((∃ k ∈ [a, b, c, d], ∃ v, lookupName k s.names = some v ∧ ∀ p, v ≠ .nibble p) →
        ∃ k ∈ [a, b, c, d], (∃ v, lookupName k s.names = some v ∧ ∀ p, v ≠ .nibble p) ∧
          runStmt (.join a b c d n) s = .refused (.illTyped k)))

/-- R48: `DEC c -> n, y, r` on a name that holds a codeword drives the decoder's input port with it and names the
corrected nibble, the syndrome and the raw nibble, all of one evaluation; nothing else changes. That the unit is settled
then (log 4) and that hostRead is what the statement's operation read (log 20) are the model's choices. On a list that is
no codeword it is `MalformedCodeword` (R88; no index: log 19), on a name not assigned `UndrivenInput` (R90; log 9), and on
a name of the wrong kind the refusal `illTyped` (log 8), the model's readings. That these stops come before that of an
output name assigned already is the model's choice (log 24). -/
def Obligations.DecStatementNamesThreeOutputs : Prop :=
  (∀ (s : State) (c n y r : Name),
    (lookupName c s.names = none → runStmt (.dec c n y r) s = .fault (.undrivenInput .decoder .decoderCw)) ∧
    (∀ bits, lookupName c s.names = some (.codeword bits) → (bits.length ≠ 7 ∨ ∃ b ∈ bits, b ≠ 0 ∧ b ≠ 1) →
      runStmt (.dec c n y r) s = .fault (.malformedCodeword (bits.map .value) none)) ∧
    ∀ v, lookupName c s.names = some v → (∀ bits, v ≠ .codeword bits) →
      runStmt (.dec c n y r) s = .refused (.illTyped c)) ∧
  ∀ (s : State) (c n y r : Name) (cw : Codeword), namesWf s.names = true →
    lookupName c s.names = some (.codeword (codewordInts cw)) →
    lookupName n s.names = none → lookupName y s.names = none → lookupName r s.names = none →
    n ≠ y → n ≠ r → y ≠ r →
    ∃ t, runStmt (.dec c n y r) s = .next t ∧
      t = { s with
        decoderIn := Port.driven cw, decoderSettle := .settled
        hostRead := .decoded (hammingDecode cw) (syndromeOf cw)
        names := insertName r (.nibble (dataBits cw).toNat) (insertName y (.syndrome (pos cw))
          (insertName n (.nibble (hammingDecode cw).toNat) s.names)) } ∧
      lookupName n t.names = some (.nibble (hammingDecode cw).toNat) ∧
      lookupName y t.names = some (.syndrome (pos cw)) ∧
      lookupName r t.names = some (.nibble (dataBits cw).toNat) ∧
      ∀ k, k ≠ n → k ≠ y → k ≠ r → lookupName k t.names = lookupName k s.names

/-- R48, R76: `FLIP c, k -> c2` names the codeword with the port bit k inverted, for k in 0..6, and drives no port.
That any other k is `BadHostParameter` is the model's choice (log 22). A list that is no codeword is `MalformedCodeword`
(log 9), with no index (log 19), the model's too. On a name not assigned it is `UndrivenInput`, of
the decoder's port (log 9), and on a name of the wrong kind the refusal `illTyped` (log 8), the model's readings. That
these stops come before that of c2 assigned already is the model's choice (log 24). -/
def Obligations.FlipStatementInvertsOneBit : Prop :=
  (∀ (s : State) (c c2 : Name) (k : Int), 0 ≤ k → k ≤ 6 →
    (lookupName c s.names = none → runStmt (.flip c k c2) s = .fault (.undrivenInput .decoder .decoderCw)) ∧
    (∀ bits, lookupName c s.names = some (.codeword bits) → (bits.length ≠ 7 ∨ ∃ b ∈ bits, b ≠ 0 ∧ b ≠ 1) →
      runStmt (.flip c k c2) s = .fault (.malformedCodeword (bits.map .value) none)) ∧
    ∀ v, lookupName c s.names = some v → (∀ bits, v ≠ .codeword bits) →
      runStmt (.flip c k c2) s = .refused (.illTyped c)) ∧
  ∀ (s : State) (c c2 : Name) (k : Int) (cw : Codeword),
    lookupName c s.names = some (.codeword (codewordInts cw)) → lookupName c2 s.names = none →
    (0 ≤ k → k ≤ 6 →
      runStmt (.flip c k c2) s =
        .next { s with names := insertName c2 (.codeword (codewordInts (cw ^^^ (1#7 <<< k.toNat)))) s.names }) ∧
    (k < 0 ∨ 6 < k → runStmt (.flip c k c2) s = .fault (.badHostParameter .bitIndex k))

/-- R48: a name is assigned once: no statement of any form that assigns a name again, or one name twice, completes,
and every name keeps its value over every statement that completes. That such a LET is the refusal `assignedTwice` is
the model's choice (log 8). -/
def Obligations.NamesAreAssignedOnce : Prop :=
  (∀ (s t : State) (st : Stmt) (k : Name) (w : Value), k ∈ st.outputs → lookupName k s.names = some w →
    runStmt st s ≠ .next t) ∧
  (∀ (s t : State) (st : Stmt), namesWf s.names = true → ¬ st.outputs.Nodup → runStmt st s ≠ .next t) ∧
  (∀ (s : State) (k : Name) (v w : Value), lookupName k s.names = some w →
    runStmt (.letValue k v) s = .refused (.assignedTwice k)) ∧
  (∀ (s t : State) (st : Stmt) (k : Name) (w : Value), namesWf s.names = true →
    runStmt st s = .next t → lookupName k s.names = some w → lookupName k t.names = some w)
end

