-- ==== Sys2Proof/Laws/PerInstr.lean ====
section
/-!
SUPPORT. Statements made per operation. `EncodingFits`: a well-formed operation has a port word, whose pattern
its unit's input port can hold (spec/30_encoding.md R36 to R40, R45).
-/

namespace Sys2Proof.Laws.EncodingFits

/-- A well-formed operation has a port word that its port can hold. -/
def Statement (i : Instr) : Prop :=
  i.wf = true → ∃ w, Sys2Proof.encode i = some w ∧ w.pattern < 2 ^ w.tag.width

theorem sampleOf_isSome {x : Signal} (h : x.isSample = true) : ∃ u, sampleOf x = some u := by
  cases x <;> simp_all [Signal.isSample, Signal.inRange, sampleOf]

theorem nibbleOf_isSome {n : Signal} (h : n.isNibble = true) : ∃ v, nibbleOf n = some v := by
  cases n <;> simp_all [Signal.isNibble, Signal.inRange, nibbleOf]

theorem bitOf_isSome {b : Signal} (h : b.isBit = true) : ∃ v, bitOf b = some v := by
  cases b with
  | value n =>
    simp only [Signal.isBit, Signal.inRange, Bool.and_eq_true, decide_eq_true_eq] at h
    obtain rfl | rfl : n = 0 ∨ n = 1 := by omega
    · exact ⟨false, rfl⟩
    · exact ⟨true, rfl⟩
  | undriven => cases h
  | unknown => cases h
  | highZ => cases h

theorem codewordOf_isSome {bits : List Signal} (h : isCodeword bits = true) : ∃ cw, codewordOf bits = some cw := by
  simp only [isCodeword, Bool.and_eq_true, decide_eq_true_eq, List.all_eq_true] at h
  obtain ⟨hlen, hall⟩ := h
  match bits, hlen with
  | [e1, e2, e3, e4, e5, e6, e7], _ =>
    obtain ⟨b1, h1⟩ := bitOf_isSome (hall e1 (by simp))
    obtain ⟨b2, h2⟩ := bitOf_isSome (hall e2 (by simp))
    obtain ⟨b3, h3⟩ := bitOf_isSome (hall e3 (by simp))
    obtain ⟨b4, h4⟩ := bitOf_isSome (hall e4 (by simp))
    obtain ⟨b5, h5⟩ := bitOf_isSome (hall e5 (by simp))
    obtain ⟨b6, h6⟩ := bitOf_isSome (hall e6 (by simp))
    obtain ⟨b7, h7⟩ := bitOf_isSome (hall e7 (by simp))
    exact ⟨codewordOfBits b1 b2 b3 b4 b5 b6 b7, by simp [codewordOf, h1, h2, h3, h4, h5, h6, h7]⟩

theorem split (x : Signal) : Statement (.split x) := by
  intro h
  obtain ⟨u, hu⟩ := sampleOf_isSome h
  exact ⟨⟨.split, u.toNat⟩, by simp [encode, hu], u.isLt⟩

theorem join (n0 n1 n2 n3 : Signal) : Statement (.join n0 n1 n2 n3) := by
  intro h
  simp only [Instr.wf, Bool.and_eq_true] at h
  obtain ⟨⟨⟨h0, h1⟩, h2⟩, h3⟩ := h
  obtain ⟨a, ha⟩ := nibbleOf_isSome h0
  obtain ⟨b, hb⟩ := nibbleOf_isSome h1
  obtain ⟨c, hc⟩ := nibbleOf_isSome h2
  obtain ⟨d, hd⟩ := nibbleOf_isSome h3
  exact ⟨⟨.join, (concat16 ⟨a, b, c, d⟩).toNat⟩, by simp [Sys2Proof.encode, ha, hb, hc, hd],
    (concat16 ⟨a, b, c, d⟩).isLt⟩

theorem encode (d : Signal) : Statement (.encode d) := by
  intro h
  obtain ⟨n, hn⟩ := nibbleOf_isSome h
  exact ⟨⟨.encode, n.toNat⟩, by simp [Sys2Proof.encode, hn], n.isLt⟩

theorem decode (bits : List Signal) : Statement (.decode bits) := by
  intro h
  obtain ⟨cw, hcw⟩ := codewordOf_isSome h
  exact ⟨⟨.decode, cw.toNat⟩, by simp [Sys2Proof.encode, hcw], cw.isLt⟩

theorem decodeRaw (bits : List Signal) : Statement (.decodeRaw bits) := by
  intro h
  obtain ⟨cw, hcw⟩ := codewordOf_isSome h
  exact ⟨⟨.decodeRaw, cw.toNat⟩, by simp [Sys2Proof.encode, hcw], cw.isLt⟩

end Sys2Proof.Laws.EncodingFits
end

