-- ==== Sys2Proof/Laws/State.lean ====
section
/-!
SUPPORT. What each update of the state does to each field, true by rfl.
-/

namespace Sys2Proof.Machine

variable (s : State)

/-! ## setSplitter -/

@[simp] theorem State.setSplitter_splitterIn (p : Port 16) (t : Settle) : (s.setSplitter p t).splitterIn = p := rfl
@[simp] theorem State.setSplitter_joinerIn (p : Port 16) (t : Settle) : (s.setSplitter p t).joinerIn = s.joinerIn := rfl
@[simp] theorem State.setSplitter_encoderIn (p : Port 16) (t : Settle) : (s.setSplitter p t).encoderIn = s.encoderIn := rfl
@[simp] theorem State.setSplitter_decoderIn (p : Port 16) (t : Settle) : (s.setSplitter p t).decoderIn = s.decoderIn := rfl
@[simp] theorem State.setSplitter_splitterSettle (p : Port 16) (t : Settle) : (s.setSplitter p t).splitterSettle = t := rfl
@[simp] theorem State.setSplitter_joinerSettle (p : Port 16) (t : Settle) : (s.setSplitter p t).joinerSettle = s.joinerSettle := rfl
@[simp] theorem State.setSplitter_encoderSettle (p : Port 16) (t : Settle) : (s.setSplitter p t).encoderSettle = s.encoderSettle := rfl
@[simp] theorem State.setSplitter_decoderSettle (p : Port 16) (t : Settle) : (s.setSplitter p t).decoderSettle = s.decoderSettle := rfl
@[simp] theorem State.setSplitter_hostRead (p : Port 16) (t : Settle) : (s.setSplitter p t).hostRead = s.hostRead := rfl
@[simp] theorem State.setSplitter_names (p : Port 16) (t : Settle) : (s.setSplitter p t).names = s.names := rfl
@[simp] theorem State.setSplitter_run (p : Port 16) (t : Settle) : (s.setSplitter p t).run = s.run := rfl
@[simp] theorem State.setSplitter_pending (p : Port 16) (t : Settle) : (s.setSplitter p t).pending = s.pending := rfl

/-! ## setJoiner -/

@[simp] theorem State.setJoiner_splitterIn (p : Quad (Port 4)) (t : Settle) : (s.setJoiner p t).splitterIn = s.splitterIn := rfl
@[simp] theorem State.setJoiner_joinerIn (p : Quad (Port 4)) (t : Settle) : (s.setJoiner p t).joinerIn = p := rfl
@[simp] theorem State.setJoiner_encoderIn (p : Quad (Port 4)) (t : Settle) : (s.setJoiner p t).encoderIn = s.encoderIn := rfl
@[simp] theorem State.setJoiner_decoderIn (p : Quad (Port 4)) (t : Settle) : (s.setJoiner p t).decoderIn = s.decoderIn := rfl
@[simp] theorem State.setJoiner_splitterSettle (p : Quad (Port 4)) (t : Settle) : (s.setJoiner p t).splitterSettle = s.splitterSettle := rfl
@[simp] theorem State.setJoiner_joinerSettle (p : Quad (Port 4)) (t : Settle) : (s.setJoiner p t).joinerSettle = t := rfl
@[simp] theorem State.setJoiner_encoderSettle (p : Quad (Port 4)) (t : Settle) : (s.setJoiner p t).encoderSettle = s.encoderSettle := rfl
@[simp] theorem State.setJoiner_decoderSettle (p : Quad (Port 4)) (t : Settle) : (s.setJoiner p t).decoderSettle = s.decoderSettle := rfl
@[simp] theorem State.setJoiner_hostRead (p : Quad (Port 4)) (t : Settle) : (s.setJoiner p t).hostRead = s.hostRead := rfl
@[simp] theorem State.setJoiner_names (p : Quad (Port 4)) (t : Settle) : (s.setJoiner p t).names = s.names := rfl
@[simp] theorem State.setJoiner_run (p : Quad (Port 4)) (t : Settle) : (s.setJoiner p t).run = s.run := rfl
@[simp] theorem State.setJoiner_pending (p : Quad (Port 4)) (t : Settle) : (s.setJoiner p t).pending = s.pending := rfl

/-! ## setEncoder -/

@[simp] theorem State.setEncoder_splitterIn (p : Port 4) (t : Settle) : (s.setEncoder p t).splitterIn = s.splitterIn := rfl
@[simp] theorem State.setEncoder_joinerIn (p : Port 4) (t : Settle) : (s.setEncoder p t).joinerIn = s.joinerIn := rfl
@[simp] theorem State.setEncoder_encoderIn (p : Port 4) (t : Settle) : (s.setEncoder p t).encoderIn = p := rfl
@[simp] theorem State.setEncoder_decoderIn (p : Port 4) (t : Settle) : (s.setEncoder p t).decoderIn = s.decoderIn := rfl
@[simp] theorem State.setEncoder_splitterSettle (p : Port 4) (t : Settle) : (s.setEncoder p t).splitterSettle = s.splitterSettle := rfl
@[simp] theorem State.setEncoder_joinerSettle (p : Port 4) (t : Settle) : (s.setEncoder p t).joinerSettle = s.joinerSettle := rfl
@[simp] theorem State.setEncoder_encoderSettle (p : Port 4) (t : Settle) : (s.setEncoder p t).encoderSettle = t := rfl
@[simp] theorem State.setEncoder_decoderSettle (p : Port 4) (t : Settle) : (s.setEncoder p t).decoderSettle = s.decoderSettle := rfl
@[simp] theorem State.setEncoder_hostRead (p : Port 4) (t : Settle) : (s.setEncoder p t).hostRead = s.hostRead := rfl
@[simp] theorem State.setEncoder_names (p : Port 4) (t : Settle) : (s.setEncoder p t).names = s.names := rfl
@[simp] theorem State.setEncoder_run (p : Port 4) (t : Settle) : (s.setEncoder p t).run = s.run := rfl
@[simp] theorem State.setEncoder_pending (p : Port 4) (t : Settle) : (s.setEncoder p t).pending = s.pending := rfl

/-! ## setDecoder -/

@[simp] theorem State.setDecoder_splitterIn (p : Port 7) (t : Settle) : (s.setDecoder p t).splitterIn = s.splitterIn := rfl
@[simp] theorem State.setDecoder_joinerIn (p : Port 7) (t : Settle) : (s.setDecoder p t).joinerIn = s.joinerIn := rfl
@[simp] theorem State.setDecoder_encoderIn (p : Port 7) (t : Settle) : (s.setDecoder p t).encoderIn = s.encoderIn := rfl
@[simp] theorem State.setDecoder_decoderIn (p : Port 7) (t : Settle) : (s.setDecoder p t).decoderIn = p := rfl
@[simp] theorem State.setDecoder_splitterSettle (p : Port 7) (t : Settle) : (s.setDecoder p t).splitterSettle = s.splitterSettle := rfl
@[simp] theorem State.setDecoder_joinerSettle (p : Port 7) (t : Settle) : (s.setDecoder p t).joinerSettle = s.joinerSettle := rfl
@[simp] theorem State.setDecoder_encoderSettle (p : Port 7) (t : Settle) : (s.setDecoder p t).encoderSettle = s.encoderSettle := rfl
@[simp] theorem State.setDecoder_decoderSettle (p : Port 7) (t : Settle) : (s.setDecoder p t).decoderSettle = t := rfl
@[simp] theorem State.setDecoder_hostRead (p : Port 7) (t : Settle) : (s.setDecoder p t).hostRead = s.hostRead := rfl
@[simp] theorem State.setDecoder_names (p : Port 7) (t : Settle) : (s.setDecoder p t).names = s.names := rfl
@[simp] theorem State.setDecoder_run (p : Port 7) (t : Settle) : (s.setDecoder p t).run = s.run := rfl
@[simp] theorem State.setDecoder_pending (p : Port 7) (t : Settle) : (s.setDecoder p t).pending = s.pending := rfl

/-! ## setRead -/

@[simp] theorem State.setRead_splitterIn (r : Readout) : (s.setRead r).splitterIn = s.splitterIn := rfl
@[simp] theorem State.setRead_joinerIn (r : Readout) : (s.setRead r).joinerIn = s.joinerIn := rfl
@[simp] theorem State.setRead_encoderIn (r : Readout) : (s.setRead r).encoderIn = s.encoderIn := rfl
@[simp] theorem State.setRead_decoderIn (r : Readout) : (s.setRead r).decoderIn = s.decoderIn := rfl
@[simp] theorem State.setRead_splitterSettle (r : Readout) : (s.setRead r).splitterSettle = s.splitterSettle := rfl
@[simp] theorem State.setRead_joinerSettle (r : Readout) : (s.setRead r).joinerSettle = s.joinerSettle := rfl
@[simp] theorem State.setRead_encoderSettle (r : Readout) : (s.setRead r).encoderSettle = s.encoderSettle := rfl
@[simp] theorem State.setRead_decoderSettle (r : Readout) : (s.setRead r).decoderSettle = s.decoderSettle := rfl
@[simp] theorem State.setRead_hostRead (r : Readout) : (s.setRead r).hostRead = r := rfl
@[simp] theorem State.setRead_names (r : Readout) : (s.setRead r).names = s.names := rfl
@[simp] theorem State.setRead_run (r : Readout) : (s.setRead r).run = s.run := rfl
@[simp] theorem State.setRead_pending (r : Readout) : (s.setRead r).pending = s.pending := rfl

/-! ## setNames -/

@[simp] theorem State.setNames_splitterIn (n : List (Name × Value)) : (s.setNames n).splitterIn = s.splitterIn := rfl
@[simp] theorem State.setNames_joinerIn (n : List (Name × Value)) : (s.setNames n).joinerIn = s.joinerIn := rfl
@[simp] theorem State.setNames_encoderIn (n : List (Name × Value)) : (s.setNames n).encoderIn = s.encoderIn := rfl
@[simp] theorem State.setNames_decoderIn (n : List (Name × Value)) : (s.setNames n).decoderIn = s.decoderIn := rfl
@[simp] theorem State.setNames_splitterSettle (n : List (Name × Value)) : (s.setNames n).splitterSettle = s.splitterSettle := rfl
@[simp] theorem State.setNames_joinerSettle (n : List (Name × Value)) : (s.setNames n).joinerSettle = s.joinerSettle := rfl
@[simp] theorem State.setNames_encoderSettle (n : List (Name × Value)) : (s.setNames n).encoderSettle = s.encoderSettle := rfl
@[simp] theorem State.setNames_decoderSettle (n : List (Name × Value)) : (s.setNames n).decoderSettle = s.decoderSettle := rfl
@[simp] theorem State.setNames_hostRead (n : List (Name × Value)) : (s.setNames n).hostRead = s.hostRead := rfl
@[simp] theorem State.setNames_names (n : List (Name × Value)) : (s.setNames n).names = n := rfl
@[simp] theorem State.setNames_run (n : List (Name × Value)) : (s.setNames n).run = s.run := rfl
@[simp] theorem State.setNames_pending (n : List (Name × Value)) : (s.setNames n).pending = s.pending := rfl

/-! ## setRun -/

@[simp] theorem State.setRun_splitterIn (r : Run) : (s.setRun r).splitterIn = s.splitterIn := rfl
@[simp] theorem State.setRun_joinerIn (r : Run) : (s.setRun r).joinerIn = s.joinerIn := rfl
@[simp] theorem State.setRun_encoderIn (r : Run) : (s.setRun r).encoderIn = s.encoderIn := rfl
@[simp] theorem State.setRun_decoderIn (r : Run) : (s.setRun r).decoderIn = s.decoderIn := rfl
@[simp] theorem State.setRun_splitterSettle (r : Run) : (s.setRun r).splitterSettle = s.splitterSettle := rfl
@[simp] theorem State.setRun_joinerSettle (r : Run) : (s.setRun r).joinerSettle = s.joinerSettle := rfl
@[simp] theorem State.setRun_encoderSettle (r : Run) : (s.setRun r).encoderSettle = s.encoderSettle := rfl
@[simp] theorem State.setRun_decoderSettle (r : Run) : (s.setRun r).decoderSettle = s.decoderSettle := rfl
@[simp] theorem State.setRun_hostRead (r : Run) : (s.setRun r).hostRead = s.hostRead := rfl
@[simp] theorem State.setRun_names (r : Run) : (s.setRun r).names = s.names := rfl
@[simp] theorem State.setRun_run (r : Run) : (s.setRun r).run = r := rfl
@[simp] theorem State.setRun_pending (r : Run) : (s.setRun r).pending = s.pending := rfl

/-! ## setPending -/

@[simp] theorem State.setPending_splitterIn (c : List HostCmd) : (s.setPending c).splitterIn = s.splitterIn := rfl
@[simp] theorem State.setPending_joinerIn (c : List HostCmd) : (s.setPending c).joinerIn = s.joinerIn := rfl
@[simp] theorem State.setPending_encoderIn (c : List HostCmd) : (s.setPending c).encoderIn = s.encoderIn := rfl
@[simp] theorem State.setPending_decoderIn (c : List HostCmd) : (s.setPending c).decoderIn = s.decoderIn := rfl
@[simp] theorem State.setPending_splitterSettle (c : List HostCmd) : (s.setPending c).splitterSettle = s.splitterSettle := rfl
@[simp] theorem State.setPending_joinerSettle (c : List HostCmd) : (s.setPending c).joinerSettle = s.joinerSettle := rfl
@[simp] theorem State.setPending_encoderSettle (c : List HostCmd) : (s.setPending c).encoderSettle = s.encoderSettle := rfl
@[simp] theorem State.setPending_decoderSettle (c : List HostCmd) : (s.setPending c).decoderSettle = s.decoderSettle := rfl
@[simp] theorem State.setPending_hostRead (c : List HostCmd) : (s.setPending c).hostRead = s.hostRead := rfl
@[simp] theorem State.setPending_names (c : List HostCmd) : (s.setPending c).names = s.names := rfl
@[simp] theorem State.setPending_run (c : List HostCmd) : (s.setPending c).run = s.run := rfl
@[simp] theorem State.setPending_pending (c : List HostCmd) : (s.setPending c).pending = c := rfl

/-! ## passTime -/

@[simp] theorem State.passTime_splitterIn (t : Nat) : (s.passTime t).splitterIn = s.splitterIn := rfl
@[simp] theorem State.passTime_joinerIn (t : Nat) : (s.passTime t).joinerIn = s.joinerIn := rfl
@[simp] theorem State.passTime_encoderIn (t : Nat) : (s.passTime t).encoderIn = s.encoderIn := rfl
@[simp] theorem State.passTime_decoderIn (t : Nat) : (s.passTime t).decoderIn = s.decoderIn := rfl
@[simp] theorem State.passTime_splitterSettle (t : Nat) : (s.passTime t).splitterSettle = s.splitterSettle.later t := rfl
@[simp] theorem State.passTime_joinerSettle (t : Nat) : (s.passTime t).joinerSettle = s.joinerSettle.later t := rfl
@[simp] theorem State.passTime_encoderSettle (t : Nat) : (s.passTime t).encoderSettle = s.encoderSettle.later t := rfl
@[simp] theorem State.passTime_decoderSettle (t : Nat) : (s.passTime t).decoderSettle = s.decoderSettle.later t := rfl
@[simp] theorem State.passTime_hostRead (t : Nat) : (s.passTime t).hostRead = s.hostRead := rfl
@[simp] theorem State.passTime_names (t : Nat) : (s.passTime t).names = s.names := rfl
@[simp] theorem State.passTime_run (t : Nat) : (s.passTime t).run = s.run := rfl
@[simp] theorem State.passTime_pending (t : Nat) : (s.passTime t).pending = s.pending := rfl

end Sys2Proof.Machine
end

