-- ==== Sys2Proof/Laws/Boundary.lean ====
section
/-!
SUPPORT. What the boundary, the sequencing operations and the port operations can do: one lemma each.
-/

namespace Sys2Proof.Machine

/-! ## Ports -/

@[simp] theorem Port.read_driven {w : Nat} (v : BitVec w) : (Port.driven v).read = some v := by
  simp [Port.driven, Port.read]

@[simp] theorem Port.canonical_driven {w : Nat} (v : BitVec w) : (Port.driven v).canonical = true := by
  simp [Port.driven, Port.canonical]

@[simp] theorem Port.canonical_undriven (w : Nat) : (Port.undriven w).canonical = true := by
  simp [Port.undriven, Port.canonical]

theorem Port.read_eq_none {w : Nat} {p : Port w} (h : p.known ≠ BitVec.allOnes w) : p.read = none := by
  simp [Port.read, h]

@[simp] theorem Settle.over_settled : Settle.settled.over = true := rfl

@[simp] theorem Settle.over_since (t : Nat) : (Settle.since t).over = decide (Config.tSettle ≤ t) := rfl

/-- An input has a value for its unit's outputs exactly once it has settled with every bit driven (R90, R104). -/
theorem inputValue_eq_ok {w : Nat} {port : InPort} {t : Settle} {p : Port w} {v : BitVec w} :
    inputValue port t p = .ok v ↔ t.over = true ∧ p.read = some v := by
  unfold inputValue
  cases t.over <;> cases p.read <;> simp

theorem inputValue_over {w : Nat} (port : InPort) {t : Settle} (v : BitVec w) (h : t.over = true) :
    inputValue port t (Port.driven v) = .ok v := inputValue_eq_ok.mpr ⟨h, Port.read_driven v⟩

theorem inputValue_early {w : Nat} (port : InPort) {t : Settle} (p : Port w) (h : t.over = false) :
    inputValue port t p = .error (.undrivenInput port.unit port) := by
  simp [inputValue, h]

theorem inputValue_unknown {w : Nat} (port : InPort) (t : Settle) {p : Port w} (h : p.known ≠ BitVec.allOnes w) :
    inputValue port t p = .error (.undrivenInput port.unit port) := by
  simp [inputValue, Port.read_eq_none h]

@[simp] theorem inputValue_driven {w : Nat} (port : InPort) (v : BitVec w) :
    inputValue port .settled (Port.driven v) = .ok v := by
  simp [inputValue]

/-! ## Sequencing -/

@[simp] theorem orRaise_ok {α : Type} (a : α) (k : α → Outcome) : orRaise (.ok a) k = k a := rfl
@[simp] theorem orRaise_error {α : Type} (f : Fault) (k : α → Outcome) : orRaise (.error f) k = .fault f := rfl
@[simp] theorem orRefuse_ok {α : Type} (a : α) (k : α → Outcome) : orRefuse (.ok a) k = k a := rfl
@[simp] theorem orRefuse_error {α : Type} (r : Refusal) (k : α → Outcome) :
    orRefuse (.error r) k = .refused r := rfl
@[simp] theorem andThen_next (s : State) (k : State → Outcome) : andThen (.next s) k = k s := rfl
@[simp] theorem andThen_fault (f : Fault) (k : State → Outcome) : andThen (.fault f) k = .fault f := rfl
@[simp] theorem andThen_refused (r : Refusal) (k : State → Outcome) : andThen (.refused r) k = .refused r := rfl

theorem orRaise_eq_next {α : Type} {x : Except Fault α} {k : α → Outcome} {t : State} :
    orRaise x k = .next t ↔ ∃ a, x = .ok a ∧ k a = .next t := by
  cases x <;> simp

theorem orRefuse_eq_next {α : Type} {x : Except Refusal α} {k : α → Outcome} {t : State} :
    orRefuse x k = .next t ↔ ∃ a, x = .ok a ∧ k a = .next t := by
  cases x <;> simp

theorem andThen_eq_next {o : Outcome} {k : State → Outcome} {t : State} :
    andThen o k = .next t ↔ ∃ u, o = .next u ∧ k u = .next t := by
  cases o <;> simp

/-! ## Operands -/

theorem sampleOf_value {x : Int} (h : -32768 ≤ x) (h' : x ≤ 32767) :
    sampleOf (.value x) = some (unsigned16 x) := by
  simp [sampleOf, Config.sampleMin, Config.sampleMax, h, h']

theorem nibbleOf_value {n : Int} (h : 0 ≤ n) (h' : n ≤ 15) :
    nibbleOf (.value n) = some (BitVec.ofInt 4 n) := by
  simp [nibbleOf, Config.nibbleMax, h, h']

@[simp] theorem nibbleOf_nibbleSignal (n : Nibble) : nibbleOf (nibbleSignal n) = some n := by
  have := n.isLt
  rw [nibbleSignal, nibbleOf_value (by omega) (by omega)]
  simp

@[simp] theorem bitOf_bitSignal (b : Bool) : bitOf (bitSignal b) = some b := by
  cases b <;> rfl

theorem codewordOfBits_bitAt (cw : Codeword) :
    codewordOfBits (bitAt cw 1) (bitAt cw 2) (bitAt cw 3) (bitAt cw 4) (bitAt cw 5) (bitAt cw 6) (bitAt cw 7) =
      cw := by
  revert cw; decide

theorem codewordSignals_codewordOfBits (b1 b2 b3 b4 b5 b6 b7 : Bool) :
    codewordSignals (codewordOfBits b1 b2 b3 b4 b5 b6 b7) = [b1, b2, b3, b4, b5, b6, b7].map bitSignal := by
  revert b1 b2 b3 b4 b5 b6 b7; decide

@[simp] theorem codewordOf_codewordSignals (cw : Codeword) : codewordOf (codewordSignals cw) = some cw := by
  simp [codewordOf, codewordSignals, codewordOfBits_bitAt]

theorem takeSample_value {x : Int} (h : -32768 ≤ x) (h' : x ≤ 32767) :
    takeSample (.value x) = .ok (unsigned16 x) := by
  simp [takeSample, sampleOf_value h h']

theorem takeSample_eq_ok {x : Signal} {u : SamplePattern} :
    takeSample x = .ok u ↔ ∃ n : Int, x = .value n ∧ -32768 ≤ n ∧ n ≤ 32767 ∧ u = unsigned16 n := by
  cases x <;> simp [takeSample, sampleOf, Config.sampleMin, Config.sampleMax]
  rename_i n
  by_cases h : -32768 ≤ n ∧ n ≤ 32767
  · simp [h, eq_comm]
  · simp only [h, if_false]
    constructor
    · intro hc; cases hc
    · rintro ⟨_, _, _⟩; omega

theorem takeNibble_value {n : Int} (port : InPort) (slot : Option Nat) (h : 0 ≤ n) (h' : n ≤ 15) :
    takeNibble port slot (.value n) = .ok (BitVec.ofInt 4 n) := by
  simp [takeNibble, nibbleOf_value h h']

theorem takeNibble_out {n : Int} (port : InPort) (slot : Option Nat) (h : n < 0 ∨ 15 < n) :
    takeNibble port slot (.value n) = .error (.outOfRangeNibble n slot) := by
  have h0 : ¬ (0 ≤ n ∧ n ≤ 15) := by omega
  simp [takeNibble, nibbleOf, Config.nibbleMax, h0]

theorem takeNibble_noValue {n : Signal} (port : InPort) (slot : Option Nat) (h : hasNoValue n = true) :
    takeNibble port slot n = .error (.undrivenInput port.unit port) := by
  cases n <;> first | rfl | cases h

theorem takeNibble_eq_ok {port : InPort} {slot : Option Nat} {n : Signal} {v : Nibble} :
    takeNibble port slot n = .ok v ↔ nibbleOf n = some v := by
  cases n with
  | value k => simp only [takeNibble]; cases nibbleOf (.value k) <;> simp
  | undriven => simp [takeNibble, nibbleOf]
  | unknown => simp [takeNibble, nibbleOf]
  | highZ => simp [takeNibble, nibbleOf]

theorem takeNibbles_eq_ok {n0 n1 n2 n3 : Signal} {q : Quad Nibble} :
    takeNibbles n0 n1 n2 n3 = .ok q ↔
      nibbleOf n0 = some q.s0 ∧ nibbleOf n1 = some q.s1 ∧ nibbleOf n2 = some q.s2 ∧ nibbleOf n3 = some q.s3 := by
  rw [← takeNibble_eq_ok (port := .joinerN0) (slot := some 0) (n := n0),
    ← takeNibble_eq_ok (port := .joinerN1) (slot := some 1) (n := n1),
    ← takeNibble_eq_ok (port := .joinerN2) (slot := some 2) (n := n2),
    ← takeNibble_eq_ok (port := .joinerN3) (slot := some 3) (n := n3)]
  unfold takeNibbles
  rcases takeNibble .joinerN0 (some 0) n0 with _ | a
  · simp
  rcases takeNibble .joinerN1 (some 1) n1 with _ | b
  · simp
  rcases takeNibble .joinerN2 (some 2) n2 with _ | c
  · simp
  rcases takeNibble .joinerN3 (some 3) n3 with _ | d
  · simp
  cases q
  simp

theorem bitOf_isSome_iff {e : Signal} : (bitOf e).isSome = true ↔ e = .value 0 ∨ e = .value 1 := by
  cases e with
  | value n =>
    by_cases h0 : n = 0
    · simp [bitOf, h0]
    · by_cases h1 : n = 1
      · simp [bitOf, h1]
      · simp [bitOf, h0, h1]
  | undriven => simp [bitOf]
  | unknown => simp [bitOf]
  | highZ => simp [bitOf]

/-- A sequence is a codeword exactly when it is a codeword port's own list (R39, R88). -/
theorem codewordOf_eq_some {bits : List Signal} {cw : Codeword} :
    codewordOf bits = some cw ↔ bits = codewordSignals cw := by
  constructor
  · intro h
    have key : ∀ {e : Signal} {b : Bool}, bitOf e = some b → e = bitSignal b := by
      intro e b hb
      have hs : (bitOf e).isSome = true := by simp [hb]
      rcases bitOf_isSome_iff.mp hs with rfl | rfl
      · simp [bitOf] at hb; subst hb; rfl
      · simp [bitOf] at hb; subst hb; rfl
    match bits, h with
    | [e1, e2, e3, e4, e5, e6, e7], h =>
      simp only [codewordOf] at h
      split at h
      · rename_i b1 b2 b3 b4 b5 b6 b7 h1 h2 h3 h4 h5 h6 h7
        obtain rfl := Option.some.inj h
        rw [key h1, key h2, key h3, key h4, key h5, key h6, key h7]
        exact (codewordSignals_codewordOfBits b1 b2 b3 b4 b5 b6 b7).symm
      · cases h
  · rintro rfl; simp

theorem codewordSignals_haveValue (cw : Codeword) : (codewordSignals cw).any hasNoValue = false := by
  simp [codewordSignals, bitSignal, hasNoValue]

@[simp] theorem takeSequence_codewordSignals (index : Option (Nat × Nat)) (cw : Codeword) :
    takeSequence index (codewordSignals cw) = .ok cw := by
  simp only [takeSequence, codewordSignals_haveValue, codewordOf_codewordSignals]
  rfl

theorem takeSequence_eq_ok {index : Option (Nat × Nat)} {bits : List Signal} {cw : Codeword} :
    takeSequence index bits = .ok cw ↔ bits = codewordSignals cw := by
  constructor
  · intro h
    simp only [takeSequence] at h
    split at h
    · cases h
    · cases hc : codewordOf bits with
      | none => simp [hc] at h
      | some c =>
        simp only [hc] at h
        cases h
        exact codewordOf_eq_some.mp hc
  · rintro rfl; simp

/-- The fault of a sequence that is no codeword, `UndrivenInput` first (R88, R94). -/
theorem takeSequence_noCodeword {bits : List Signal} (index : Option (Nat × Nat)) (h : codewordOf bits = none) :
    takeSequence index bits = .error (if bits.any hasNoValue then .undrivenInput .decoder .decoderCw
      else .malformedCodeword bits index) := by
  simp only [takeSequence, h]
  cases bits.any hasNoValue <;> rfl

@[simp] theorem takeCodeword_codewordSignals (cw : Codeword) : takeCodeword (codewordSignals cw) = .ok cw :=
  takeSequence_codewordSignals none cw

theorem takeCodeword_eq_ok {bits : List Signal} {cw : Codeword} :
    takeCodeword bits = .ok cw ↔ bits = codewordSignals cw := takeSequence_eq_ok

/-! ## Driving the codeword port -/

theorem fitsCodewordPort_codewordSignals (cw : Codeword) : fitsCodewordPort (codewordSignals cw) = true := by
  revert cw; decide

/-- A port of the codeword's own list is driven in full. -/
@[simp] theorem portOfBits_codewordSignals (cw : Codeword) :
    portOfBits (codewordSignals cw) = .ok (Port.driven cw) := by
  have : ∀ cw : Codeword,
      (⟨BitVec.ofNat 7 (levelsOf (codewordSignals cw)).1, BitVec.ofNat 7 (levelsOf (codewordSignals cw)).2⟩ : Port 7) =
        Port.driven cw := by decide
  simp [portOfBits, fitsCodewordPort_codewordSignals, this cw]

theorem fitsCodewordPort_of_codewordOf {bits : List Signal} (h : codewordOf bits ≠ none) :
    fitsCodewordPort bits = true := by
  obtain ⟨cw, h⟩ := Option.ne_none_iff_exists'.mp h
  rw [codewordOf_eq_some.mp h, fitsCodewordPort_codewordSignals]

/-- A sequence that does not fit the port is no codeword, so driving it is the fault an operation would be. -/
theorem portOfBits_misfit {bits : List Signal} (h : fitsCodewordPort bits = false) :
    portOfBits bits = .error (if bits.any hasNoValue then .undrivenInput .decoder .decoderCw
      else .malformedCodeword bits none) := by
  have hc : codewordOf bits = none := by
    by_contra hc
    rw [fitsCodewordPort_of_codewordOf hc] at h
    cases h
  simp only [portOfBits, h, takeCodeword, takeSequence_noCodeword none hc]
  rfl

/-! ## Parameters and buffers of the host -/

theorem takeParams_eq_ok {stride bitIndex : Int} {sk : Nat × Nat} :
    takeParams stride bitIndex = .ok sk ↔
      0 < stride ∧ 0 ≤ bitIndex ∧ bitIndex ≤ 6 ∧ sk = (stride.toNat, bitIndex.toNat) := by
  unfold takeParams
  split
  · simp; omega
  · split
    · simp; omega
    · rw [Except.ok.injEq, eq_comm]
      have : 0 < stride ∧ 0 ≤ bitIndex ∧ bitIndex ≤ 6 := by omega
      simp [this]

/-- A bad parameter is `BadHostParameter`, of the parameter that is bad and with its value (R79, R92). -/
theorem takeParams_bad {stride bitIndex : Int} (h : stride ≤ 0 ∨ bitIndex < 0 ∨ 6 < bitIndex) :
    ∃ p v, takeParams stride bitIndex = .error (.badHostParameter p v) ∧
      ((p = .stride ∧ v = stride ∧ stride ≤ 0) ∨
        (p = .bitIndex ∧ v = bitIndex ∧ (bitIndex < 0 ∨ 6 < bitIndex))) := by
  by_cases hs : stride ≤ 0
  · exact ⟨.stride, stride, by simp [takeParams, hs], .inl ⟨rfl, rfl, hs⟩⟩
  · have hk : bitIndex < 0 ∨ 6 < bitIndex := by omega
    exact ⟨.bitIndex, bitIndex, by simp [takeParams, hs, hk], .inr ⟨rfl, rfl, hk⟩⟩

theorem checkSamples_eq_ok {i : Nat} {xs : List Int} :
    checkSamples i xs = .ok () ↔ ∀ x ∈ xs, -32768 ≤ x ∧ x ≤ 32767 := by
  induction xs generalizing i with
  | nil => simp [checkSamples]
  | cons x rest ih =>
    simp only [checkSamples, Config.sampleMin, Config.sampleMax, List.mem_cons, forall_eq_or_imp]
    by_cases h : -32768 ≤ x ∧ x ≤ 32767
    · simp [h, ih]
    · simp only [h, if_false, false_and, iff_false]; simp

end Sys2Proof.Machine
end

