-- ==== Sys2Proof/Laws/Codec.lean ====
section
/-!
SUPPORT. The arithmetic of the codec: fields and concatenation, two's complement, single flips.
-/

namespace Sys2Proof.Machine

theorem concat16_toNat (q : Quad Nibble) :
    (concat16 q).toNat = 4096 * q.s0.toNat + 256 * q.s1.toNat + 16 * q.s2.toNat + q.s3.toNat := by
  have h0 := q.s0.isLt; have h1 := q.s1.isLt; have h2 := q.s2.isLt; have h3 := q.s3.isLt
  simp only [concat16, BitVec.toNat_append]
  rw [← Nat.shiftLeft_add_eq_or_of_lt h1, ← Nat.shiftLeft_add_eq_or_of_lt h2,
    ← Nat.shiftLeft_add_eq_or_of_lt h3]
  simp only [Nat.shiftLeft_eq]
  omega

theorem signed16_toNat_mod (u : SamplePattern) : signed16 u % 65536 = u.toNat := by
  have := u.isLt
  unfold signed16
  split <;> omega

theorem signed16_range (u : SamplePattern) : -32768 ≤ signed16 u ∧ signed16 u ≤ 32767 := by
  have := u.isLt
  unfold signed16
  split <;> omega

theorem unsigned16_toNat (x : Int) : ((unsigned16 x).toNat : Int) = x % 65536 := by
  simp [unsigned16, BitVec.toNat_ofInt]
  omega

@[simp] theorem unsigned16_signed16 (u : SamplePattern) : unsigned16 (signed16 u) = u := by
  apply BitVec.eq_of_toNat_eq
  have := unsigned16_toNat (signed16 u)
  rw [signed16_toNat_mod] at this
  exact_mod_cast this

theorem signed16_unsigned16 {x : Int} (h : -32768 ≤ x) (h' : x ≤ 32767) : signed16 (unsigned16 x) = x := by
  have := unsigned16_toNat x
  unfold signed16
  split <;> omega

@[simp] theorem concat16_fields16 (u : SamplePattern) : concat16 (fields16 u) = u := by
  apply BitVec.eq_of_toNat_eq
  have := u.isLt
  rw [concat16_toNat]
  simp only [fields16, BitVec.extractLsb'_toNat, Nat.shiftRight_eq_div_pow]
  omega

@[simp] theorem fields16_concat16 (q : Quad Nibble) : fields16 (concat16 q) = q := by
  have h0 := q.s0.isLt; have h1 := q.s1.isLt; have h2 := q.s2.isLt; have h3 := q.s3.isLt
  obtain ⟨a, b, c, d⟩ := q
  simp only [fields16, Quad.mk.injEq]
  refine ⟨?_, ?_, ?_, ?_⟩ <;> apply BitVec.eq_of_toNat_eq <;>
    rw [BitVec.extractLsb'_toNat, concat16_toNat, Nat.shiftRight_eq_div_pow] <;> simp only at * <;> omega

/-- An unmodified codeword decodes to its nibble (R67). -/
@[simp] theorem hammingDecode_hammingEncode (n : Nibble) : hammingDecode (hammingEncode n) = n := by
  revert n; decide

/-- One inverted bit is corrected (R67). -/
theorem hammingDecode_flipAt (n : Nibble) {k : Nat} (hk : k ≤ 6) :
    hammingDecode (flipAt (hammingEncode n) (k + 1)) = n := by
  have : ∀ (n : Nibble) (k : Fin 7), hammingDecode (flipAt (hammingEncode n) (k.val + 1)) = n := by decide
  exact this n ⟨k, by omega⟩

@[simp] theorem hammingDecodeRaw_hammingEncode (n : Nibble) : hammingDecodeRaw (hammingEncode n) = n := by
  revert n; decide

/-- Inverting the same position twice restores the word (R77). -/
@[simp] theorem flipAt_flipAt (cw : Codeword) (P : Nat) : flipAt (flipAt cw P) P = cw := by
  simp [flipAt]

end Sys2Proof.Machine
end

