-- ==== Sys2Proof/Laws/Exec.lean ====
section
/-!
SUPPORT. Each operation's next state, said once in both directions.
-/

namespace Sys2Proof.Machine

/-- SPLIT answers a next state exactly for a Sample, and this one (R49). -/
theorem execSplit_eq_next {x : Signal} {s t : State} :
    execSplit x s = .next t ↔
      ∃ u, takeSample x = .ok u ∧
        t = (s.setSplitter (Port.driven u) .settled).setRead (.nibbles (splitNibbles u)) := by
  simp [execSplit, orRaise_eq_next, @eq_comm _ t]

/-- JOIN answers a next state exactly for four nibbles, and this one (R51). -/
theorem execJoin_eq_next {n0 n1 n2 n3 : Signal} {s t : State} :
    execJoin n0 n1 n2 n3 s = .next t ↔
      ∃ q, takeNibbles n0 n1 n2 n3 = .ok q ∧
        t = (s.setJoiner (q.map Port.driven) .settled).setRead (.sample (joinNibbles q)) := by
  simp [execJoin, orRaise_eq_next, @eq_comm _ t]

/-- ENCODE answers a next state exactly for a nibble, and this one (R57, R58). -/
theorem execEncode_eq_next {d : Signal} {s t : State} :
    execEncode d s = .next t ↔
      ∃ n, nibbleOf d = some n ∧
        t = (s.setEncoder (Port.driven n) .settled).setRead (.codeword (hammingEncode n)) := by
  simp [execEncode, orRaise_eq_next, takeNibble_eq_ok, @eq_comm _ t]

/-- DECODE answers a next state exactly for a codeword, and this one (R60 to R64). -/
theorem execDecode_eq_next {bits : List Signal} {s t : State} :
    execDecode bits s = .next t ↔
      ∃ cw, bits = codewordSignals cw ∧
        t = (s.setDecoder (Port.driven cw) .settled).setRead
          (.decoded (hammingDecode cw) (syndromeOf cw)) := by
  simp [execDecode, orRaise_eq_next, takeCodeword_eq_ok, @eq_comm _ t]

/-- DECODE_RAW answers a next state exactly for a codeword, and this one (R65). -/
theorem execDecodeRaw_eq_next {bits : List Signal} {s t : State} :
    execDecodeRaw bits s = .next t ↔
      ∃ cw, bits = codewordSignals cw ∧
        t = (s.setDecoder (Port.driven cw) .settled).setRead (.raw (hammingDecodeRaw cw)) := by
  simp [execDecodeRaw, orRaise_eq_next, takeCodeword_eq_ok, @eq_comm _ t]

@[simp] theorem execDecode_codeword (cw : Codeword) (s : State) :
    execDecode (codewordSignals cw) s =
      .next ((s.setDecoder (Port.driven cw) .settled).setRead
        (.decoded (hammingDecode cw) (syndromeOf cw))) := by
  simp [execDecode]

@[simp] theorem execDecodeRaw_codeword (cw : Codeword) (s : State) :
    execDecodeRaw (codewordSignals cw) s =
      .next ((s.setDecoder (Port.driven cw) .settled).setRead (.raw (hammingDecodeRaw cw))) := by
  simp [execDecodeRaw]

/-- Whatever an operation does, it leaves the host's names, buffers and queue. -/
theorem exec_keeps_host {i : Instr} {s t : State} (h : exec i s = .next t) :
    t.names = s.names ∧ t.run = s.run ∧ t.pending = s.pending := by
  cases i with
  | split x => obtain ⟨u, -, rfl⟩ := execSplit_eq_next.mp h; simp
  | join a b c d => obtain ⟨q, -, rfl⟩ := execJoin_eq_next.mp h; simp
  | encode d => obtain ⟨n, -, rfl⟩ := execEncode_eq_next.mp h; simp
  | decode bits => obtain ⟨cw, -, rfl⟩ := execDecode_eq_next.mp h; simp
  | decodeRaw bits => obtain ⟨cw, -, rfl⟩ := execDecodeRaw_eq_next.mp h; simp

/-- Every operation leaves the ports in canonical form. -/
theorem exec_keeps_ports {i : Instr} {s t : State} (h : exec i s = .next t) (hs : PortsCanonical s) :
    PortsCanonical t := by
  cases i with
  | split x => obtain ⟨u, -, rfl⟩ := execSplit_eq_next.mp h; simp_all [PortsCanonical]
  | join a b c d => obtain ⟨q, -, rfl⟩ := execJoin_eq_next.mp h; simp_all [PortsCanonical, Quad.map]
  | encode d => obtain ⟨n, -, rfl⟩ := execEncode_eq_next.mp h; simp_all [PortsCanonical]
  | decode bits => obtain ⟨cw, -, rfl⟩ := execDecode_eq_next.mp h; simp_all [PortsCanonical]
  | decodeRaw bits => obtain ⟨cw, -, rfl⟩ := execDecodeRaw_eq_next.mp h; simp_all [PortsCanonical]

end Sys2Proof.Machine
end

