-- ==== Sys2Proof/Laws/Names.lean ====
section
/-!
SUPPORT. The names of a program: reading after assigning, and the canonical form.
-/

namespace Sys2Proof.Machine

theorem lookupName_insertName_self (k : Name) (v : Value) (l : List (Name × Value)) :
    lookupName k (insertName k v l) = some v := by
  induction l with
  | nil => simp [insertName, lookupName]
  | cons e rest ih =>
    obtain ⟨j, w⟩ := e
    simp only [insertName]
    split
    · simp [lookupName]
    · split
      · simp [lookupName]
      · rename_i h h'
        simp [lookupName, Ne.symm h', ih]

theorem lookupName_insertName_other {k j : Name} (v : Value) (l : List (Name × Value)) (h : j ≠ k) :
    lookupName j (insertName k v l) = lookupName j l := by
  induction l with
  | nil => simp [insertName, lookupName, h.symm]
  | cons e rest ih =>
    obtain ⟨i, w⟩ := e
    simp only [insertName]
    split
    · simp [lookupName, h.symm]
    · split
      · rename_i h' hk; subst hk; simp [lookupName, h.symm]
      · simp [lookupName, ih]

theorem namesAbove_insertName {m k : Name} {v : Value} {l : List (Name × Value)} (hk : m < k)
    (h : namesAbove m l = true) : namesAbove m (insertName k v l) = true := by
  induction l generalizing m with
  | nil => simp [insertName, namesAbove, hk]
  | cons e rest ih =>
    obtain ⟨j, w⟩ := e
    simp only [namesAbove, Bool.and_eq_true, decide_eq_true_eq] at h
    simp only [insertName]
    split
    · rename_i hkj; simp [namesAbove, hk, hkj, h.2]
    · split
      · rename_i hkj hke; subst hke; simp [namesAbove, h.1, h.2]
      · rename_i hkj hke
        simp only [namesAbove, h.1, decide_true, Bool.true_and]
        exact ih (Nat.lt_of_le_of_ne (Nat.le_of_not_lt hkj) (Ne.symm hke)) h.2

/-- Assigning keeps the names strictly rising. -/
theorem namesWf_insertName {k : Name} {v : Value} {l : List (Name × Value)} (h : namesWf l = true) :
    namesWf (insertName k v l) = true := by
  cases l with
  | nil => simp [insertName, namesWf, namesAbove]
  | cons e rest =>
    obtain ⟨j, w⟩ := e
    simp only [namesWf] at h
    simp only [insertName]
    split
    · rename_i hkj; simp [namesWf, namesAbove, hkj, h]
    · split
      · rename_i hkj hke; subst hke; simpa [namesWf] using h
      · rename_i hkj hke
        simp only [namesWf]
        exact namesAbove_insertName (Nat.lt_of_le_of_ne (Nat.le_of_not_lt hkj) (Ne.symm hke)) h

/-- Assigning a name answers a next state exactly where the name is new. -/
theorem assign_eq_next {k : Name} {v : Value} {s t : State} :
    assign k v s = .next t ↔ lookupName k s.names = none ∧ t = s.setNames (insertName k v s.names) := by
  unfold assign
  cases lookupName k s.names <;> simp [eq_comm]

theorem assign_new {k : Name} {v : Value} {s : State} (h : lookupName k s.names = none) :
    assign k v s = .next (s.setNames (insertName k v s.names)) := by
  simp [assign, h]

/-- A name that is not assigned carries no value to any port, and one of another kind is refused (logs 8 and 9). -/
theorem sampleNamed_unassigned {k : Name} {l : List (Name × Value)} (h : lookupName k l = none) :
    sampleNamed k l = .ok .undriven := by simp [sampleNamed, h]

theorem nibbleNamed_unassigned {k : Name} {l : List (Name × Value)} (h : lookupName k l = none) :
    nibbleNamed k l = .ok .undriven := by simp [nibbleNamed, h]

theorem codewordNamed_unassigned {k : Name} {l : List (Name × Value)} (h : lookupName k l = none) :
    codewordNamed k l = .ok (List.replicate 7 .undriven) := by simp [codewordNamed, h]

theorem sampleNamed_illTyped {k : Name} {l : List (Name × Value)} {v : Value} (h : lookupName k l = some v)
    (hv : ∀ x, v ≠ .sample x) : sampleNamed k l = .error (.illTyped k) := by
  cases v <;> simp_all [sampleNamed]

theorem nibbleNamed_illTyped {k : Name} {l : List (Name × Value)} {v : Value} (h : lookupName k l = some v)
    (hv : ∀ n, v ≠ .nibble n) : nibbleNamed k l = .error (.illTyped k) := by
  cases v <;> simp_all [nibbleNamed]

theorem codewordNamed_illTyped {k : Name} {l : List (Name × Value)} {v : Value} (h : lookupName k l = some v)
    (hv : ∀ bits, v ≠ .codeword bits) : codewordNamed k l = .error (.illTyped k) := by
  cases v <;> simp_all [codewordNamed]

/-- What a chain of assignments changes: the names, and there only new ones. -/
def OnlyNewNames (s t : State) : Prop :=
  ∃ n, t = s.setNames n ∧ (namesWf s.names = true → namesWf n = true) ∧
    ∀ k w, lookupName k s.names = some w → lookupName k n = some w

theorem OnlyNewNames.refl (s : State) : OnlyNewNames s s := ⟨s.names, rfl, id, fun _ _ => id⟩

theorem OnlyNewNames.trans {s t u : State} (h : OnlyNewNames s t) (h' : OnlyNewNames t u) :
    OnlyNewNames s u := by
  obtain ⟨n, rfl, hw, hl⟩ := h
  obtain ⟨m, rfl, hw', hl'⟩ := h'
  exact ⟨m, rfl, fun h => hw' (hw h), fun k w h => hl' k w (hl k w h)⟩

theorem assign_onlyNewNames {k : Name} {v : Value} {s t : State} (h : assign k v s = .next t) :
    OnlyNewNames s t := by
  obtain ⟨hk, rfl⟩ := assign_eq_next.mp h
  refine ⟨_, rfl, namesWf_insertName, fun j w hj => ?_⟩
  by_cases hjk : j = k
  · subst hjk; simp [hk] at hj
  · rw [lookupName_insertName_other _ _ hjk, hj]

/-- A codeword named by the host is the port's list again (R39). -/
theorem intSignals_codewordInts (cw : Codeword) : intSignals (codewordInts cw) = codewordSignals cw := by
  revert cw; decide

end Sys2Proof.Machine
end

