-- ==== Sys2Proof/Laws/Pipeline.lean ====
section
/-!
SUPPORT. CORRUPT element by element, written buffers, and what one group gives after the pipeline.
-/

namespace Sys2Proof.Machine

@[simp] theorem length_corrupt (stride bitIndex : Nat) (qs : List (Quad Codeword)) :
    (corrupt stride bitIndex qs).length = qs.length := by
  simp [corrupt]

theorem getElem?_corrupt (stride bitIndex i : Nat) (qs : List (Quad Codeword)) :
    (corrupt stride bitIndex qs)[i]? = (qs[i]?).map (corruptGroup stride bitIndex i) := by
  simp [corrupt, List.getElem?_mapIdx]

theorem corruptGroup_corruptGroup (stride bitIndex i : Nat) (q : Quad Codeword) :
    corruptGroup stride bitIndex i (corruptGroup stride bitIndex i q) = q := by
  unfold corruptGroup
  split <;> simp

/-- Whatever group CORRUPT makes of a sample's codewords, the decoder gives the sample back (R78). -/
theorem correctedSample_corruptGroup {stride bitIndex i : Nat} {x : Int} (hb : bitIndex ≤ 6)
    (h : -32768 ≤ x) (h' : x ≤ 32767) :
    correctedSample (corruptGroup stride bitIndex i (encodeGroup x)) = x := by
  have key : (corruptGroup stride bitIndex i (encodeGroup x)).map hammingDecode = splitNibbles (unsigned16 x) := by
    unfold corruptGroup encodeGroup
    split <;> simp [Quad.map, hammingDecode_flipAt _ hb]
  rw [correctedSample, key, splitNibbles, joinNibbles, concat16_fields16, signed16_unsigned16 h h']

/-- A group left alone decodes to its sample without correction too (R78). -/
theorem rawSample_encodeGroup {x : Int} (h : -32768 ≤ x) (h' : x ≤ 32767) : rawSample (encodeGroup x) = x := by
  simp [rawSample, encodeGroup, Quad.map, splitNibbles, joinNibbles]
  rw [show (⟨(fields16 (unsigned16 x)).s0, (fields16 (unsigned16 x)).s1, (fields16 (unsigned16 x)).s2,
    (fields16 (unsigned16 x)).s3⟩ : Quad Nibble) = fields16 (unsigned16 x) from rfl]
  rw [concat16_fields16, signed16_unsigned16 h h']

/-- The data bits of a word as a number: positions 3, 5, 6, 7, the first the highest (R65). -/
theorem dataBits_toNat (cw : Codeword) : (dataBits cw).toNat = 8 * (cw.getLsbD 2).toNat +
    4 * (cw.getLsbD 4).toNat + 2 * (cw.getLsbD 5).toNat + (cw.getLsbD 6).toNat := by
  revert cw; decide

/-- The uncorrected decoding of any group: `signed16` of its four words' data bits, joined (R82). -/
theorem rawSample_eq (q : Quad Codeword) :
    rawSample q = signed16 (BitVec.ofNat 16 (4096 * (dataBits q.s0).toNat + 256 * (dataBits q.s1).toNat +
      16 * (dataBits q.s2).toNat + (dataBits q.s3).toNat)) := by
  have h := concat16_toNat (q.map dataBits)
  simp only [Quad.map] at h
  rw [← h, BitVec.ofNat_toNat, BitVec.setWidth_eq]
  rfl

/-- The mask that an inverted bit leaves on the uncorrected nibble (R41, R76). -/
def nibbleMask (bitIndex : Nat) : Nibble :=
  match bitIndex with
  | 2 => 0x8#4
  | 4 => 0x4#4
  | 5 => 0x2#4
  | 6 => 0x1#4
  | _ => 0x0#4

/-- One inverted bit, not corrected (R65, R76). -/
theorem hammingDecodeRaw_flipAt (n : Nibble) {k : Nat} (hk : k ≤ 6) :
    hammingDecodeRaw (flipAt (hammingEncode n) (k + 1)) = n ^^^ nibbleMask k := by
  have : ∀ (n : Nibble) (k : Fin 7),
      hammingDecodeRaw (flipAt (hammingEncode n) (k.val + 1)) = n ^^^ nibbleMask k.val := by decide
  exact this n ⟨k, by omega⟩

theorem allWritten_eq_some {α : Type} {l : List (Option α)} {r : List α} :
    allWritten l = some r ↔ l = r.map some := by
  induction l generalizing r with
  | nil => cases r <;> simp [allWritten]
  | cons a rest ih =>
    cases a with
    | none => cases r <;> simp [allWritten]
    | some a =>
      cases hr : allWritten rest with
      | none =>
        simp only [allWritten, hr]
        cases r with
        | nil => simp
        | cons b r' =>
          simp only [List.map_cons, List.cons.injEq, Option.some.injEq, reduceCtorEq, false_iff, not_and]
          intro _ hc
          rw [ih.mpr hc] at hr
          cases hr
      | some l' =>
        have := ih.mp hr
        cases r with
        | nil => simp [allWritten, hr]
        | cons b r' =>
          simp only [allWritten, hr, Option.some.injEq, List.cons.injEq, List.map_cons]
          rw [this, List.map_inj_right (fun _ _ => Option.some.inj)]

end Sys2Proof.Machine
end

