-- ==== Sys2Proof/Tests/Slice0.lean ====
section
/-!
SUPPORT. Small tests of the model. Expected values are those of spec/95_test_vectors.md (table named at each
test) or drawn by hand from the port maps of spec/30_encoding.md; then a witness for the hypotheses of each
statement of Certificates/Slice0/Obligations.lean.
-/

namespace Sys2Proof.Machine.Tests

/-! ## Helpers -/

def nextOf : Outcome → Option State
  | .next s => some s
  | .fault _ => none
  | .refused _ => none

def readOf (o : Outcome) : Option Readout := (nextOf o).map fun s => s.hostRead

def faultOf : Outcome → Option Fault
  | .next _ => none
  | .fault f => some f
  | .refused _ => none

def refusalOf : Outcome → Option Refusal
  | .next _ => none
  | .fault _ => none
  | .refused r => some r

/-- The state after reset with these commands waiting. -/
def withCmds (cmds : List HostCmd) : State := State.reset.setPending cmds

/-- A codeword as integers, for the tests' lists. -/
def ints (l : List Int) : List Signal := l.map Signal.value

def okOf {ε α : Type} : Except ε α → Option α
  | .ok a => some a
  | .error _ => none

def errorOf {ε α : Type} : Except ε α → Option ε
  | .ok _ => none
  | .error e => some e

/-! ## Well-formedness: an ill-formed term for each check, refused (R45, R87 to R90) -/

theorem test_wf_split_above : (Instr.split (.value 32768)).wf = false := by decide
theorem test_wf_split_below : (Instr.split (.value (-32769))).wf = false := by decide
theorem test_wf_split_undriven : (Instr.split .undriven).wf = false := by decide
theorem test_wf_join_above : (Instr.join (.value 16) (.value 0) (.value 0) (.value 0)).wf = false := by decide
theorem test_wf_join_below : (Instr.join (.value 0) (.value 0) (.value 0) (.value (-1))).wf = false := by decide
theorem test_wf_encode_above : (Instr.encode (.value 16)).wf = false := by decide
theorem test_wf_encode_highZ : (Instr.encode .highZ).wf = false := by decide
theorem test_wf_decode_short : (Instr.decode (ints [0, 0, 0, 0, 0, 0])).wf = false := by decide
theorem test_wf_decode_element : (Instr.decode (ints [0, 0, 2, 0, 0, 0, 0])).wf = false := by decide
theorem test_wf_decodeRaw_long : (Instr.decodeRaw (ints [0, 0, 0, 0, 0, 0, 0, 0])).wf = false := by decide
theorem test_wf_decodeRaw_unknown :
    (Instr.decodeRaw [.value 0, .unknown, .value 0, .value 0, .value 0, .value 0, .value 0]).wf = false := by
  decide

/-! ## Decoding and encoding, words drawn bit by bit from R36 to R43 -/

/-- 0xFF9C is Sample -100 (R49's example). -/
theorem test_decode_split : okOf (decode ⟨.split, 0b1111111110011100⟩) = some (.split (.value (-100))) := by
  decide

/-- n0 = 1 in bits [15:12], n1 = 2, n2 = 3, n3 = 4 in bits [3:0] (R37). -/
theorem test_decode_join : okOf (decode ⟨.join, 0b0001001000110100⟩) =
    some (.join (.value 1) (.value 2) (.value 3) (.value 4)) := by decide

/-- d = 0x8: d1 alone is 1 (R38, R42). -/
theorem test_decode_encode : okOf (decode ⟨.encode, 0b1000⟩) = some (.encode (.value 8)) := by decide

/-- cw = 0x0B reads b7..b1 = 0 0 0 1 0 1 1 (R39). -/
theorem test_decode_decode :
    okOf (decode ⟨.decode, 0b0001011⟩) = some (.decode (ints [1, 1, 0, 1, 0, 0, 0])) := by decide

/-- cw = 0x40: position 7 alone (R39, W7). -/
theorem test_decode_decodeRaw :
    okOf (decode ⟨.decodeRaw, 0b1000000⟩) = some (.decodeRaw (ints [0, 0, 0, 0, 0, 0, 1])) := by decide

theorem test_decode_too_wide :
    errorOf (decode ⟨.encode, 16⟩) = some (.patternTooWide .encode) := by decide

theorem test_encode_split : encode (.split (.value (-100))) = some ⟨.split, 0xFF9C⟩ := by decide
theorem test_encode_join :
    encode (.join (.value 15) (.value 15) (.value 9) (.value 12)) = some ⟨.join, 0xFF9C⟩ := by decide
theorem test_encode_encode : encode (.encode (.value 8)) = some ⟨.encode, 8⟩ := by decide
theorem test_encode_decode : encode (.decode (ints [1, 1, 0, 1, 0, 0, 0])) = some ⟨.decode, 0x0B⟩ := by decide
theorem test_encode_decodeRaw :
    encode (.decodeRaw (ints [0, 0, 0, 0, 0, 0, 1])) = some ⟨.decodeRaw, 0x40⟩ := by decide
theorem test_encode_ill_formed : encode (.decode (ints [0, 0, 2, 0, 0, 0, 0])) = none := by decide

/-! ## One step of each operation, through the fetch and presented -/

/-- V5: -256 splits into F F 0 0. -/
theorem test_split : readOf (step (withCmds [.present (.split (.value (-256)))])) =
    some (.nibbles ⟨0xF#4, 0xF#4, 0x0#4, 0x0#4⟩) := by decide

/-- V7: 32768 is refused. -/
theorem test_split_fault : faultOf (step (withCmds [.present (.split (.value 32768))])) =
    some (.outOfRangeSample (.integer 32768) none) := by decide

/-- V5: F F 9 C joins to 0xFF9C, -100. -/
theorem test_join : readOf (step (withCmds [.present (.join (.value 15) (.value 15) (.value 9) (.value 12))])) =
    some (.sample 0xFF9C#16) := by decide

/-- V7: (16, 0, 0, 0) is refused in slot 0. -/
theorem test_join_fault :
    faultOf (step (withCmds [.present (.join (.value 16) (.value 0) (.value 0) (.value 0))])) =
      some (.outOfRangeNibble 16 (some 0)) := by decide

/-- V1: 0xA encodes to 0x2D. -/
theorem test_encode : readOf (step (withCmds [.present (.encode (.value 10))])) = some (.codeword 0x2D#7) := by
  decide

/-- V7: 16 is refused. -/
theorem test_encode_fault : faultOf (step (withCmds [.present (.encode (.value 16))])) =
    some (.outOfRangeNibble 16 none) := by decide

/-- V3: 0x14 = `[0,0,1,0,1,0,0]` has syndrome 6 and d = 0xE. -/
theorem test_decode : readOf (step (withCmds [.present (.decode (ints [0, 0, 1, 0, 1, 0, 0]))])) =
    some (.decoded 0xE#4 6#3) := by decide

/-- V7: six elements are refused. -/
theorem test_decode_fault : faultOf (step (withCmds [.present (.decode (ints [0, 0, 0, 0, 0, 0]))])) =
    some (.malformedCodeword (ints [0, 0, 0, 0, 0, 0]) none) := by decide

/-- V3: 0x47 = `[1,1,1,0,0,0,1]` has d_raw = 0x9. -/
theorem test_decodeRaw : readOf (step (withCmds [.present (.decodeRaw (ints [1, 1, 1, 0, 0, 0, 1]))])) =
    some (.raw 0x9#4) := by decide

/-- V7: `cw[3]` undriven is `UndrivenInput`. -/
theorem test_decodeRaw_fault :
    faultOf (step (withCmds [.present
      (.decodeRaw [.value 0, .value 0, .value 0, .undriven, .value 0, .value 0, .value 0])])) =
      some (.undrivenInput .decoder .decoderCw) := by decide

/-- A table word of each width is run by the very next step after reset (log 2). -/
theorem test_fetch_16 : readOf (step (State.reset.withFetchWord 16 0x1234)) =
    some (.nibbles ⟨1#4, 2#4, 3#4, 4#4⟩) := by decide
theorem test_fetch_encode : readOf (step (State.reset.withFetchWord 8 0x0F)) = some (.codeword 0x7F#7) := by decide
theorem test_fetch_decode : readOf (step (State.reset.withFetchWord 8 0x14)) =
    some (.decoded 0xE#4 6#3) := by decide
theorem test_fetch_none : refusalOf (step (State.reset.withFetchWord 8 0x80)) =
    some (.notAPortWord (.patternTooWide .split)) := by decide

/-! ## The host's acts on ports, its programs and its pipeline -/

/-- V7: a codeword driven with `cw[3]` undriven is no fault until an output is read. -/
theorem test_drive_partial :
    (nextOf (step (withCmds [.drive (.decoder
      [.value 0, .value 0, .value 1, .undriven, .value 0, .value 0, .value 0])]))).map (fun s => s.decoderIn) =
      some ⟨0b0000100#7, 0b1110111#7⟩ := by decide

/-- R28, R88, R90: a sequence of eight elements, the last without a value, is refused where it is driven. -/
theorem test_drive_too_long :
    faultOf (step (withCmds [.drive (.decoder
      [.value 0, .value 0, .value 0, .value 0, .value 0, .value 0, .value 0, .undriven])])) =
      some (.undrivenInput .decoder .decoderCw) := by decide

/-- R94: of two bad codewords in a call of CORRUPT the one of the lower slot is named, with its index (i, k). -/
theorem test_corrupt_first_codeword :
    faultOf (step (withCmds [.corrupt [⟨ints [0, 0, 0, 0, 0, 0, 0], ints [2], ints [3], ints []⟩] 1 6])) =
      some (.malformedCodeword (ints [2]) (some (0, 1))) := by decide

/-- R23, R90: no output has a value after reset. -/
theorem test_read_reset : faultOf (step (withCmds [.read .encoderCw])) =
    some (.undrivenInput .encoder .encoderD) := by decide

/-- P1, statement 7: FLIP of 0x7F at 6 gives 0x3F. -/
theorem test_stmt_flip :
    (nextOf (runStmt (.flip 0 6 1) (State.reset.setNames [(0, .codeword [1, 1, 1, 1, 1, 1, 1])]))).map
      (fun s => lookupName 1 s.names) = some (some (.codeword [1, 1, 1, 1, 1, 1, 0])) := by decide

/-- P1, statement 8: DEC of 0x3F names 0xF, 7 and 0xE. -/
theorem test_stmt_dec :
    (nextOf (runStmt (.dec 1 2 3 4) (State.reset.setNames [(1, .codeword [1, 1, 1, 1, 1, 1, 0])]))).map
      (fun s => s.names) =
      some [(1, .codeword [1, 1, 1, 1, 1, 1, 0]), (2, .nibble 15), (3, .syndrome 7), (4, .nibble 14)] := by decide

/-- P1, statement 12: JOIN of E F 9 C is -4196. -/
theorem test_stmt_join :
    (nextOf (runStmt (.join 0 1 2 3 4)
      (State.reset.setNames [(0, .nibble 14), (1, .nibble 15), (2, .nibble 9), (3, .nibble 12)]))).map
      (fun s => lookupName 4 s.names) = some (some (.sample (-4196))) := by decide

/-- R48: the names of a program are assigned once. -/
theorem test_stmt_twice :
    refusalOf (runStmt (.letValue 0 (.nibble 1)) (State.reset.setNames [(0, .nibble 2)])) =
      some (.assignedTwice 0) := by decide

/-- W6, as 90_conflicts.md C7 settles it: sample 0 is hit although N < stride. -/
theorem test_process_w6 : okOf (process 100 6 [0, 100, -100, 32767, -32768]) =
    some ([4096, 100, -100, 32767, -32768], [0, 100, -100, 32767, -32768]) := by decide

/-- P4: stride 2, bit_index 2. -/
theorem test_process_p4 : okOf (process 2 2 [1, -2, 4096]) = some ([-32767, -2, -28672], [1, -2, 4096]) := by
  decide

/-- V6: bit_index 1 is a parity position, so both streams are the input. -/
theorem test_process_parity : okOf (process 3 1 [0, 0, 0, 0]) = some ([0, 0, 0, 0], [0, 0, 0, 0]) := by decide

/-- V7: CORRUPT with stride 0 and a malformed codeword is `BadHostParameter`. -/
theorem test_corrupt_priority :
    faultOf (step (withCmds [.corrupt [⟨ints [2], ints [], ints [], ints []⟩] 0 6])) =
      some (.badHostParameter .stride 0) := by decide

/-- V7: CORRUPT with bit_index 7 is `BadHostParameter`. -/
theorem test_corrupt_bitIndex : faultOf (step (withCmds [.corrupt [] 1 7])) =
    some (.badHostParameter .bitIndex 7) := by decide

/-- R85: a float beyond [-1, 1] is clipped to the end of the Sample range, and 1 gives 32767. -/
theorem test_entry_clips : okOf (entrySample 0 (.finite 2)) = some 32767 := by decide
theorem test_entry_low : okOf (entrySample 0 (.finite (-2))) = some (-32768) := by decide

/-- R86: a Sample of full scale is saved as 1, whatever the float format. -/
theorem test_exit_one : exitFloat 32767 = .finite 1 := by simp [exitFloat, asFloat, Config.audioScale]

/-- R69, table V4: 0x9 with positions 1 and 7 inverted is 0x0D. -/
theorem test_flipAll : flipAll (hammingEncode 9) [1, 7] = 0x0D#7 := by decide

/-! ## Witnesses: each statement's hypotheses are met together by concrete data -/

theorem witness_DecodeOfEncodeIsIdentity :
    (Instr.split (.value (-32768))).wf = true ∧
      (Instr.join (.value 0) (.value 15) (.value 7) (.value 8)).wf = true ∧ (Instr.encode (.value 15)).wf = true ∧
      (Instr.decode (ints [1, 1, 1, 1, 1, 1, 1])).wf = true ∧
      (Instr.decodeRaw (ints [0, 0, 0, 0, 0, 0, 0])).wf = true := by decide

theorem witness_EncodeOfDecodeIsIdentity :
    decode ⟨.split, 65535⟩ = .ok (.split (.value (-1))) := by rfl

theorem witness_EveryPortPatternIsLegal :
    65535 < 2 ^ Tag.width .split ∧ 65535 < 2 ^ Tag.width .join ∧ 15 < 2 ^ Tag.width .encode ∧
      127 < 2 ^ Tag.width .decode ∧ 127 < 2 ^ Tag.width .decodeRaw ∧ 2 ^ Tag.width .decode ≤ 128 := by decide

theorem witness_OperationCompletesExactlyWhenWellFormed : (Instr.encode (.value (-1))).wf = false := by decide

theorem witness_StepRunsTheDecodedOperation :
    (withCmds [.evaluate ⟨.encode, 1⟩]).pending = .evaluate ⟨.encode, 1⟩ :: [] ∧
      decode ⟨.encode, 1⟩ = .ok (.encode (.value 1)) ∧
      decode ⟨.encode, 16⟩ = .error (.patternTooWide .encode) ∧
      (∀ c : HostCmd, (withCmds [c]).pending = c :: []) ∧ State.reset.pending = [] :=
  ⟨rfl, rfl, rfl, fun _ => rfl, rfl⟩

theorem witness_FetchWordIsTheNextOperation :
    decodeTableWord 16 65535 = some (.split (.value (-1))) ∧ decodeTableWord 8 15 = some (.encode (.value 15)) ∧
      decodeTableWord 8 127 = some (.decode (ints [1, 1, 1, 1, 1, 1, 1])) := by decide

/-- The Sample range of the SPLIT statements, at both ends. -/
theorem witness_SplitRange :
    ((-32768 : Int) ≤ -32768 ∧ (-32768 : Int) ≤ 32767) ∧ ((-32768 : Int) ≤ 32767 ∧ (32767 : Int) ≤ 32767) := by
  decide

/-- Outside it, on either side, and the floats with no finite value. -/
theorem witness_OutOfRangeSampleIsRefused :
    ((-32769 : Int) < -32768) ∧ ((32767 : Int) < 32768) ∧ (∀ q, HostFloat.nan ≠ .finite q) ∧ 65535 < 65536 :=
  ⟨by decide, by decide, fun _ h => (by cases h), by decide⟩

/-- The nibble range of the JOIN and ENCODE statements, at both ends, and outside it. -/
theorem witness_NibbleRange : (0 ≤ 15 ∧ 15 ≤ 15) ∧ ((-1 : Int) < 0 ∨ (15 : Int) < -1) ∧
    ((16 : Int) < 0 ∨ (15 : Int) < 16) := by decide

theorem witness_JoinIsTwosComplement :
    ∃ t, exec (.join (.value 8) (.value 0) (.value 0) (.value 0)) State.reset = .next t := ⟨_, rfl⟩

theorem witness_EncodeIsSystematicWithDistanceThree : (0x0#4 : Nibble) ≠ 0xF#4 := by decide

theorem witness_MalformedCodewordIsRefused :
    ([0, 0, 0, 0, 0, 0] : List Int).length ≠ 7 ∧ ([0, 0, 0, 0, 0, 0, 0, 0] : List Int).length ≠ 7 ∧
      (∃ b ∈ ([0, 0, 2, 0, 0, 0, 0] : List Int), b ≠ 0 ∧ b ≠ 1) ∧ 127 < 128 := by decide

/-- One position, at both ends, and the sets of two and three positions at both ends. -/
theorem witness_Positions : (1 ≤ 1 ∧ 1 ≤ 7) ∧ (1 ≤ 7 ∧ 7 ≤ 7) ∧ (1 ≤ 1 ∧ 1 < 7 ∧ 7 ≤ 7) ∧
    (1 ≤ 5 ∧ 5 < 6 ∧ 6 < 7 ∧ 7 ≤ 7) := by decide

theorem witness_CodeIsPerfect : ValidCodeword 0x4B#7 ∧ distance 0x0B#7 0x4B#7 ≤ 1 :=
  ⟨⟨1#4, by decide⟩, by decide⟩

theorem witness_EvaluationsAreIndependent :
    (∃ t, exec (.split (.value 0)) State.reset = .next t) ∧
      (∃ t, exec (.join (.value 0) (.value 0) (.value 0) (.value 0)) State.reset = .next t) ∧
      (∃ t, exec (.encode (.value 0)) State.reset = .next t) ∧
      (∃ t, exec (.decode (codewordSignals 0)) State.reset = .next t) ∧
      (∃ t, exec (.decodeRaw (codewordSignals 0)) State.reset = .next t) :=
  ⟨⟨_, rfl⟩, ⟨_, rfl⟩, ⟨_, rfl⟩, ⟨_, rfl⟩, ⟨_, rfl⟩⟩

/-- Also of EvaluatingAgainChangesNothing. -/
theorem witness_OutputPortsFollowTheInputs :
    (State.reset.setSplitter (Port.driven 5#16) .settled).splitterIn = Port.driven 5#16 ∧
      (State.reset.setJoiner ⟨Port.driven 1#4, Port.driven 2#4, Port.driven 3#4, Port.driven 4#4⟩
        .settled).joinerSettle = .settled ∧
      (State.reset.setEncoder (Port.driven 1#4) .settled).encoderIn = Port.driven 1#4 ∧
      (State.reset.setDecoder (Port.driven 1#7) .settled).decoderIn = Port.driven 1#7 ∧
      Settle.settled.over = true ∧ (Settle.since Config.tSettle).over = true :=
  ⟨by decide, by decide, by decide, by decide, rfl, decide_eq_true (Nat.le_refl _)⟩

theorem witness_UndrivenOperandFaults :
    Signal.highZ ∈ [.value 0, .highZ, .value 1] ∧ (0 ≤ 15) := by decide

/-- Reset drives no port, so it meets every clause. -/
theorem witness_ReadingWithoutAnInputValueFaults :
    OutPort.unit .splitterN3 = .splitter ∧ State.reset.splitterIn.known ≠ BitVec.allOnes 16 ∧
      State.reset.joinerIn.s3.known ≠ BitVec.allOnes 4 ∧ State.reset.encoderIn.known ≠ BitVec.allOnes 4 ∧
      State.reset.decoderIn.known ≠ BitVec.allOnes 7 := by decide

/-- The state after reset with the joiner's ports driven. -/
def joinerDriven : State :=
  State.reset.setJoiner ⟨Port.driven 1#4, Port.driven 2#4, Port.driven 3#4, Port.driven 15#4⟩ .settled

/-- A change of each unit's input, of the joiner in slot 0 and in slot 3; the two clauses on time exclude each other,
and at the boundary value `T_SETTLE` itself the second holds. -/
theorem witness_ReadingBeforeSettlingFaults :
    State.reset.splitterIn ≠ Port.driven 0#16 ∧ State.reset.encoderIn ≠ Port.driven 0#4 ∧
      State.reset.decoderIn ≠ Port.driven 0#7 ∧
      (joinerDriven.joinerIn ≠ (⟨0#4, 2#4, 3#4, 15#4⟩ : Quad Nibble).map Port.driven ∧
        { joinerDriven.joinerIn with s0 := Port.driven 0#4 } =
          (⟨0#4, 2#4, 3#4, 15#4⟩ : Quad Nibble).map Port.driven) ∧
      (joinerDriven.joinerIn ≠ (⟨1#4, 2#4, 3#4, 0#4⟩ : Quad Nibble).map Port.driven ∧
        { joinerDriven.joinerIn with s3 := Port.driven 0#4 } =
          (⟨1#4, 2#4, 3#4, 0#4⟩ : Quad Nibble).map Port.driven) ∧
      Config.tSettle ≤ Config.tSettle :=
  ⟨by decide, by decide, by decide, by decide, by decide, Nat.le_refl _⟩

/-- Values just outside each range and sequences that are no codeword. -/
theorem witness_DrivingSetsOnePortOrIsRefused :
    ((-32769 : Int) < -32768) ∧ ((32767 : Int) < 32768) ∧ ((-1 : Int) < 0) ∧ ((15 : Int) < 16) ∧
      ([0, 0, 0, 0, 0, 0, 0, 0] : List Int).length ≠ 7 ∧
      (∃ b ∈ ([0, 0, -1, 0, 0, 0, 0] : List Int), b ≠ 0 ∧ b ≠ 1) := by decide

/-- A place without a value as the first and as the last of seven, where the drive completes; and a sequence that is
malformed besides, by its length or by an element. -/
theorem witness_DrivingWithoutAValueMakesReadingFault :
    (∃ t, runDrive (.decoder [.highZ, .value 0, .value 0, .value 1, .value 0, .value 0, .value 1])
        State.reset = .next t) ∧
      (∃ t, runDrive (.decoder [.value 0, .value 0, .value 0, .value 1, .value 0, .value 0, .unknown])
        State.reset = .next t) ∧
      ([.undriven] : List Signal).length ≠ 7 ∧
      (Signal.value 2 ∈ [.value 0, .value 0, .value 2, .undriven, .value 0, .value 0, .value 0] ∧
        (2 : Int) ≠ 0 ∧ (2 : Int) ≠ 1) :=
  ⟨⟨_, rfl⟩, ⟨_, rfl⟩, by decide, by decide⟩

theorem witness_OnlyDrivingChangesInputPorts :
    ∃ t, (withCmds [.wait 3]).pending = .wait 3 :: [] ∧ step (withCmds [.wait 3]) = .next t ∧
      (∀ w, HostCmd.wait 3 ≠ .evaluate w) ∧ (∀ i, HostCmd.wait 3 ≠ .present i) ∧
      (∀ d, HostCmd.wait 3 ≠ .drive d) ∧ (∀ st, HostCmd.wait 3 ≠ .stmt st) :=
  ⟨_, rfl, rfl, by simp, by simp, by simp, by simp⟩

/-- The statements it covers: LET and FLIP, each answering a next state. -/
theorem witness_OnlyDrivingChangesInputPorts_stmt :
    (∃ t, step (withCmds [.stmt (.letValue 0 (.nibble 1))]) = .next t) ∧
      (∃ t, step ((withCmds [.stmt (.flip 0 6 1)]).setNames [(0, .codeword [1, 1, 1, 1, 1, 1, 1])]) = .next t) ∧
      (∀ st, HostCmd.stmt (.flip 0 6 1) = .stmt st → (∃ x v, st = .letValue x v) ∨ ∃ x k y, st = .flip x k y) := by
  refine ⟨⟨_, rfl⟩, ⟨_, rfl⟩, ?_⟩
  rintro _ ⟨⟩
  exact .inr ⟨0, 6, 1, rfl⟩

/-- A run of one sample, written out, in which every buffer is full: N = 1, stride 1, bit_index 6. -/
def endedRun : Run :=
  { original := [], samples := [0], stride := 1, bitIndex := 6
    cwClean := [some ⟨0x00#7, 0x00#7, 0x00#7, 0x00#7⟩]
    cwCorrupt := some [⟨0x40#7, 0x00#7, 0x00#7, 0x00#7⟩]
    corrupted := [some 4096], corrected := [some 0], saved := none }

/-- The invariant's hypothesis is met by a state other than reset, and there a step answers a next state. -/
theorem witness_StepKeepsTheInvariant :
    (withCmds [.present (.encode (.value 5))]).Inv ∧
      ∃ t, step (withCmds [.present (.encode (.value 5))]) = .next t := by
  refine ⟨⟨?_, rfl, ?_⟩, ⟨_, rfl⟩⟩
  · simp [PortsCanonical, withCmds, State.reset]
  · constructor <;> simp [withCmds, State.reset, Run.empty]

theorem witness_EndedRunReturnsItsInput :
    (State.reset.setRun endedRun).Inv ∧ endedRun.ended = true := by
  refine ⟨⟨?_, rfl, ?_⟩, by decide⟩
  · simp [PortsCanonical, State.reset]
  · constructor
    · decide
    · decide
    · decide
    · decide
    · decide
    · decide
    · intro i q h
      match i, h with
      | 0, h => cases h; decide
    · intro qs h
      cases h; decide
    · intro i y h
      match i, h with
      | 0, h => cases h; decide
    · intro i y h
      match i, h with
      | 0, h => cases h; decide

theorem witness_CorruptFlipsOneBitOfHitGroups :
    ([⟨1, 2, 3, 4⟩, ⟨5, 6, 7, 8⟩] : List (Quad Codeword))[1]? = some ⟨5, 6, 7, 8⟩ := by decide

/-- Also of ProcessCorrectsEveryRun: the parameters at their boundary, and samples at both ends. -/
theorem witness_CorruptHitsEveryStride : 1 ≤ 1 ∧ 6 ≤ 6 ∧
    (∀ x ∈ ([-32768, 32767] : List Int), -32768 ≤ x ∧ x ≤ 32767) ∧ 1 % 2 ≠ 0 ∧ 0 < [()].length ∧
    0 % 2 = 0 ∧ ([-32768, 32767] : List Int)[0]? = some (-32768) := by decide

/-- Each bad parameter, at the boundary, and the good ones at theirs. -/
theorem witness_BadHostParameterIsRefused :
    ((0 : Int) ≤ 0) ∧ ((-1 : Int) < 0) ∧ ((6 : Int) < 7) ∧ 1 ≤ 1 ∧ 6 ≤ 6 ∧
      (∃ x, some (0 : Int) = some x ∧ x ≤ 0) ∧ (∃ x, some (7 : Int) = some x ∧ (x < 0 ∨ 6 < x)) :=
  ⟨by decide, by decide, by decide, by decide, by decide, ⟨0, rfl, by decide⟩, ⟨7, rfl, by decide⟩⟩

/-- Also of LoadBeginsARunOnRoundedSamples: the parameters by default and at their boundary. -/
theorem witness_FirstBadSampleIsReported :
    (1 ≤ (none : Option Int).getD 100 ∧ 0 ≤ (none : Option Int).getD 6 ∧ (none : Option Int).getD 6 ≤ 6) ∧
      (1 ≤ (some (1 : Int)).getD 100 ∧ 0 ≤ (some (0 : Int)).getD 6 ∧ (some (6 : Int)).getD 6 ≤ 6) ∧
      (∀ y ∈ ([0, 32767] : List Int), -32768 ≤ y ∧ y ≤ 32767) ∧
      ((-32769 : Int) < -32768 ∨ (32767 : Int) < -32769) ∧
      isCodeword (ints [0, 0, 0, 0, 0, 0]) = false ∧
      isCodeword [.value 0, .value 0, .value 0, .value 0, .value 0, .value 0, .undriven] = false ∧
      (∀ g ∈ [HostFloat.finite 2], ∃ q, g = .finite q) ∧ (∀ q, HostFloat.posInf ≠ .finite q) := by
  refine ⟨by decide, by decide, by decide, by decide, by decide, by decide, ?_, fun _ h => (by cases h)⟩
  intro g hg
  exact ⟨2, by simpa using hg⟩

theorem witness_RunKeepsNothingOfEarlierRuns :
    (∃ t, beginRun [] [1, -2, 4096] (some 2) (some 2) State.reset = .next t) ∧
      (withCmds [.begin [-32768, 32767] none (some 6)]).pending = [.begin [-32768, 32767] none (some 6)] ∧
      (1 ≤ (none : Option Int).getD 100 ∧ 0 ≤ (some (6 : Int)).getD 6 ∧ (some (6 : Int)).getD 6 ≤ 6) ∧
      (∀ x ∈ ([-32768, 32767] : List Int), -32768 ≤ x ∧ x ≤ 32767) := ⟨⟨_, rfl⟩, rfl, by decide, by decide⟩

theorem witness_DefaultCorruptionFlipsBitTwelve :
    (∀ x ∈ ([-100] : List Int), -32768 ≤ x ∧ x ≤ 32767) ∧ ([-100] : List Int)[0]? = some (-100) := by decide

/-- The two streams interleaved, the samples out of order. -/
theorem witness_StepwiseRunInAnyOrderGivesProcess :
    process 1 6 [0, 0] = .ok ([4096, 4096], [0, 0]) ∧ (∀ i, i ∈ [1, 0] ↔ i < ([0, 0] : List Int).length) ∧
      (∀ c : HostCmd,
        c ∈ [.decodeSample 1, .decodeRawSample 0, .decodeSample 0, .decodeRawSample 1] ↔
          ∃ i, i < ([0, 0] : List Int).length ∧ (c = .decodeRawSample i ∨ c = .decodeSample i)) := by
  refine ⟨rfl, fun i => by simp; omega, fun c => ⟨fun h => ?_, fun h => ?_⟩⟩
  · simp only [List.mem_cons, List.not_mem_nil, or_false] at h
    rcases h with rfl | rfl | rfl | rfl <;> simp
  · obtain ⟨i, hi, h⟩ := h
    have hi' : i = 0 ∨ i = 1 := by simp at hi; omega
    rcases hi' with rfl | rfl <;> rcases h with rfl | rfl <;> simp

/-- A run in which sample 0 waits to be encoded, and an index at the boundary of its length. -/
theorem witness_EncodeSampleWritesItsGroup :
    (State.reset.setRun (freshRun [] [-1] 1 6)).run.samples[0]? = some (-1) ∧
      (State.reset.setRun (freshRun [] [-1] 1 6)).run.samples.length ≤ 1 := by decide

/-- Also of CorruptionComesBeforeDecoding's decoding clause. -/
theorem witness_DecodingSamplesCommutes :
    (State.reset.setRun endedRun).run.cwCorrupt = some [⟨0x40#7, 0x00#7, 0x00#7, 0x00#7⟩] ∧
      0 < [(⟨0x40#7, 0x00#7, 0x00#7, 0x00#7⟩ : Quad Codeword)].length ∧
      ∃ t, decodeSample 0 (State.reset.setRun endedRun) = .next t := ⟨rfl, by decide, ⟨_, rfl⟩⟩

theorem witness_CorruptionComesBeforeDecoding :
    (freshRun [] [0] 1 6).cwCorrupt = none ∧ none ∈ (freshRun [] [0] 1 6).cwClean ∧
      endedRun.cwClean = [(⟨0x00#7, 0x00#7, 0x00#7, 0x00#7⟩ : Quad Codeword)].map some := by decide

theorem witness_EntryAdapterRoundsTheClippedProduct : (-1 : Rat) ≤ 1 ∧ (1 : Rat) ≤ 1 ∧ (-1 : Rat) ≤ -1 := by
  decide

theorem witness_SaveHandsOverThreeOutputs :
    endedRun.corrupted = [4096].map some ∧ endedRun.corrected = [0].map some ∧
      (freshRun [] [0] 1 6).ended = false ∧
      (freshRun [] [0] 1 6).corrupted.length = (freshRun [] [0] 1 6).samples.length ∧
      (freshRun [] [0] 1 6).corrected.length = (freshRun [] [0] 1 6).samples.length := by decide

/-- The names of the witness for the statements about programs. -/
def named : List (Name × Value) := [(0, .codeword [1, 1, 1, 1, 1, 1, 1])]

theorem witness_DecStatementNamesThreeOutputs :
    namesWf named = true ∧ lookupName 0 named = some (.codeword (codewordInts 0x7F#7)) ∧
      lookupName 1 named = none ∧ lookupName 2 named = none ∧ lookupName 3 named = none ∧
      (1 : Name) ≠ 2 ∧ (1 : Name) ≠ 3 ∧ (2 : Name) ≠ 3 := by decide

/-- The bit index at both ends, and on either side of them. -/
theorem witness_FlipStatementInvertsOneBit :
    lookupName 0 named = some (.codeword (codewordInts 0x7F#7)) ∧ lookupName 1 named = none ∧
      ((0 : Int) ≤ 0 ∧ (0 : Int) ≤ 6) ∧ ((0 : Int) ≤ 6 ∧ (6 : Int) ≤ 6) ∧ ((-1 : Int) < 0) ∧ ((6 : Int) < 7) := by
  decide

/-- The names of the witness for SPLIT, JOIN and ENC: a Sample and a nibble, each at an end of its range. -/
def sampleNamed0 : List (Name × Value) := [(0, .sample (-32768)), (1, .nibble 15)]

theorem witness_StatementsNameWhatTheirUnitGives :
    namesWf sampleNamed0 = true ∧ lookupName 0 sampleNamed0 = some (.sample (-32768)) ∧
      lookupName 1 sampleNamed0 = some (.nibble (15 : Nat)) ∧
      (∀ k ∈ [2, 3, 4, 5], lookupName k sampleNamed0 = none) ∧ [2, 3, 4, 5].Nodup := by decide

/-- A name not assigned beside one that holds a nibble, and names of the wrong kind; also of the clauses on such names
of DecStatementNamesThreeOutputs and FlipStatementInvertsOneBit. -/
theorem witness_UnassignedAndIllTypedNames :
    lookupName 2 sampleNamed0 = none ∧
      (∀ k ∈ [1, 2, 1, 1], ∀ v, lookupName k sampleNamed0 = some v → ∃ p : Nat, v = .nibble p ∧ p ≤ 15) ∧
      (∀ x, Value.nibble 15 ≠ .sample x) ∧ (∀ x, Value.sample (-32768) ≠ .nibble x) ∧
      (∀ x, Value.nibble 15 ≠ .codeword x) := by
  refine ⟨by decide, ?_, by simp, by simp, by simp⟩
  intro k hk v hv
  simp only [List.mem_cons, List.not_mem_nil, or_false] at hk
  rcases hk with rfl | rfl | rfl | rfl <;> simp [sampleNamed0, lookupName] at hv
  all_goals exact ⟨15, by simp [← hv], by decide⟩

/-- Names that hold what no port can hold: a Sample, a nibble and a list at the nearest bad values. -/
def badNames : List (Name × Value) := [(0, .sample 32768), (1, .nibble (-1)), (2, .codeword [0, 0, 0, 0, 0, 0, 2])]

theorem witness_NamesOfValuesNoPortCanHold :
    lookupName 0 badNames = some (.sample 32768) ∧ (32768 : Int) > 32767 ∧
      lookupName 1 badNames = some (.nibble (-1)) ∧ (-1 : Int) < 0 ∧
      lookupName 2 badNames = some (.codeword [0, 0, 0, 0, 0, 0, 2]) ∧
      (∃ b ∈ ([0, 0, 0, 0, 0, 0, 2] : List Int), b ≠ 0 ∧ b ≠ 1) ∧
      faultOf (exec (.join (.value (-1)) (.value (-1)) (.value (-1)) (.value (-1))) (State.reset.setNames badNames)) =
        some (.outOfRangeNibble (-1) (some 0)) := by decide

/-- R88: a FLIP of a list that is no codeword; that no index is recorded is the model's choice (log 19). -/
theorem test_stmt_flip_malformed :
    faultOf (runStmt (.flip 2 6 3) (State.reset.setNames badNames)) =
      some (.malformedCodeword (ints [0, 0, 0, 0, 0, 0, 2]) none) := by decide

theorem witness_NamesAreAssignedOnce :
    (0 ∈ (Stmt.flip 0 3 0).outputs ∧ 0 ∈ (Stmt.split 1 2 3 4 0).outputs ∧
      ¬ (Stmt.dec 0 1 1 2).outputs.Nodup) ∧
      namesWf named = true ∧ lookupName 0 named = some (.codeword [1, 1, 1, 1, 1, 1, 1]) ∧
      ∃ t, runStmt (.letValue 1 (.nibble 3)) (State.reset.setNames named) = .next t := ⟨by decide, rfl, rfl, ⟨_, rfl⟩⟩

end Sys2Proof.Machine.Tests
end

/-!
What each act of the host can change, said once, and from it the statements about the state: the invariant and its
step, the independence of the units, reading and driving ports, and the state after reset.
-/

namespace Sys2Proof.Machine

/-! ## The step and its command -/

/-- With a command waiting, a step is that command, run with it taken from the queue (R15; log 3). -/
theorem step_cons {s : State} {c : HostCmd} {rest : List HostCmd} (h : s.pending = c :: rest) :
    step s = runCmd c (s.setPending rest) := by
  simp [step, hostStep, h]

/-- With no command waiting, a step leaves the state as it is (log 3). -/
theorem step_nil {s : State} (h : s.pending = []) : step s = .next s := by
  simp [step, hostStep, h]

theorem runWord_of_decode {w : PortWord} {i : Instr} (h : decode w = .ok i) (s : State) :
    runWord w s = exec i s := by
  simp [runWord, h]

theorem runWord_of_reject {w : PortWord} {why : Reject} (h : decode w = .error why) (s : State) :
    runWord w s = .refused (.notAPortWord why) := by
  simp [runWord, h]

theorem decode_tableSelect {nbits w : Nat} {i : Instr} (h : decodeTableWord nbits w = some i) :
    decode (tableSelect nbits w) = .ok i := by
  unfold decodeTableWord at h
  split at h
  · rename_i j hj
    cases h
    exact hj
  · cases h

/-! ## What each host act answers, said once -/

theorem runRead_eq_next {q : OutPort} {s t : State} :
    runRead q s = .next t ↔ ∃ v, outputOf q s = .ok v ∧ t = s.setRead (.port q v) := by
  simp [runRead, orRaise_eq_next, @eq_comm _ t]

theorem callCorrupt_eq_next {groups : List (Quad (List Signal))} {stride bitIndex : Int} {s t : State} :
    callCorrupt groups stride bitIndex s = .next t ↔
      ∃ sk qs, takeParams stride bitIndex = .ok sk ∧ takeGroups 0 groups = .ok qs ∧
        t = s.setRead (.corrupted (corrupt sk.1 sk.2 qs)) := by
  simp only [callCorrupt, orRaise_eq_next, Host.Outcome.next.injEq, @eq_comm _ _ t, exists_and_left]

theorem beginRun_eq_next {original : List HostFloat} {samples : List Int} {stride bitIndex : Option Int}
    {s t : State} :
    beginRun original samples stride bitIndex s = .next t ↔
      ∃ sk, takeParams (stride.getD Config.defaultStride) (bitIndex.getD Config.defaultBitIndex) = .ok sk ∧
        checkSamples 0 samples = .ok () ∧ t = s.setRun (freshRun original samples sk.1 sk.2) := by
  simp [beginRun, orRaise_eq_next, Unique.exists_iff, @eq_comm _ t]

/-- A run on floats that begins is a run begun on the entry adapter's Samples (R85). -/
theorem beginRun_of_loadRun {floats : List HostFloat} {stride bitIndex : Option Int} {s t : State}
    (h : loadRun floats stride bitIndex s = .next t) :
    ∃ xs, entrySamples 0 floats = .ok xs ∧ beginRun floats xs stride bitIndex s = .next t := by
  obtain ⟨-, -, h⟩ := orRaise_eq_next.mp h
  exact orRaise_eq_next.mp h

theorem encodeSample_eq_next {i : Nat} {s t : State} :
    encodeSample i s = .next t ↔
      ∃ x, s.run.samples[i]? = some x ∧
        t = s.setRun { s.run with cwClean := s.run.cwClean.set i (some (encodeGroup x)) } := by
  unfold encodeSample
  cases s.run.samples[i]? <;> simp [eq_comm]

theorem corruptRun_eq_next {s t : State} :
    corruptRun s = .next t ↔
      ∃ qs, allWritten s.run.cwClean = some qs ∧
        t = s.setRun { s.run with cwCorrupt := some (corrupt s.run.stride s.run.bitIndex qs) } := by
  unfold corruptRun
  cases allWritten s.run.cwClean <;> simp [eq_comm]

theorem corruptWords_eq_ok {i : Nat} {r : Run} {q : Quad Codeword} :
    corruptWords i r = .ok q ↔ ∃ qs, r.cwCorrupt = some qs ∧ qs[i]? = some q := by
  unfold corruptWords
  cases r.cwCorrupt with
  | none => simp
  | some qs => cases hq : qs[i]? <;> simp [hq]

theorem decodeRawSample_eq_next {i : Nat} {s t : State} :
    decodeRawSample i s = .next t ↔
      ∃ q, corruptWords i s.run = .ok q ∧
        t = s.setRun { s.run with corrupted := s.run.corrupted.set i (some (rawSample q)) } := by
  unfold decodeRawSample
  cases corruptWords i s.run <;> simp [eq_comm]

theorem decodeSample_eq_next {i : Nat} {s t : State} :
    decodeSample i s = .next t ↔
      ∃ q, corruptWords i s.run = .ok q ∧
        t = s.setRun { s.run with corrected := s.run.corrected.set i (some (correctedSample q)) } := by
  unfold decodeSample
  cases corruptWords i s.run <;> simp [eq_comm]

theorem saveRun_eq_next {s t : State} :
    saveRun s = .next t ↔
      ∃ e c, allWritten s.run.corrupted = some e ∧ allWritten s.run.corrected = some c ∧
        t = s.setRun { s.run with
          saved := some { original := s.run.original, error := e.map exitFloat, corrected := c.map exitFloat } } := by
  unfold saveRun
  cases allWritten s.run.corrupted <;> cases allWritten s.run.corrected <;> simp [eq_comm]

/-! ## Statements of a program -/

/-- FLIP is the host's alone: it assigns a name and touches no unit (R48, R76). -/
theorem runFlip_onlyNewNames {c c2 : Name} {k : Int} {s t : State} (h : runFlip c k c2 s = .next t) :
    OnlyNewNames s t := by
  obtain ⟨sk, -, h⟩ := orRaise_eq_next.mp h
  obtain ⟨bits, -, h⟩ := orRefuse_eq_next.mp h
  obtain ⟨cw, -, h⟩ := orRaise_eq_next.mp h
  exact assign_onlyNewNames h

theorem runSplit_evaluates_then_assigns {n a b c d : Name} {s t : State} (h : runSplit n a b c d s = .next t) :
    ∃ i u, exec i s = .next u ∧ OnlyNewNames u t := by
  obtain ⟨x, -, h⟩ := orRefuse_eq_next.mp h
  obtain ⟨u, hu, h⟩ := andThen_eq_next.mp h
  obtain ⟨q, -, h⟩ := orRaise_eq_next.mp h
  obtain ⟨u1, h1, h⟩ := andThen_eq_next.mp h
  obtain ⟨u2, h2, h⟩ := andThen_eq_next.mp h
  obtain ⟨u3, h3, h⟩ := andThen_eq_next.mp h
  exact ⟨.split x, u, hu, (assign_onlyNewNames h1).trans <| (assign_onlyNewNames h2).trans <|
    (assign_onlyNewNames h3).trans (assign_onlyNewNames h)⟩

theorem runJoin_evaluates_then_assigns {a b c d n : Name} {s t : State} (h : runJoin a b c d n s = .next t) :
    ∃ i u, exec i s = .next u ∧ OnlyNewNames u t := by
  obtain ⟨n0, -, h⟩ := orRefuse_eq_next.mp h
  obtain ⟨n1, -, h⟩ := orRefuse_eq_next.mp h
  obtain ⟨n2, -, h⟩ := orRefuse_eq_next.mp h
  obtain ⟨n3, -, h⟩ := orRefuse_eq_next.mp h
  obtain ⟨u, hu, h⟩ := andThen_eq_next.mp h
  obtain ⟨v, -, h⟩ := orRaise_eq_next.mp h
  exact ⟨.join n0 n1 n2 n3, u, hu, assign_onlyNewNames h⟩

theorem runEnc_evaluates_then_assigns {n c : Name} {s t : State} (h : runEnc n c s = .next t) :
    ∃ i u, exec i s = .next u ∧ OnlyNewNames u t := by
  obtain ⟨d, -, h⟩ := orRefuse_eq_next.mp h
  obtain ⟨u, hu, h⟩ := andThen_eq_next.mp h
  obtain ⟨cw, -, h⟩ := orRaise_eq_next.mp h
  exact ⟨.encode d, u, hu, assign_onlyNewNames h⟩

theorem runDec_evaluates_then_assigns {c n y r : Name} {s t : State} (h : runDec c n y r s = .next t) :
    ∃ i u, exec i s = .next u ∧ OnlyNewNames u t := by
  obtain ⟨bits, -, h⟩ := orRefuse_eq_next.mp h
  obtain ⟨u, hu, h⟩ := andThen_eq_next.mp h
  obtain ⟨o, -, h⟩ := orRaise_eq_next.mp h
  obtain ⟨u1, h1, h⟩ := andThen_eq_next.mp h
  obtain ⟨u2, h2, h⟩ := andThen_eq_next.mp h
  exact ⟨.decode bits, u, hu, (assign_onlyNewNames h1).trans <| (assign_onlyNewNames h2).trans (assign_onlyNewNames h)⟩

/-- A statement that completes evaluates at most one unit, and then assigns new names (R48). -/
theorem runStmt_evaluates_then_assigns {st : Stmt} {s t : State} (h : runStmt st s = .next t) :
    ∃ u, (u = s ∨ ∃ i, exec i s = .next u) ∧ OnlyNewNames u t := by
  cases st with
  | letValue x v => exact ⟨s, .inl rfl, assign_onlyNewNames h⟩
  | split n a b c d =>
    obtain ⟨i, u, hu, ht⟩ := runSplit_evaluates_then_assigns h
    exact ⟨u, .inr ⟨i, hu⟩, ht⟩
  | join a b c d n =>
    obtain ⟨i, u, hu, ht⟩ := runJoin_evaluates_then_assigns h
    exact ⟨u, .inr ⟨i, hu⟩, ht⟩
  | enc n c =>
    obtain ⟨i, u, hu, ht⟩ := runEnc_evaluates_then_assigns h
    exact ⟨u, .inr ⟨i, hu⟩, ht⟩
  | dec c n y r =>
    obtain ⟨i, u, hu, ht⟩ := runDec_evaluates_then_assigns h
    exact ⟨u, .inr ⟨i, hu⟩, ht⟩
  | flip c k c2 => exact ⟨s, .inl rfl, runFlip_onlyNewNames h⟩

/-! ## Driven ports are canonical -/

theorem portOfSample_value (n : Int) : portOfSample (.value n) = (takeSample (.value n)).map Port.driven := by
  simp only [portOfSample, hasNoValue]
  cases takeSample (.value n) <;> rfl

theorem portOfNibble_value (port : InPort) (slot : Option Nat) (n : Int) :
    portOfNibble port slot (.value n) = (takeNibble port slot (.value n)).map Port.driven := by
  simp only [portOfNibble, hasNoValue]
  cases takeNibble port slot (.value n) <;> rfl

theorem canonical_of_map_driven {w : Nat} {x : Except Fault (BitVec w)} {p : Port w}
    (h : x.map Port.driven = .ok p) : p.canonical = true := by
  cases x <;> cases h
  exact Port.canonical_driven _

theorem portOfSample_canonical {x : Signal} {p : Port 16} (h : portOfSample x = .ok p) : p.canonical = true := by
  cases x with
  | value n => exact canonical_of_map_driven (portOfSample_value n ▸ h)
  | undriven | unknown | highZ =>
    cases h
    exact Port.canonical_undriven 16

theorem portOfNibble_canonical {port : InPort} {slot : Option Nat} {n : Signal} {p : Port 4}
    (h : portOfNibble port slot n = .ok p) : p.canonical = true := by
  cases n with
  | value n => exact canonical_of_map_driven (portOfNibble_value port slot n ▸ h)
  | undriven | unknown | highZ =>
    cases h
    exact Port.canonical_undriven 4

/-- Element i of a sequence gives bit i of the codeword port (R39), known where it is 0 or 1. -/
theorem testBit_levelsOf (bits : List Signal) (i : Nat) :
    (levelsOf bits).1.testBit i = decide (bits[i]?.bind bitOf = some true) ∧
      (levelsOf bits).2.testBit i = (bits[i]?.bind bitOf).isSome := by
  induction bits generalizing i with
  | nil => simp [levelsOf]
  | cons e rest ih =>
    cases i with
    | zero =>
      cases he : bitOf e with
      | none => simp [levelsOf, he]
      | some b => cases b <;> simp [levelsOf, he]
    | succ i =>
      cases he : bitOf e with
      | none => simp [levelsOf, he, Nat.testBit_succ, ih]
      | some b =>
        have hv : (2 * (levelsOf rest).1 + b.toNat) / 2 = (levelsOf rest).1 := by cases b <;> simp; omega
        have hk : (2 * (levelsOf rest).2 + 1) / 2 = (levelsOf rest).2 := by omega
        simp [levelsOf, he, Nat.testBit_succ, hv, hk, ih]

theorem portOfBits_canonical {bits : List Signal} {p : Port 7} (h : portOfBits bits = .ok p) :
    p.canonical = true := by
  by_cases hf : fitsCodewordPort bits = true
  · simp only [portOfBits, hf, if_true, Except.ok.injEq] at h
    subst h
    simp only [Port.canonical, decide_eq_true_eq]
    refine BitVec.eq_of_getLsbD_eq fun i _ => ?_
    obtain ⟨hv, hk⟩ := testBit_levelsOf bits i
    simp only [BitVec.getLsbD_and, BitVec.getLsbD_ofNat, hv, hk]
    cases bits[i]?.bind bitOf <;> simp +contextual
  · rw [portOfBits_misfit (by simpa using hf)] at h
    cases h

/-- Driving a port leaves it canonical and the other ports as they are. -/
theorem runDrive_keeps_ports {d : Drive} {s t : State} (h : runDrive d s = .next t) (hs : PortsCanonical s) :
    PortsCanonical t := by
  obtain ⟨h0, h1, h2, h3, h4, h5, h6⟩ := hs
  cases d <;> obtain ⟨p, hp, h⟩ := orRaise_eq_next.mp h <;> cases h
  case splitter => exact ⟨portOfSample_canonical hp, h1, h2, h3, h4, h5, h6⟩
  case joiner0 => exact ⟨h0, portOfNibble_canonical hp, h2, h3, h4, h5, h6⟩
  case joiner1 => exact ⟨h0, h1, portOfNibble_canonical hp, h3, h4, h5, h6⟩
  case joiner2 => exact ⟨h0, h1, h2, portOfNibble_canonical hp, h4, h5, h6⟩
  case joiner3 => exact ⟨h0, h1, h2, h3, portOfNibble_canonical hp, h5, h6⟩
  case encoder => exact ⟨h0, h1, h2, h3, h4, portOfNibble_canonical hp, h6⟩
  case decoder => exact ⟨h0, h1, h2, h3, h4, h5, portOfBits_canonical hp⟩

/-- Driving a port touches nothing of the host's. -/
theorem runDrive_keeps_host {d : Drive} {s t : State} (h : runDrive d s = .next t) :
    t.names = s.names ∧ t.run = s.run ∧ t.pending = s.pending := by
  cases d <;> obtain ⟨p, -, h⟩ := orRaise_eq_next.mp h <;> cases h <;> exact ⟨rfl, rfl, rfl⟩

/-! ## The buffers of a run -/

theorem takeParams_bounds {stride bitIndex : Int} {sk : Nat × Nat} (h : takeParams stride bitIndex = .ok sk) :
    1 ≤ sk.1 ∧ sk.2 ≤ 6 := by
  obtain ⟨hs, hb, hb', rfl⟩ := takeParams_eq_ok.mp h
  constructor <;> dsimp only <;> omega

theorem freshRun_consistent {original : List HostFloat} {samples : List Int} {stride bitIndex : Nat}
    (hs : 1 ≤ stride) (hb : bitIndex ≤ 6) (hx : ∀ x ∈ samples, -32768 ≤ x ∧ x ≤ 32767) :
    RunConsistent (freshRun original samples stride bitIndex) where
  stride_pos := hs
  bitIndex_le := hb
  samples_ok := hx
  clean_len := List.length_replicate
  corrupted_len := List.length_replicate
  corrected_len := List.length_replicate
  clean_ok i q h := by simp [freshRun, List.getElem?_replicate] at h
  corrupt_ok qs h := by cases h
  corrupted_ok i y h := by simp [freshRun, List.getElem?_replicate] at h
  corrected_ok i y h := by simp [freshRun, List.getElem?_replicate] at h

/-- What a buffer holds after one element is written: the old element, or the new one at its index. -/
theorem getElem?_set_some {α : Type} {l : List (Option α)} {i j : Nat} {a b : α}
    (h : (l.set i (some a))[j]? = some (some b)) : (j = i ∧ b = a) ∨ l[j]? = some (some b) := by
  rw [List.getElem?_set] at h
  split at h
  · rename_i hij
    split at h
    · exact .inl ⟨hij.symm, Option.some.inj (Option.some.inj h) |>.symm⟩
    · cases h
  · exact .inr h

/-- A clean array of which every element is written is the input's codewords, in order (R80). -/
theorem RunConsistent.clean_eq {r : Run} (hr : RunConsistent r) {qs : List (Quad Codeword)}
    (h : allWritten r.cwClean = some qs) : qs = r.samples.map encodeGroup := by
  have hq := allWritten_eq_some.mp h
  have hlen : qs.length = r.samples.length := by
    rw [← hr.clean_len, hq, List.length_map]
  refine List.ext_getElem? fun i => ?_
  cases hi : qs[i]? with
  | none =>
    have hle : r.samples.length ≤ i := hlen ▸ List.getElem?_eq_none_iff.mp hi
    rw [List.getElem?_map, List.getElem?_eq_none hle, Option.map_none]
  | some q => rw [List.getElem?_map, hr.clean_ok i q (by simp [hq, hi])]

/-- The words a decode takes are the expected ones at its index (R81). -/
theorem RunConsistent.corruptWords_eq {r : Run} (hr : RunConsistent r) {i : Nat} {q : Quad Codeword}
    (h : corruptWords i r = .ok q) : r.expectedCorrupt[i]? = some q := by
  obtain ⟨qs, hqs, hq⟩ := corruptWords_eq_ok.mp h
  rw [← hr.corrupt_ok qs hqs, hq]

/-- The corrected decoding of the expected words at an index is the input Sample there (R78). -/
theorem RunConsistent.corrected_eq_sample {r : Run} (hr : RunConsistent r) {i : Nat} {q : Quad Codeword}
    (h : r.expectedCorrupt[i]? = some q) : r.samples[i]? = some (correctedSample q) := by
  simp only [Run.expectedCorrupt, getElem?_corrupt, List.getElem?_map, Option.map_map, Option.map_eq_some_iff,
    Function.comp_apply] at h
  obtain ⟨x, hx, rfl⟩ := h
  obtain ⟨hlo, hhi⟩ := hr.samples_ok x (List.mem_of_getElem? hx)
  rw [hx, correctedSample_corruptGroup hr.bitIndex_le hlo hhi]

theorem RunConsistent.write_clean {r : Run} (hr : RunConsistent r) {i : Nat} {x : Int}
    (hx : r.samples[i]? = some x) :
    RunConsistent { r with cwClean := r.cwClean.set i (some (encodeGroup x)) } :=
  { hr with
    clean_len := by simp [hr.clean_len]
    clean_ok := fun j q h => by
      obtain ⟨rfl, rfl⟩ | h := getElem?_set_some h
      · simp [hx]
      · exact hr.clean_ok j q h }

theorem RunConsistent.write_corrupt {r : Run} (hr : RunConsistent r) {qs : List (Quad Codeword)}
    (hq : allWritten r.cwClean = some qs) :
    RunConsistent { r with cwCorrupt := some (corrupt r.stride r.bitIndex qs) } :=
  { hr with
    corrupt_ok := fun ws h => by
      rw [hr.clean_eq hq] at h
      exact (Option.some.inj h).symm }

theorem RunConsistent.write_corrupted {r : Run} (hr : RunConsistent r) {i : Nat} {q : Quad Codeword}
    (hq : corruptWords i r = .ok q) :
    RunConsistent { r with corrupted := r.corrupted.set i (some (rawSample q)) } :=
  { hr with
    corrupted_len := by simp [hr.corrupted_len]
    corrupted_ok := fun j y h => by
      obtain ⟨rfl, rfl⟩ | h := getElem?_set_some h
      · change (r.expectedCorrupt[j]?).map rawSample = _
        rw [hr.corruptWords_eq hq, Option.map_some]
      · exact hr.corrupted_ok j y h }

theorem RunConsistent.write_corrected {r : Run} (hr : RunConsistent r) {i : Nat} {q : Quad Codeword}
    (hq : corruptWords i r = .ok q) :
    RunConsistent { r with corrected := r.corrected.set i (some (correctedSample q)) } :=
  { hr with
    corrected_len := by simp [hr.corrected_len]
    corrected_ok := fun j y h => by
      obtain ⟨rfl, rfl⟩ | h := getElem?_set_some h
      · exact hr.corrected_eq_sample (hr.corruptWords_eq hq)
      · exact hr.corrected_ok j y h }

theorem RunConsistent.write_saved {r : Run} (hr : RunConsistent r) (o : Option Saved) :
    RunConsistent { r with saved := o } := { hr with }

/-! ## What keeps the invariant -/

theorem State.Inv.setRead {s : State} (hs : s.Inv) (r : Readout) : (s.setRead r).Inv :=
  ⟨hs.ports, hs.names, hs.run⟩

theorem State.Inv.setPending {s : State} (hs : s.Inv) (c : List HostCmd) : (s.setPending c).Inv :=
  ⟨hs.ports, hs.names, hs.run⟩

theorem State.Inv.passTime {s : State} (hs : s.Inv) (t : Nat) : (s.passTime t).Inv :=
  ⟨hs.ports, hs.names, hs.run⟩

theorem State.Inv.setRun {s : State} (hs : s.Inv) {r : Run} (hr : RunConsistent r) : (s.setRun r).Inv :=
  ⟨hs.ports, hs.names, hr⟩

theorem State.Inv.onlyNewNames {s t : State} (hs : s.Inv) (h : OnlyNewNames s t) : t.Inv := by
  obtain ⟨n, rfl, hn, -⟩ := h
  exact ⟨hs.ports, hn hs.names, hs.run⟩

/-- An act on the ports alone, which leaves them canonical, keeps the invariant. -/
theorem State.Inv.of_ports {s t : State} (hs : s.Inv) (hp : PortsCanonical t) (hn : t.names = s.names)
    (hr : t.run = s.run) : t.Inv :=
  ⟨hp, by rw [NamesRising, hn]; exact hs.names, by rw [hr]; exact hs.run⟩

theorem exec_keeps_inv {i : Instr} {s t : State} (h : exec i s = .next t) (hs : s.Inv) : t.Inv := by
  obtain ⟨hn, hr, -⟩ := exec_keeps_host h
  exact hs.of_ports (exec_keeps_ports h hs.ports) hn hr

theorem runWord_keeps_inv {w : PortWord} {s t : State} (h : runWord w s = .next t) (hs : s.Inv) : t.Inv := by
  cases hw : decode w with
  | ok i =>
    rw [runWord_of_decode hw] at h
    exact exec_keeps_inv h hs
  | error why =>
    rw [runWord_of_reject hw] at h
    cases h

theorem runDrive_keeps_inv {d : Drive} {s t : State} (h : runDrive d s = .next t) (hs : s.Inv) : t.Inv := by
  obtain ⟨hn, hr, -⟩ := runDrive_keeps_host h
  exact hs.of_ports (runDrive_keeps_ports h hs.ports) hn hr

theorem runStmt_keeps_inv {st : Stmt} {s t : State} (h : runStmt st s = .next t) (hs : s.Inv) : t.Inv := by
  obtain ⟨u, hu, ht⟩ := runStmt_evaluates_then_assigns h
  obtain rfl | ⟨i, hi⟩ := hu
  · exact hs.onlyNewNames ht
  · exact (exec_keeps_inv hi hs).onlyNewNames ht

theorem beginRun_keeps_inv {original : List HostFloat} {samples : List Int} {stride bitIndex : Option Int}
    {s t : State} (h : beginRun original samples stride bitIndex s = .next t) (hs : s.Inv) : t.Inv := by
  obtain ⟨sk, hsk, hx, rfl⟩ := beginRun_eq_next.mp h
  obtain ⟨hstride, hbit⟩ := takeParams_bounds hsk
  exact hs.setRun (freshRun_consistent hstride hbit (checkSamples_eq_ok.mp hx))

/-- Every command of the host keeps the invariant. -/
theorem runCmd_keeps_inv {c : HostCmd} {s t : State} (h : runCmd c s = .next t) (hs : s.Inv) : t.Inv := by
  cases c with
  | evaluate w => exact runWord_keeps_inv h hs
  | present i => exact exec_keeps_inv h hs
  | drive d => exact runDrive_keeps_inv h hs
  | wait k =>
    cases h
    exact hs.passTime k
  | read q =>
    obtain ⟨v, -, rfl⟩ := runRead_eq_next.mp h
    exact hs.setRead _
  | stmt st => exact runStmt_keeps_inv h hs
  | corrupt groups stride bitIndex =>
    obtain ⟨sk, qs, -, -, rfl⟩ := callCorrupt_eq_next.mp h
    exact hs.setRead _
  | begin samples stride bitIndex => exact beginRun_keeps_inv h hs
  | load floats stride bitIndex =>
    obtain ⟨xs, -, h⟩ := beginRun_of_loadRun h
    exact beginRun_keeps_inv h hs
  | encodeSample i =>
    obtain ⟨x, hx, rfl⟩ := encodeSample_eq_next.mp h
    exact hs.setRun (hs.run.write_clean hx)
  | corruptAll =>
    obtain ⟨qs, hq, rfl⟩ := corruptRun_eq_next.mp h
    exact hs.setRun (hs.run.write_corrupt hq)
  | decodeRawSample i =>
    obtain ⟨q, hq, rfl⟩ := decodeRawSample_eq_next.mp h
    exact hs.setRun (hs.run.write_corrupted hq)
  | decodeSample i =>
    obtain ⟨q, hq, rfl⟩ := decodeSample_eq_next.mp h
    exact hs.setRun (hs.run.write_corrected hq)
  | save =>
    obtain ⟨e, c, -, -, rfl⟩ := saveRun_eq_next.mp h
    exact hs.setRun (hs.run.write_saved _)

/-- Settles O38: every command keeps the invariant, and taking it from the queue does too. -/
theorem stepKeepsTheInvariant : Obligations.StepKeepsTheInvariant := by
  intro s t hs h
  cases hp : s.pending with
  | nil =>
    rw [step_nil hp] at h
    cases h
    exact hs
  | cons c rest =>
    rw [step_cons hp] at h
    exact runCmd_keeps_inv h (hs.setPending rest)

/-- Settles O37: no port is driven, no name is assigned, and the buffers are those of a run of no sample. -/
theorem resetSatisfiesTheInvariant : Obligations.ResetSatisfiesTheInvariant where
  ports := by simp [PortsCanonical, State.reset]
  names := rfl
  run := freshRun_consistent (original := []) (samples := []) (stride := 100) (bitIndex := 6)
    (by omega) (by omega) (by simp)

/-! ## Each output is its own unit's -/

theorem splitterOut_congr {s t : State} (hp : t.splitterIn = s.splitterIn)
    (hs : t.splitterSettle = s.splitterSettle) : splitterOut t = splitterOut s := by
  simp only [splitterOut, hp, hs]

theorem joinerOut_congr {s t : State} (hp : t.joinerIn = s.joinerIn)
    (hs : t.joinerSettle = s.joinerSettle) : joinerOut t = joinerOut s := by
  simp only [joinerOut, hp, hs]

theorem encoderOut_congr {s t : State} (hp : t.encoderIn = s.encoderIn)
    (hs : t.encoderSettle = s.encoderSettle) : encoderOut t = encoderOut s := by
  simp only [encoderOut, hp, hs]

theorem decoderOut_congr {s t : State} (hp : t.decoderIn = s.decoderIn)
    (hs : t.decoderSettle = s.decoderSettle) : decoderOut t = decoderOut s := by
  simp only [decoderOut, hp, hs]

/-- An evaluation of the decoder, of either reading, leaves the other units' outputs. -/
theorem setDecoder_setRead_keeps_outputs (s : State) (p : Port 7) (k : Settle) (r : Readout) :
    splitterOut ((s.setDecoder p k).setRead r) = splitterOut s ∧
      joinerOut ((s.setDecoder p k).setRead r) = joinerOut s ∧
      encoderOut ((s.setDecoder p k).setRead r) = encoderOut s :=
  ⟨splitterOut_congr rfl rfl, joinerOut_congr rfl rfl, encoderOut_congr rfl rfl⟩

/-- A well-formed operation completes in every state (R45). -/
theorem exec_completes_of_wf {i : Instr} (h : i.wf = true) (s : State) : ∃ t, exec i s = .next t := by
  cases i with
  | split x =>
    obtain ⟨u, hu⟩ := Laws.EncodingFits.sampleOf_isSome h
    cases x with
    | value n => exact ⟨_, execSplit_eq_next.mpr ⟨u, by simp [takeSample, hu], rfl⟩⟩
    | undriven | unknown | highZ => cases h
  | join n0 n1 n2 n3 =>
    simp only [Instr.wf, Bool.and_eq_true] at h
    obtain ⟨⟨⟨h0, h1⟩, h2⟩, h3⟩ := h
    obtain ⟨a, ha⟩ := Laws.EncodingFits.nibbleOf_isSome h0
    obtain ⟨b, hb⟩ := Laws.EncodingFits.nibbleOf_isSome h1
    obtain ⟨c, hc⟩ := Laws.EncodingFits.nibbleOf_isSome h2
    obtain ⟨d, hd⟩ := Laws.EncodingFits.nibbleOf_isSome h3
    exact ⟨_, execJoin_eq_next.mpr ⟨⟨a, b, c, d⟩, takeNibbles_eq_ok.mpr ⟨ha, hb, hc, hd⟩, rfl⟩⟩
  | encode d =>
    obtain ⟨n, hn⟩ := Laws.EncodingFits.nibbleOf_isSome h
    exact ⟨_, execEncode_eq_next.mpr ⟨n, hn, rfl⟩⟩
  | decode bits =>
    obtain ⟨cw, hcw⟩ := Laws.EncodingFits.codewordOf_isSome h
    exact ⟨_, execDecode_eq_next.mpr ⟨cw, codewordOf_eq_some.mp hcw, rfl⟩⟩
  | decodeRaw bits =>
    obtain ⟨cw, hcw⟩ := Laws.EncodingFits.codewordOf_isSome h
    exact ⟨_, execDecodeRaw_eq_next.mpr ⟨cw, codewordOf_eq_some.mp hcw, rfl⟩⟩

/-- Settles O29: an evaluation sets its own unit's port and age and what the host read; another unit's output is a
function of its own port and age. -/
theorem evaluationsAreIndependent : Obligations.EvaluationsAreIndependent := by
  intro s t
  refine ⟨fun i h => exec_completes_of_wf h s, fun x h => ?split, fun a b c d h => ?join, fun d h => ?encode,
    fun bits h => ?decode, fun i h => exec_keeps_host h⟩
  case split =>
    obtain ⟨u, -, rfl⟩ := execSplit_eq_next.mp h
    exact ⟨joinerOut_congr rfl rfl, encoderOut_congr rfl rfl, decoderOut_congr rfl rfl⟩
  case join =>
    obtain ⟨q, -, rfl⟩ := execJoin_eq_next.mp h
    exact ⟨splitterOut_congr rfl rfl, encoderOut_congr rfl rfl, decoderOut_congr rfl rfl⟩
  case encode =>
    obtain ⟨n, -, rfl⟩ := execEncode_eq_next.mp h
    exact ⟨splitterOut_congr rfl rfl, joinerOut_congr rfl rfl, decoderOut_congr rfl rfl⟩
  case decode =>
    obtain h | h := h
    · obtain ⟨cw, -, rfl⟩ := execDecode_eq_next.mp h
      exact setDecoder_setRead_keeps_outputs s _ _ _
    · obtain ⟨cw, -, rfl⟩ := execDecodeRaw_eq_next.mp h
      exact setDecoder_setRead_keeps_outputs s _ _ _

/-! ## Reading an output port -/

theorem runRead_of_ok {q : OutPort} {s : State} {v : Nat} (h : outputOf q s = .ok v) :
    runRead q s = .next (s.setRead (.port q v)) := runRead_eq_next.mpr ⟨v, h, rfl⟩

theorem runRead_of_error {q : OutPort} {s : State} {f : Fault} (h : outputOf q s = .error f) :
    runRead q s = .fault f := by
  simp [runRead, h]

theorem splitterOut_driven {s : State} {u : SamplePattern} (hp : s.splitterIn = Port.driven u)
    (hs : s.splitterSettle.over = true) : splitterOut s = .ok (splitNibbles u) := by
  simp [splitterOut, hp, inputValue_over _ u hs]

theorem joinerOut_driven {s : State} {q : Quad Nibble} (hp : s.joinerIn = q.map Port.driven)
    (hs : s.joinerSettle.over = true) : joinerOut s = .ok (joinNibbles q) := by
  simp [joinerOut, hp, Quad.map, inputValue_over _ _ hs]

theorem encoderOut_driven {s : State} {d : Nibble} (hp : s.encoderIn = Port.driven d)
    (hs : s.encoderSettle.over = true) : encoderOut s = .ok (hammingEncode d) := by
  simp [encoderOut, hp, inputValue_over _ d hs]

theorem decoderOut_driven {s : State} {cw : Codeword} (hp : s.decoderIn = Port.driven cw)
    (hs : s.decoderSettle.over = true) :
    decoderOut s = .ok ⟨hammingDecode cw, syndromeOf cw, hammingDecodeRaw cw⟩ := by
  simp [decoderOut, hp, inputValue_over _ cw hs]

/-- The four fields as numbers (R49, R50). -/
theorem splitNibbles_toNat (u : SamplePattern) :
    (splitNibbles u).s0.toNat = u.toNat / 4096 ∧ (splitNibbles u).s1.toNat = u.toNat / 256 % 16 ∧
      (splitNibbles u).s2.toNat = u.toNat / 16 % 16 ∧ (splitNibbles u).s3.toNat = u.toNat % 16 := by
  have := u.isLt
  simp only [splitNibbles, fields16, BitVec.extractLsb'_toNat, Nat.shiftRight_eq_div_pow, true_and]
  omega

/-- The syndrome port's value is `pos` (R61, R64). -/
theorem syndromeOf_toNat (cw : Codeword) : (syndromeOf cw).toNat = pos cw := by
  revert cw; decide

/-- Settles O31: each output port is its unit's function of the driven, settled input, as a number. -/
theorem outputPortsFollowTheInputs : Obligations.OutputPortsFollowTheInputs := by
  intro s
  refine ⟨fun u hp hs => ?splitter, fun a b c d hp hs => ?joiner, fun d hp hs => ?encoder, fun cw hp hs => ?decoder⟩
  case splitter =>
    have hout := splitterOut_driven hp hs
    obtain ⟨h0, h1, h2, h3⟩ := splitNibbles_toNat u
    refine ⟨runRead_of_ok ?_, runRead_of_ok ?_, runRead_of_ok ?_, runRead_of_ok ?_⟩
    · simp [outputOf, hout, Except.map, h0]
    · simp [outputOf, hout, Except.map, h1]
    · simp [outputOf, hout, Except.map, h2]
    · simp [outputOf, hout, Except.map, h3]
  case joiner =>
    have hout := joinerOut_driven (q := ⟨a, b, c, d⟩) hp hs
    exact runRead_of_ok (by simp [outputOf, hout, Except.map, joinNibbles, concat16_toNat])
  case encoder =>
    have hout := encoderOut_driven hp hs
    exact runRead_of_ok (by simp [outputOf, hout, Except.map])
  case decoder =>
    have hout := decoderOut_driven hp hs
    refine ⟨runRead_of_ok ?_, runRead_of_ok ?_, runRead_of_ok ?_⟩
    · simp [outputOf, hout, Except.map]
    · simp [outputOf, hout, Except.map, syndromeOf_toNat]
    · simp [outputOf, hout, Except.map, hammingDecodeRaw]

/-! ## Commands that drive no port -/

/-- A command that evaluates and drives nothing: of the statements, only LET and FLIP (R48, R73). -/
def HostCmd.DrivesNoPort (c : HostCmd) : Prop :=
  (∀ w, c ≠ .evaluate w) ∧ (∀ i, c ≠ .present i) ∧ (∀ d, c ≠ .drive d) ∧
    ∀ st, c = .stmt st → (∃ x v, st = .letValue x v) ∨ ∃ x k y, st = .flip x k y

/-- LET and FLIP change the names alone. -/
theorem runStmt_letFlip_onlyNewNames {st : Stmt} {s t : State}
    (hst : (∃ x v, st = .letValue x v) ∨ ∃ x k y, st = .flip x k y) (h : runStmt st s = .next t) :
    OnlyNewNames s t := by
  obtain ⟨x, v, rfl⟩ | ⟨x, k, y, rfl⟩ := hst
  · exact assign_onlyNewNames h
  · exact runFlip_onlyNewNames h

/-- The one thing a command that drives no port can change: the names, by a statement; else the units' ages, what the
host read, or the run. -/
theorem runCmd_drivesNoPort {c : HostCmd} (hc : c.DrivesNoPort) {s t : State} (h : runCmd c s = .next t) :
    (∃ st n, c = .stmt st ∧ t = s.setNames n) ∨
      (∀ st, c ≠ .stmt st) ∧ ((∃ k, t = s.passTime k) ∨ (∃ r, t = s.setRead r) ∨ ∃ r, t = s.setRun r) := by
  obtain ⟨hword, hpresent, hdrive, hstmt⟩ := hc
  cases c with
  | evaluate w => exact absurd rfl (hword w)
  | present i => exact absurd rfl (hpresent i)
  | drive d => exact absurd rfl (hdrive d)
  | stmt st =>
    obtain ⟨n, rfl, -⟩ := runStmt_letFlip_onlyNewNames (hstmt st rfl) h
    exact .inl ⟨st, n, rfl, rfl⟩
  | wait k =>
    cases h
    exact .inr ⟨nofun, .inl ⟨k, rfl⟩⟩
  | read q =>
    obtain ⟨v, -, rfl⟩ := runRead_eq_next.mp h
    exact .inr ⟨nofun, .inr (.inl ⟨_, rfl⟩)⟩
  | corrupt groups stride bitIndex =>
    obtain ⟨sk, qs, -, -, rfl⟩ := callCorrupt_eq_next.mp h
    exact .inr ⟨nofun, .inr (.inl ⟨_, rfl⟩)⟩
  | begin samples stride bitIndex =>
    obtain ⟨sk, -, -, rfl⟩ := beginRun_eq_next.mp h
    exact .inr ⟨nofun, .inr (.inr ⟨_, rfl⟩)⟩
  | load floats stride bitIndex =>
    obtain ⟨xs, -, h⟩ := beginRun_of_loadRun h
    obtain ⟨sk, -, -, rfl⟩ := beginRun_eq_next.mp h
    exact .inr ⟨nofun, .inr (.inr ⟨_, rfl⟩)⟩
  | encodeSample i =>
    obtain ⟨x, -, rfl⟩ := encodeSample_eq_next.mp h
    exact .inr ⟨nofun, .inr (.inr ⟨_, rfl⟩)⟩
  | corruptAll =>
    obtain ⟨qs, -, rfl⟩ := corruptRun_eq_next.mp h
    exact .inr ⟨nofun, .inr (.inr ⟨_, rfl⟩)⟩
  | decodeRawSample i =>
    obtain ⟨q, -, rfl⟩ := decodeRawSample_eq_next.mp h
    exact .inr ⟨nofun, .inr (.inr ⟨_, rfl⟩)⟩
  | decodeSample i =>
    obtain ⟨q, -, rfl⟩ := decodeSample_eq_next.mp h
    exact .inr ⟨nofun, .inr (.inr ⟨_, rfl⟩)⟩
  | save =>
    obtain ⟨e, d, -, -, rfl⟩ := saveRun_eq_next.mp h
    exact .inr ⟨nofun, .inr (.inr ⟨_, rfl⟩)⟩

/-- Settles O36: names, ages, the reading and the run are no input port. -/
theorem onlyDrivingChangesInputPorts : Obligations.OnlyDrivingChangesInputPorts := by
  intro s t c rest hp h hc
  rw [step_cons hp] at h
  obtain ⟨st, n, rfl, rfl⟩ | ⟨hst, ⟨k, rfl⟩ | ⟨r, rfl⟩ | ⟨r, rfl⟩⟩ := runCmd_drivesNoPort hc h
  · exact ⟨rfl, rfl, rfl, rfl, rfl, fun hst => absurd rfl (hst st), fun _ _ => rfl⟩
  all_goals exact ⟨rfl, rfl, rfl, rfl, rfl, fun _ => rfl, fun st hc => absurd hc (hst st)⟩

/-! ## Driving a port -/

/-- A drive that changes nothing starts no new settling time (log 4). -/
theorem Settle.afterDrive_decide_ne {α : Type} [DecidableEq α] (old : Settle) (new was : α) :
    old.afterDrive (decide (new ≠ was)) = if was = new then old else .since 0 := by
  by_cases h : was = new
  · simp [Settle.afterDrive, h]
  · simp [Settle.afterDrive, h, Ne.symm h]

theorem takeSample_out {x : Int} (h : x < -32768 ∨ 32767 < x) :
    takeSample (.value x) = .error (.outOfRangeSample (.integer x) none) := by
  have h' : ¬ (-32768 ≤ x ∧ x ≤ 32767) := by omega
  simp [takeSample, sampleOf, Config.sampleMin, Config.sampleMax, h']

theorem portOfSample_signed16 (u : SamplePattern) : portOfSample (.value (signed16 u)) = .ok (Port.driven u) := by
  obtain ⟨hlo, hhi⟩ := signed16_range u
  rw [portOfSample_value, takeSample_value hlo hhi, unsigned16_signed16]
  rfl

theorem portOfNibble_toNat (port : InPort) (slot : Option Nat) (n : Nibble) :
    portOfNibble port slot (.value n.toNat) = .ok (Port.driven n) := by
  have hn : takeNibble port slot (.value n.toNat) = .ok n := takeNibble_eq_ok.mpr (nibbleOf_nibbleSignal n)
  rw [portOfNibble_value, hn]
  rfl

theorem driveJoiner_nibble (port : InPort) (slot : Nat) (put : Quad (Port 4) → Port 4 → Quad (Port 4)) (n : Nibble)
    (s : State) :
    driveJoiner port slot put (.value n.toNat) s = .next (s.setJoiner (put s.joinerIn (Port.driven n))
      (if s.joinerIn = put s.joinerIn (Port.driven n) then s.joinerSettle else .since 0)) := by
  simp only [driveJoiner, portOfNibble_toNat, orRaise_ok, Settle.afterDrive_decide_ne]

theorem portOfSample_out {x : Int} (h : x < -32768 ∨ 32767 < x) :
    portOfSample (.value x) = .error (.outOfRangeSample (.integer x) none) := by
  rw [portOfSample_value, takeSample_out h]
  rfl

theorem portOfNibble_out {n : Int} (port : InPort) (slot : Option Nat) (h : n < 0 ∨ 15 < n) :
    portOfNibble port slot (.value n) = .error (.outOfRangeNibble n slot) := by
  rw [portOfNibble_value, takeNibble_out port slot h]
  rfl

theorem driveJoiner_out {n : Int} (h : n < 0 ∨ 15 < n) (port : InPort) (slot : Nat)
    (put : Quad (Port 4) → Port 4 → Quad (Port 4)) (s : State) :
    driveJoiner port slot put (.value n) s = .fault (.outOfRangeNibble n (some slot)) := by
  simp only [driveJoiner, portOfNibble_out port (some slot) h, orRaise_error]

theorem integers_haveValue (bits : List Int) : (bits.map Signal.value).any hasNoValue = false := by
  simp only [List.any_map, List.any_eq_false]
  exact fun _ _ => Bool.false_ne_true

/-- Integers that are not 7 bits do not fit the codeword port (R88). -/
theorem fitsCodewordPort_integers {bits : List Int} (h : bits.length ≠ 7 ∨ ∃ b ∈ bits, b ≠ 0 ∧ b ≠ 1) :
    fitsCodewordPort (bits.map Signal.value) = false := by
  rw [fitsCodewordPort, Bool.and_eq_false_iff]
  obtain hlen | ⟨b, hb, h0, h1⟩ := h
  · exact .inl (by simpa using hlen)
  · refine .inr (List.all_eq_false.mpr ⟨.value b, List.mem_map_of_mem hb, ?_⟩)
    simp only [fitsBit, hasNoValue, Signal.isBit, Signal.inRange, Bool.false_or, Bool.and_eq_true, decide_eq_true_eq]
    omega

theorem portOfBits_malformed {bits : List Int} (h : bits.length ≠ 7 ∨ ∃ b ∈ bits, b ≠ 0 ∧ b ≠ 1) :
    portOfBits (bits.map Signal.value) = .error (.malformedCodeword (bits.map .value) none) := by
  rw [portOfBits_misfit (fitsCodewordPort_integers h), integers_haveValue]
  rfl

/-- Settles O56: the boundary turns a value that fits into a driven port, which is set, and any other into its fault. -/
theorem drivingSetsOnePortOrIsRefused : Obligations.DrivingSetsOnePortOrIsRefused := by
  intro s
  refine ⟨fun u => ?splitter, fun n d q hd => ?joiner, fun n => ?encoder, fun cw => ?decoder, fun x hx => ?badSample,
    fun n hn => ?badNibble, fun bits hbits => ?badCodeword⟩
  case splitter =>
    simp only [runDrive, driveSplitter, portOfSample_signed16, orRaise_ok, Settle.afterDrive_decide_ne]
    rfl
  case joiner =>
    obtain ⟨rfl, rfl⟩ | ⟨rfl, rfl⟩ | ⟨rfl, rfl⟩ | ⟨rfl, rfl⟩ := hd <;>
      simp only [runDrive, driveJoiner_nibble] <;> rfl
  case encoder =>
    simp only [runDrive, driveEncoder, portOfNibble_toNat, orRaise_ok, Settle.afterDrive_decide_ne]
    rfl
  case decoder =>
    simp only [runDrive, driveDecoder, portOfBits_codewordSignals, orRaise_ok, Settle.afterDrive_decide_ne]
    rfl
  case badSample => simp only [runDrive, driveSplitter, portOfSample_out hx, orRaise_error]
  case badNibble =>
    simp only [runDrive, driveJoiner_out hn, driveEncoder, portOfNibble_out _ _ hn, orRaise_error, and_self]
  case badCodeword => simp only [runDrive, driveDecoder, portOfBits_malformed hbits, orRaise_error]

/-! ## The step, and the state after reset -/

/-- Settles O6: a step is the next command, run with the queue shortened. -/
theorem stepRunsTheDecodedOperation : Obligations.StepRunsTheDecodedOperation := by
  intro s rest u
  refine ⟨fun w i h hd => ?_, fun w why h hd => ?_, fun i h => step_cons h, step_nil, fun d h => step_cons h,
    fun t h => step_cons h, fun q h => step_cons h, fun st h => step_cons h, fun g x y h => step_cons h,
    fun xs x y h => step_cons h, fun fs x y h => step_cons h, fun i h => step_cons h, step_cons,
    fun i h => step_cons h, fun i h => step_cons h, step_cons⟩
  · exact (step_cons h).trans (runWord_of_decode hd u)
  · exact (step_cons h).trans (runWord_of_reject hd u)

/-- Settles O7: the word is the next command, and taking it off the queue leaves the state as it was. -/
theorem fetchWordIsTheNextOperation : Obligations.FetchWordIsTheNextOperation := by
  intro s nbits w i h
  have hstep : step (s.withFetchWord nbits w) = runWord (tableSelect nbits w) s :=
    step_cons (c := .evaluate (tableSelect nbits w)) (rest := s.pending) rfl
  rw [hstep, runWord_of_decode (decode_tableSelect h)]

/-- The outputs of a unit none of whose input ports is driven are the fault `UndrivenInput` of that unit (R90). -/
theorem outputOf_undriven (q : OutPort) {s : State} (h0 : s.splitterIn = Port.undriven 16)
    (h1 : s.joinerIn.s0 = Port.undriven 4) (h2 : s.encoderIn = Port.undriven 4) (h3 : s.decoderIn = Port.undriven 7) :
    ∃ p : InPort, p.unit = q.unit ∧ outputOf q s = .error (.undrivenInput q.unit p) := by
  have hsplit : splitterOut s = .error (.undrivenInput .splitter .splitterSample) := by
    rw [splitterOut, h0, inputValue_unknown _ _ (by decide)]
    rfl
  have hjoin : joinerOut s = .error (.undrivenInput .joiner .joinerN0) := by
    rw [joinerOut, h1, inputValue_unknown _ _ (by decide)]
    rfl
  have henc : encoderOut s = .error (.undrivenInput .encoder .encoderD) := by
    rw [encoderOut, h2, inputValue_unknown _ _ (by decide)]
    rfl
  have hdec : decoderOut s = .error (.undrivenInput .decoder .decoderCw) := by
    rw [decoderOut, h3, inputValue_unknown _ _ (by decide)]
    rfl
  cases q with
  | splitterN0 | splitterN1 | splitterN2 | splitterN3 =>
    exact ⟨.splitterSample, rfl, by simp [outputOf, hsplit, Except.map, OutPort.unit]⟩
  | joinerSample => exact ⟨.joinerN0, rfl, by simp [outputOf, hjoin, Except.map, OutPort.unit]⟩
  | encoderCw => exact ⟨.encoderD, rfl, by simp [outputOf, henc, Except.map, OutPort.unit]⟩
  | decoderD | decoderSyndrome | decoderDRaw =>
    exact ⟨.decoderCw, rfl, by simp [outputOf, hdec, Except.map, OutPort.unit]⟩

/-- Settles O35: reset leaves every input port undriven. -/
theorem resetOutputsHaveNoValue : Obligations.ResetOutputsHaveNoValue := by
  intro q
  obtain ⟨p, hp, hout⟩ := outputOf_undriven q (s := State.reset) rfl rfl rfl rfl
  have hstep : step { State.reset with pending := [.read q] } = runRead q State.reset :=
    step_cons (c := .read q) (rest := []) rfl
  exact ⟨p, hp, hstep.trans (runRead_of_error hout)⟩

/-- Begun with good parameters on Samples, a run completes with fresh buffers (R78, R103). -/
theorem beginRun_good {samples : List Int} {stride bitIndex : Option Int} (hs : 1 ≤ stride.getD 100)
    (hb : 0 ≤ bitIndex.getD 6) (hb' : bitIndex.getD 6 ≤ 6) (hx : ∀ x ∈ samples, -32768 ≤ x ∧ x ≤ 32767)
    (original : List HostFloat) (s : State) :
    beginRun original samples stride bitIndex s =
      .next (s.setRun (freshRun original samples (stride.getD 100).toNat (bitIndex.getD 6).toNat)) :=
  beginRun_eq_next.mpr ⟨_, takeParams_eq_ok.mpr ⟨hs, hb, hb', rfl⟩, checkSamples_eq_ok.mpr hx, rfl⟩

/-- Settles O45: the buffers a run begins with are a function of its input alone. -/
theorem runKeepsNothingOfEarlierRuns : Obligations.RunKeepsNothingOfEarlierRuns := by
  constructor
  · intro s s' t original samples stride bitIndex h
    obtain ⟨sk, hsk, hx, rfl⟩ := beginRun_eq_next.mp h
    exact ⟨_, beginRun_eq_next.mpr ⟨sk, hsk, hx, rfl⟩, rfl, rfl, rfl, fun _ => List.eq_of_mem_replicate,
      fun _ => List.eq_of_mem_replicate⟩
  · intro s samples stride bitIndex hs hb hb' hx fresh
    exact ⟨fun original => beginRun_good hs hb hb' hx original s,
      fun rest hp => (step_cons hp).trans (beginRun_good hs hb hb' hx [] _)⟩

end Sys2Proof.Machine

/-!
The host's buffers and the order of its acts: an evaluation done again, the decoder's outputs together, CORRUPT before
every decode, and a stepwise run, which in any order ends in what PROCESS gives.
-/

namespace Sys2Proof.Machine

/-! ## Evaluating again -/

/-- Settles O30: an operation's next state sets its unit's port, age and reading to values of the operand alone. -/
theorem evaluatingAgainChangesNothing : Obligations.EvaluatingAgainChangesNothing := by
  intro i s t h
  cases i with
  | split x =>
    obtain ⟨u, hu, rfl⟩ := execSplit_eq_next.mp h
    exact execSplit_eq_next.mpr ⟨u, hu, rfl⟩
  | join n0 n1 n2 n3 =>
    obtain ⟨q, hq, rfl⟩ := execJoin_eq_next.mp h
    exact execJoin_eq_next.mpr ⟨q, hq, rfl⟩
  | encode d =>
    obtain ⟨n, hn, rfl⟩ := execEncode_eq_next.mp h
    exact execEncode_eq_next.mpr ⟨n, hn, rfl⟩
  | decode bits =>
    obtain ⟨cw, hcw, rfl⟩ := execDecode_eq_next.mp h
    exact execDecode_eq_next.mpr ⟨cw, hcw, rfl⟩
  | decodeRaw bits =>
    obtain ⟨cw, hcw, rfl⟩ := execDecodeRaw_eq_next.mp h
    exact execDecodeRaw_eq_next.mpr ⟨cw, hcw, rfl⟩

/-- Settles O28: both tags drive the one port with the one codeword, of which all three outputs are functions. -/
theorem decoderOutputsComeTogether : Obligations.DecoderOutputsComeTogether := fun s cw =>
  ⟨_, _, ⟨hammingDecode cw, syndromeOf cw, hammingDecodeRaw cw⟩, execDecode_codeword cw s, execDecodeRaw_codeword cw s,
    decoderOut_driven rfl rfl, decoderOut_driven rfl rfl, rfl, rfl, rfl, rfl⟩

/-! ## CORRUPT and the decodes -/

/-- Before CORRUPT there are no words to decode (R34, R107; the refusal: log 7). -/
theorem corruptWords_before_corrupt {r : Run} (h : r.cwCorrupt = none) (i : Nat) :
    corruptWords i r = .error .corruptNotComplete := by
  simp [corruptWords, h]

theorem corruptWords_of_getElem? {r : Run} {qs : List (Quad Codeword)} {i : Nat} {q : Quad Codeword}
    (h : r.cwCorrupt = some qs) (hq : qs[i]? = some q) : corruptWords i r = .ok q :=
  corruptWords_eq_ok.mpr ⟨qs, h, hq⟩

theorem decodeSample_of_words {i : Nat} {s : State} {q : Quad Codeword} (h : corruptWords i s.run = .ok q) :
    decodeSample i s =
      .next (s.setRun { s.run with corrected := s.run.corrected.set i (some (correctedSample q)) }) :=
  decodeSample_eq_next.mpr ⟨q, h, rfl⟩

theorem decodeRawSample_of_words {i : Nat} {s : State} {q : Quad Codeword} (h : corruptWords i s.run = .ok q) :
    decodeRawSample i s =
      .next (s.setRun { s.run with corrupted := s.run.corrupted.set i (some (rawSample q)) }) :=
  decodeRawSample_eq_next.mpr ⟨q, h, rfl⟩

/-- CORRUPT of a clean array with every element written (R81). -/
theorem corruptRun_of_written {s : State} {qs : List (Quad Codeword)} (h : s.run.cwClean = qs.map some) :
    corruptRun s =
      .next (s.setRun { s.run with cwCorrupt := some (corrupt s.run.stride s.run.bitIndex qs) }) :=
  corruptRun_eq_next.mpr ⟨qs, allWritten_eq_some.mpr h, rfl⟩

/-- A buffer with an element not yet written is not complete (R32). -/
theorem allWritten_of_none_mem {α : Type} {l : List (Option α)} (h : none ∈ l) : allWritten l = none := by
  cases hl : allWritten l with
  | none => rfl
  | some r =>
    rw [allWritten_eq_some.mp hl] at h
    simp at h

/-- Settles O50: CORRUPT reads the clean array when all of it is written, a decode reads the corrupt array and writes
its own output stream. -/
theorem corruptionComesBeforeDecoding : Obligations.CorruptionComesBeforeDecoding := by
  intro s i
  refine ⟨fun h => ?early, fun h => ?incomplete, fun qs h => corruptRun_of_written h, fun t h => ?decode⟩
  case early => simp only [decodeSample, decodeRawSample, corruptWords_before_corrupt h, and_self]
  case incomplete => simp only [corruptRun, allWritten_of_none_mem h]
  case decode =>
    obtain h | h := h
    · obtain ⟨q, -, rfl⟩ := decodeSample_eq_next.mp h
      exact ⟨rfl, rfl⟩
    · obtain ⟨q, -, rfl⟩ := decodeRawSample_eq_next.mp h
      exact ⟨rfl, rfl⟩

/-- Two decodes into the corrected stream: each writes its element (R83). -/
theorem decodeSample_then_decodeSample {s : State} {i j : Nat} {p q : Quad Codeword}
    (hp : corruptWords i s.run = .ok p) (hq : corruptWords j s.run = .ok q) :
    andThen (decodeSample i s) (decodeSample j) = .next (s.setRun { s.run with
      corrected := (s.run.corrected.set i (some (correctedSample p))).set j (some (correctedSample q)) }) := by
  rw [decodeSample_of_words hp, andThen_next]
  exact decodeSample_of_words hq

/-- Two decodes into the uncorrected stream: each writes its element (R82). -/
theorem decodeRawSample_then_decodeRawSample {s : State} {i j : Nat} {p q : Quad Codeword}
    (hp : corruptWords i s.run = .ok p) (hq : corruptWords j s.run = .ok q) :
    andThen (decodeRawSample i s) (decodeRawSample j) = .next (s.setRun { s.run with
      corrupted := (s.run.corrupted.set i (some (rawSample p))).set j (some (rawSample q)) }) := by
  rw [decodeRawSample_of_words hp, andThen_next]
  exact decodeRawSample_of_words hq

/-- A decode into each stream, in either order: two elements of two buffers (R82, R83). -/
theorem decodeRawSample_decodeSample_comm {s : State} {i j : Nat} {p q : Quad Codeword}
    (hp : corruptWords i s.run = .ok p) (hq : corruptWords j s.run = .ok q) :
    andThen (decodeRawSample i s) (decodeSample j) = andThen (decodeSample j s) (decodeRawSample i) := by
  calc andThen (decodeRawSample i s) (decodeSample j)
    _ = .next (s.setRun { s.run with
          corrupted := s.run.corrupted.set i (some (rawSample p))
          corrected := s.run.corrected.set j (some (correctedSample q)) }) := by
      rw [decodeRawSample_of_words hp, andThen_next]
      exact decodeSample_of_words hq
    _ = andThen (decodeSample j s) (decodeRawSample i) := by
      rw [decodeSample_of_words hq, andThen_next]
      symm
      exact decodeRawSample_of_words hp

/-- Settles O49: decodes read the corrupt array, which none of them writes, and write one element each, of different
buffers, or at different indices, or the same element with the same value. -/
theorem decodingSamplesCommutes : Obligations.DecodingSamplesCommutes := by
  intro s qs i j h hi hj
  have hp := corruptWords_of_getElem? h (List.getElem?_eq_getElem hi)
  have hq := corruptWords_of_getElem? h (List.getElem?_eq_getElem hj)
  have hcomm := decodeRawSample_decodeSample_comm hp hq
  obtain rfl | hij := eq_or_ne i j
  · exact ⟨⟨_, decodeSample_then_decodeSample hp hq⟩, rfl, hcomm, rfl⟩
  · refine ⟨⟨_, decodeSample_then_decodeSample hp hq⟩, ?corrected, hcomm, ?raw⟩
    case corrected =>
      rw [decodeSample_then_decodeSample hp hq, decodeSample_then_decodeSample hq hp, List.set_comm _ _ hij]
    case raw =>
      rw [decodeRawSample_then_decodeRawSample hp hq, decodeRawSample_then_decodeRawSample hq hp,
        List.set_comm _ _ hij]

/-! ## Queues of commands -/

/-- Steps in two parts, the first of which completes. -/
theorem runSteps_add_of_next {m : Nat} {s u : State} (h : runSteps m s = .next u) (n : Nat) :
    runSteps (m + n) s = runSteps n u := by
  induction m generalizing s with
  | zero =>
    cases h
    rw [Nat.zero_add]
  | succ m ih =>
    obtain ⟨v, hv, h⟩ := andThen_eq_next.mp h
    rw [Nat.succ_add, runSteps, hv, andThen_next, ih h]

/-- A command at the head of the queue that completes and changes the run alone, and the steps after it. -/
theorem runSteps_succ_of_setRun {s : State} {r r' : Run} {c : HostCmd} {rest : List HostCmd}
    (h : runCmd c ((s.setRun r).setPending rest) = .next ((s.setRun r').setPending rest)) (n : Nat) :
    runSteps (n + 1) ((s.setRun r).setPending (c :: rest)) = runSteps n ((s.setRun r').setPending rest) := by
  have hstep : step ((s.setRun r).setPending (c :: rest)) = .next ((s.setRun r').setPending rest) :=
    (step_cons rfl).trans h
  rw [runSteps, hstep, andThen_next]

/-! ## Buffers that are being written -/

/-- A buffer of the length of `vals` that holds them, but perhaps at the indices still to be written. -/
structure FilledExcept {α : Type} (buf : List (Option α)) (vals : List α) (todo : Nat → Prop) : Prop where
  length_eq : buf.length = vals.length
  written : ∀ i a, vals[i]? = some a → ¬ todo i → buf[i]? = some (some a)

/-- With every index still to be written, a buffer need only have the right length (R103). -/
theorem filledExcept_of_all_todo {α : Type} {buf : List (Option α)} {vals : List α} {todo : Nat → Prop}
    (hlen : buf.length = vals.length) (h : ∀ i < vals.length, todo i) : FilledExcept buf vals todo where
  length_eq := hlen
  written i a ha hi := by
    obtain ⟨hlt, -⟩ := List.getElem?_eq_some_iff.mp ha
    exact absurd (h i hlt) hi

/-- Writing an index's own value leaves one index less to be written. -/
theorem FilledExcept.set {α : Type} {buf : List (Option α)} {vals : List α} {todo todo' : Nat → Prop}
    (h : FilledExcept buf vals todo) {i : Nat} {a : α} (ha : vals[i]? = some a)
    (htodo : ∀ j, todo j → j = i ∨ todo' j) : FilledExcept (buf.set i (some a)) vals todo' where
  length_eq := by simp [h.length_eq]
  written j b hb hj := by
    obtain ⟨hlt, -⟩ := List.getElem?_eq_some_iff.mp ha
    obtain rfl | hij := eq_or_ne i j
    · rw [List.getElem?_set_self (h.length_eq ▸ hlt), ← ha, hb]
    · rw [List.getElem?_set_ne hij]
      exact h.written j b hb fun ht => (htodo j ht).elim (fun e => hij e.symm) hj

/-- A buffer filled but for some indices is filled but for any more of them. -/
theorem FilledExcept.mono {α : Type} {buf : List (Option α)} {vals : List α} {todo todo' : Nat → Prop}
    (h : FilledExcept buf vals todo) (htodo : ∀ j, todo j → todo' j) : FilledExcept buf vals todo' where
  length_eq := h.length_eq
  written j b hb hj := h.written j b hb fun ht => hj (htodo j ht)

/-- With nothing left to be written the buffer is complete (R32). -/
theorem FilledExcept.eq_map_some {α : Type} {buf : List (Option α)} {vals : List α} {todo : Nat → Prop}
    (h : FilledExcept buf vals todo) (hdone : ∀ j, ¬ todo j) : buf = vals.map some := by
  refine List.ext_getElem? fun i => ?_
  cases hi : vals[i]? with
  | none =>
    have hle := List.getElem?_eq_none_iff.mp hi
    simp [h.length_eq, hle]
  | some a => simp [hi, h.written i a hi (hdone i)]

/-! ## A run step by step -/

/-- The run with its clean array written as the rules give it (R80). -/
def Run.encoded (r : Run) : Run := { r with cwClean := (r.samples.map encodeGroup).map some }

/-- Encoding commands that reach every sample not encoded yet complete the clean array, whatever their order (R80). -/
theorem runSteps_encodeSamples {is : List Nat} {r : Run} (his : ∀ i ∈ is, i < r.samples.length)
    (hclean : FilledExcept r.cwClean (r.samples.map encodeGroup) (· ∈ is)) (s : State) (rest : List HostCmd) :
    runSteps is.length ((s.setRun r).setPending (is.map .encodeSample ++ rest)) =
      .next ((s.setRun r.encoded).setPending rest) := by
  induction is generalizing r with
  | nil =>
    rw [Run.encoded, ← hclean.eq_map_some (by simp)]
    rfl
  | cons i is ih =>
    obtain ⟨hi, htail⟩ := List.forall_mem_cons.mp his
    have hx := List.getElem?_eq_getElem hi
    have hcmd : runCmd (.encodeSample i) ((s.setRun r).setPending (is.map .encodeSample ++ rest)) =
        .next ((s.setRun { r with cwClean := r.cwClean.set i (some (encodeGroup r.samples[i])) }).setPending _) :=
      encodeSample_eq_next.mpr ⟨_, hx, rfl⟩
    refine (runSteps_succ_of_setRun hcmd _).trans (ih htail (hclean.set ?_ fun j => List.mem_cons.mp))
    simp [hx]

/-- Decoding commands that reach every element of both streams not decoded yet complete both, whatever the order of the
samples and of the streams (R82, R83). -/
theorem runSteps_decodeSamples {cs : List HostCmd} {r : Run} {qs : List (Quad Codeword)} (hq : r.cwCorrupt = some qs)
    (hcs : ∀ c ∈ cs, ∃ i < qs.length, c = .decodeRawSample i ∨ c = .decodeSample i)
    (hraw : FilledExcept r.corrupted (qs.map rawSample) (.decodeRawSample · ∈ cs))
    (hcor : FilledExcept r.corrected (qs.map correctedSample) (.decodeSample · ∈ cs)) (s : State) :
    runSteps cs.length ((s.setRun r).setPending cs) =
      .next ((s.setRun { r with
        corrupted := (qs.map rawSample).map some
        corrected := (qs.map correctedSample).map some }).setPending []) := by
  induction cs generalizing r with
  | nil =>
    rw [← hraw.eq_map_some (by simp), ← hcor.eq_map_some (by simp)]
    rfl
  | cons c cs ih =>
    obtain ⟨⟨i, hi, hc⟩, htail⟩ := List.forall_mem_cons.mp hcs
    have hqi := List.getElem?_eq_getElem hi
    have hwords : corruptWords i r = .ok qs[i] := corruptWords_of_getElem? hq hqi
    obtain rfl | rfl := hc
    · have hcmd : runCmd (.decodeRawSample i) ((s.setRun r).setPending cs) =
          .next ((s.setRun { r with corrupted := r.corrupted.set i (some (rawSample qs[i])) }).setPending cs) :=
        decodeRawSample_of_words hwords
      refine (runSteps_succ_of_setRun hcmd _).trans (ih hq htail (hraw.set ?_ ?_) (hcor.mono ?_))
      · simp [hqi]
      · simp
      · simp
    · have hcmd : runCmd (.decodeSample i) ((s.setRun r).setPending cs) =
          .next ((s.setRun { r with corrected := r.corrected.set i (some (correctedSample qs[i])) }).setPending cs) :=
        decodeSample_of_words hwords
      refine (runSteps_succ_of_setRun hcmd _).trans (ih hq htail (hraw.mono ?_) (hcor.set ?_ ?_))
      · simp
      · simp [hqi]
      · simp

/-- PROCESS completes with good parameters on Samples, and gives both decodings of the corrupt array (R80 to R84). -/
theorem process_eq_ok {stride bitIndex : Int} {samples raw cor : List Int} :
    process stride bitIndex samples = .ok (raw, cor) ↔
      ∃ sk, takeParams stride bitIndex = .ok sk ∧ checkSamples 0 samples = .ok () ∧
        raw = (corrupt sk.1 sk.2 (samples.map encodeGroup)).map rawSample ∧
        cor = (corrupt sk.1 sk.2 (samples.map encodeGroup)).map correctedSample := by
  unfold process
  cases takeParams stride bitIndex <;> cases checkSamples 0 samples <;> simp [eq_comm]

/-- The run with every buffer written as the rules give it (R80 to R83). -/
def Run.finished (r : Run) : Run :=
  { r.encoded with
    cwCorrupt := some r.expectedCorrupt
    corrupted := (r.expectedCorrupt.map rawSample).map some
    corrected := (r.expectedCorrupt.map correctedSample).map some }

@[simp] theorem Run.length_expectedCorrupt (r : Run) : r.expectedCorrupt.length = r.samples.length := by
  simp [Run.expectedCorrupt]

/-- A run with both output streams written has ended (R111). -/
theorem Run.ended_finished (r : Run) : r.finished.ended = true := by
  have hraw : allWritten r.finished.corrupted = some _ := allWritten_eq_some.mpr rfl
  have hcor : allWritten r.finished.corrected = some _ := allWritten_eq_some.mpr rfl
  simp only [Run.ended, hraw, hcor]
  simp [Run.finished, Run.encoded]

/-- In a run whose buffers have the input's length, encodes that reach every sample, CORRUPT, and decodes that reach
every element of both streams write every buffer (R31, R80 to R83). -/
theorem runSteps_finishes_run {r : Run} {enc : List Nat} {decs : List HostCmd}
    (hclean : r.cwClean.length = r.samples.length) (hraw : r.corrupted.length = r.samples.length)
    (hcor : r.corrected.length = r.samples.length) (henc : ∀ i, i ∈ enc ↔ i < r.samples.length)
    (hdecs : ∀ c, c ∈ decs ↔ ∃ i, i < r.samples.length ∧ (c = .decodeRawSample i ∨ c = .decodeSample i)) (s : State) :
    runSteps (enc.length + (decs.length + 1))
        ((s.setRun r).setPending (enc.map .encodeSample ++ .corruptAll :: decs)) =
      .next ((s.setRun r.finished).setPending []) := by
  have hencode := runSteps_encodeSamples (fun i => (henc i).mp)
    (filledExcept_of_all_todo (hclean.trans (by simp)) fun i hi => (henc i).mpr (by simpa using hi)) s
    (.corruptAll :: decs)
  have hcorrupt : runCmd .corruptAll ((s.setRun r.encoded).setPending decs) =
      .next ((s.setRun { r.encoded with cwCorrupt := some r.expectedCorrupt }).setPending decs) :=
    corruptRun_of_written rfl
  have hdecode := runSteps_decodeSamples (r := { r.encoded with cwCorrupt := some r.expectedCorrupt }) (cs := decs) rfl
    (fun c hc => by simpa using (hdecs c).mp hc)
    (filledExcept_of_all_todo (hraw.trans (by simp)) fun i hi => (hdecs _).mpr ⟨i, by simpa using hi, .inl rfl⟩)
    (filledExcept_of_all_todo (hcor.trans (by simp)) fun i hi => (hdecs _).mpr ⟨i, by simpa using hi, .inr rfl⟩) s
  rw [runSteps_add_of_next hencode, runSteps_succ_of_setRun hcorrupt, hdecode]
  rfl

/-- Settles O48: begin, the encodes, CORRUPT and the decodes one after the other, each batch completing its buffers in
whatever order it comes. -/
theorem stepwiseRunInAnyOrderGivesProcess : Obligations.StepwiseRunInAnyOrderGivesProcess := by
  intro s samples raw cor stride bitIndex enc decs hproc henc hdecs cmds
  obtain ⟨sk, hsk, hx, rfl, rfl⟩ := process_eq_ok.mp hproc
  have hcmds : cmds = .begin samples (some stride) (some bitIndex) ::
      (enc.map .encodeSample ++ .corruptAll :: decs) := by simp [cmds]
  have hlen : cmds.length = enc.length + (decs.length + 1) + 1 := by simp [hcmds]
  have hbegin : runCmd (.begin samples (some stride) (some bitIndex))
      ((s.setRun s.run).setPending (enc.map .encodeSample ++ .corruptAll :: decs)) =
        .next ((s.setRun (freshRun [] samples sk.1 sk.2)).setPending _) := beginRun_eq_next.mpr ⟨sk, hsk, hx, rfl⟩
  have hsteps : runSteps cmds.length ((s.setRun s.run).setPending cmds) =
      .next ((s.setRun (freshRun [] samples sk.1 sk.2).finished).setPending []) := by
    rw [hlen, hcmds, runSteps_succ_of_setRun hbegin, runSteps_finishes_run List.length_replicate
      List.length_replicate List.length_replicate henc hdecs]
  exact ⟨_, hsteps, rfl, rfl, rfl, Run.ended_finished _, rfl⟩

end Sys2Proof.Machine

/-!
Port words as operations and operations as port words, each the other's inverse; when an operation completes; PROCESS;
and the statements of a program, each an evaluation followed by assignments of new names.
-/

namespace Sys2Proof.Machine

/-! ## Decoding and encoding -/

/-- Settles O1: each word is a pattern of its tag's port, and its fields are the operands. -/
theorem specPortWordsDecode : Obligations.SpecPortWordsDecode :=
  ⟨rfl, rfl, rfl, rfl, rfl⟩

/-- A Sample pattern is the pattern of one presented value, the signed reading of it (R11, R36). -/
theorem sampleOf_eq_some {x : Signal} {u : SamplePattern} : sampleOf x = some u ↔ x = .value (signed16 u) := by
  constructor
  · intro h
    cases x with
    | value n =>
      simp only [sampleOf, Option.ite_none_right_eq_some, Option.some.injEq] at h
      obtain ⟨⟨hlo, hhi⟩, rfl⟩ := h
      rw [signed16_unsigned16 hlo hhi]
    | undriven | unknown | highZ => cases h
  · rintro rfl
    obtain ⟨hlo, hhi⟩ := signed16_range u
    rw [sampleOf_value hlo hhi, unsigned16_signed16]

/-- A nibble is the port value of one presented value, its unsigned reading (R12, R44). -/
theorem nibbleOf_eq_some {n : Signal} {v : Nibble} : nibbleOf n = some v ↔ n = nibbleSignal v := by
  constructor
  · intro h
    cases n with
    | value k =>
      simp only [nibbleOf, Config.nibbleMax, Option.ite_none_right_eq_some, Option.some.injEq] at h
      obtain ⟨⟨hlo, hhi⟩, rfl⟩ := h
      simp only [nibbleSignal, BitVec.toNat_ofInt, Signal.value.injEq]
      omega
    | undriven | unknown | highZ => cases h
  · rintro rfl
    exact nibbleOf_nibbleSignal v

theorem isSample_signed16 (u : SamplePattern) : (Signal.value (signed16 u)).isSample = true := by
  simpa [Signal.isSample, Signal.inRange] using signed16_range u

theorem isNibble_nibbleSignal (n : Nibble) : (nibbleSignal n).isNibble = true := by
  have := n.isLt
  simp only [nibbleSignal, Signal.isNibble, Signal.inRange, Config.nibbleMax, Bool.and_eq_true, decide_eq_true_eq]
  omega

theorem isCodeword_codewordSignals (cw : Codeword) : isCodeword (codewordSignals cw) = true := by
  revert cw; decide

theorem decode_eq_ok {w : PortWord} {i : Instr} :
    decode w = .ok i ↔ w.pattern < 2 ^ w.tag.width ∧ i = instrOfPattern w.tag w.pattern := by
  unfold decode
  split <;> simp [*, eq_comm]

theorem decode_tooWide {tag : Tag} {p : Nat} (h : 2 ^ tag.width ≤ p) :
    decode ⟨tag, p⟩ = .error (.patternTooWide tag) :=
  if_neg (Nat.not_lt.mpr h)

/-- Whatever a port holds stands for a well-formed operation (R45). -/
theorem wf_instrOfPattern (tag : Tag) (p : Nat) : (instrOfPattern tag p).wf = true := by
  cases tag with
  | split => exact isSample_signed16 _
  | join => simp only [instrOfPattern, Instr.wf, isNibble_nibbleSignal, Bool.and_self]
  | encode => exact isNibble_nibbleSignal _
  | decode | decodeRaw => exact isCodeword_codewordSignals _

/-- The operation that a pattern stands for has that pattern as its port word. -/
theorem encode_instrOfPattern {tag : Tag} {p : Nat} (h : p < 2 ^ tag.width) :
    encode (instrOfPattern tag p) = some ⟨tag, p⟩ := by
  cases tag with
  | split => simpa [instrOfPattern, encode, sampleOf_eq_some.mpr rfl, Tag.width] using h
  | join =>
    simp only [instrOfPattern, encode, nibbleOf_nibbleSignal]
    rw [show concat16 _ = BitVec.ofNat 16 p from concat16_fields16 _]
    simpa [Tag.width] using h
  | encode | decode | decodeRaw => simpa [instrOfPattern, encode, Tag.width] using h

/-- An operation that has a port word is the one its pattern stands for. -/
theorem eq_instrOfPattern_of_encode {i : Instr} {w : PortWord} (h : encode i = some w) :
    i = instrOfPattern w.tag w.pattern := by
  cases i with
  | split x =>
    obtain ⟨u, hu, rfl⟩ := Option.map_eq_some_iff.mp h
    simp [instrOfPattern, sampleOf_eq_some.mp hu]
  | join n0 n1 n2 n3 =>
    simp only [encode] at h
    split at h
    · rename_i a b c d ha hb hc hd
      cases h
      simp [instrOfPattern, nibbleOf_eq_some.mp ha, nibbleOf_eq_some.mp hb, nibbleOf_eq_some.mp hc,
        nibbleOf_eq_some.mp hd]
    · cases h
  | encode d =>
    obtain ⟨n, hn, rfl⟩ := Option.map_eq_some_iff.mp h
    simp [instrOfPattern, nibbleOf_eq_some.mp hn]
  | decode bits | decodeRaw bits =>
    obtain ⟨cw, hcw, rfl⟩ := Option.map_eq_some_iff.mp h
    simp [instrOfPattern, codewordOf_eq_some.mp hcw]

/-- A well-formed operation has a port word that its port can hold (R36 to R40, R45). -/
theorem encode_fits_of_wf {i : Instr} (h : i.wf = true) :
    ∃ w, encode i = some w ∧ w.pattern < 2 ^ w.tag.width := by
  cases i with
  | split x => exact Laws.EncodingFits.split x h
  | join n0 n1 n2 n3 => exact Laws.EncodingFits.join n0 n1 n2 n3 h
  | encode d => exact Laws.EncodingFits.encode d h
  | decode bits => exact Laws.EncodingFits.decode bits h
  | decodeRaw bits => exact Laws.EncodingFits.decodeRaw bits h

/-- Settles O2: the word fits its port, and its pattern stands for the operation it was made from. -/
theorem decodeOfEncodeIsIdentity : Obligations.DecodeOfEncodeIsIdentity := by
  intro i h
  obtain ⟨w, hw, hfits⟩ := encode_fits_of_wf h
  exact ⟨w, hw, decode_eq_ok.mpr ⟨hfits, eq_instrOfPattern_of_encode hw⟩⟩

/-- Settles O3: what a pattern stands for is well formed and has that pattern as its port word. -/
theorem encodeOfDecodeIsIdentity : Obligations.EncodeOfDecodeIsIdentity := by
  intro w i h
  obtain ⟨hfits, rfl⟩ := decode_eq_ok.mp h
  exact ⟨wf_instrOfPattern w.tag w.pattern, encode_instrOfPattern hfits⟩

/-! ## When an operation completes -/

/-- Settles O4: a pattern that fits stands for a well-formed operation, which completes, and a wider one is rejected. -/
theorem everyPortPatternIsLegal : Obligations.EveryPortPatternIsLegal := by
  refine ⟨fun tag p s h => ?_, ⟨rfl, rfl, rfl, rfl, rfl⟩, fun tag p s h => runWord_of_reject (decode_tooWide h) s⟩
  have hwf := wf_instrOfPattern tag p
  obtain ⟨t, ht⟩ := exec_completes_of_wf hwf s
  exact ⟨_, t, decode_eq_ok.mpr ⟨h, rfl⟩, hwf, ht⟩

/-- Only what the ports can hold completes (R45, R87 to R90). -/
theorem wf_of_exec_completes {i : Instr} {s t : State} (h : exec i s = .next t) : i.wf = true := by
  cases i with
  | split x =>
    obtain ⟨u, hu, -⟩ := execSplit_eq_next.mp h
    obtain ⟨n, rfl, hlo, hhi, -⟩ := takeSample_eq_ok.mp hu
    simp [Instr.wf, Signal.isSample, Signal.inRange, hlo, hhi]
  | join n0 n1 n2 n3 =>
    obtain ⟨q, hq, -⟩ := execJoin_eq_next.mp h
    obtain ⟨h0, h1, h2, h3⟩ := takeNibbles_eq_ok.mp hq
    simp only [nibbleOf_eq_some.mp h0, nibbleOf_eq_some.mp h1, nibbleOf_eq_some.mp h2, nibbleOf_eq_some.mp h3,
      Instr.wf, isNibble_nibbleSignal, Bool.and_self]
  | encode d =>
    obtain ⟨n, hn, -⟩ := execEncode_eq_next.mp h
    rw [nibbleOf_eq_some.mp hn]
    exact isNibble_nibbleSignal n
  | decode bits =>
    obtain ⟨cw, rfl, -⟩ := execDecode_eq_next.mp h
    exact isCodeword_codewordSignals cw
  | decodeRaw bits =>
    obtain ⟨cw, rfl, -⟩ := execDecodeRaw_eq_next.mp h
    exact isCodeword_codewordSignals cw

/-- What takes its operand at the boundary and then sets the state is never refused. -/
theorem orRaise_next_or_fault {α : Type} (x : Except Fault α) (f : α → State) :
    (∃ t, orRaise x (fun a => .next (f a)) = .next t) ∨ ∃ e, orRaise x (fun a => .next (f a)) = .fault e := by
  cases x with
  | ok a => exact .inl ⟨f a, rfl⟩
  | error e => exact .inr ⟨e, rfl⟩

theorem exec_next_or_fault (i : Instr) (s : State) : (∃ t, exec i s = .next t) ∨ ∃ f, exec i s = .fault f := by
  cases i with
  | split x => exact orRaise_next_or_fault (takeSample x) _
  | join n0 n1 n2 n3 => exact orRaise_next_or_fault (takeNibbles n0 n1 n2 n3) _
  | encode d => exact orRaise_next_or_fault (takeNibble .encoderD none d) _
  | decode bits | decodeRaw bits => exact orRaise_next_or_fault (takeCodeword bits) _

/-- Settles O5: an operation completes or faults, and completes for what its ports can hold alone. -/
theorem operationCompletesExactlyWhenWellFormed : Obligations.OperationCompletesExactlyWhenWellFormed := by
  intro i s
  refine ⟨⟨fun ⟨t, ht⟩ => wf_of_exec_completes ht, fun h => exec_completes_of_wf h s⟩, fun hwf => ?_⟩
  refine (exec_next_or_fault i s).resolve_left fun ⟨t, ht⟩ => ?_
  simp [wf_of_exec_completes ht] at hwf

/-! ## PROCESS -/

/-- What a decoding of the corrupt array gives for sample i depends on sample i alone (R80 to R83). -/
theorem getElem?_map_corrupt_encodeGroup (decodeGroup : Quad Codeword → Int) (stride bitIndex i : Nat)
    (samples : List Int) :
    ((corrupt stride bitIndex (samples.map encodeGroup)).map decodeGroup)[i]? =
      (samples[i]?).map fun x => decodeGroup (corruptGroup stride bitIndex i (encodeGroup x)) := by
  simp [getElem?_corrupt, Function.comp_def]

/-- With correction the whole corrupt array gives the input back (R78). -/
theorem map_correctedSample_corrupt {bitIndex : Nat} {samples : List Int} (stride : Nat) (hb : bitIndex ≤ 6)
    (hx : ∀ x ∈ samples, -32768 ≤ x ∧ x ≤ 32767) :
    (corrupt stride bitIndex (samples.map encodeGroup)).map correctedSample = samples := by
  refine List.ext_getElem? fun i => ?_
  rw [getElem?_map_corrupt_encodeGroup]
  cases hi : samples[i]? with
  | none => rfl
  | some x =>
    obtain ⟨hlo, hhi⟩ := hx x (List.mem_of_getElem? hi)
    rw [Option.map_some, correctedSample_corruptGroup hb hlo hhi]

/-- A mask on slot 0 is a mask on the four highest bits of the joined pattern (R43). -/
theorem concat16_xor_slot0 (m a b c d : Nibble) :
    concat16 ⟨a ^^^ m, b, c, d⟩ = concat16 ⟨a, b, c, d⟩ ^^^ (m ++ 0x000#12) := by
  have hm : m ++ 0x000#12 = m ++ 0x0#4 ++ 0x0#4 ++ 0x0#4 := by
    revert m; decide
  have hlanes : (a ++ b ++ c ++ d) ^^^ (m ++ 0x0#4 ++ 0x0#4 ++ 0x0#4) = (a ^^^ m) ++ b ++ c ++ d := by
    simp only [BitVec.xor_append, BitVec.xor_zero]
  rw [hm]
  exact hlanes.symm

theorem rawSample_range (q : Quad Codeword) : -32768 ≤ rawSample q ∧ rawSample q ≤ 32767 := signed16_range _

/-- Without correction a hit sample keeps its pattern but for the inverted bit (R76, R82). -/
theorem unsigned16_rawSample_hit {stride bitIndex i : Nat} (hb : bitIndex ≤ 6) (hi : i % stride = 0) (x : Int) :
    unsigned16 (rawSample (corruptGroup stride bitIndex i (encodeGroup x))) =
      unsigned16 x ^^^ (nibbleMask bitIndex ++ 0x000#12) := by
  have hwords : (corruptGroup stride bitIndex i (encodeGroup x)).map hammingDecodeRaw =
      { fields16 (unsigned16 x) with s0 := (fields16 (unsigned16 x)).s0 ^^^ nibbleMask bitIndex } := by
    simp [corruptGroup, hi, encodeGroup, Quad.map, splitNibbles, hammingDecodeRaw_flipAt _ hb]
  rw [rawSample, unsigned16_signed16, hwords, joinNibbles, concat16_xor_slot0]
  exact congrArg (· ^^^ _) (concat16_fields16 (unsigned16 x))

/-- Settles O46: correction restores every group; without it a group left alone gives its sample and a hit one its
sample with slot 0 masked. -/
theorem processCorrectsEveryRun : Obligations.ProcessCorrectsEveryRun := by
  intro stride bitIndex samples hs hb hx
  have hparams : takeParams stride bitIndex = .ok (stride, bitIndex) :=
    takeParams_eq_ok.mpr ⟨by omega, by omega, by omega, by simp⟩
  refine ⟨_, process_eq_ok.mpr ⟨_, hparams, checkSamples_eq_ok.mpr hx, rfl,
    (map_correctedSample_corrupt stride hb hx).symm⟩, by simp, fun i hi => ?miss, fun i x hi hxi => ?hit⟩
  case miss =>
    rw [getElem?_map_corrupt_encodeGroup]
    cases hxi : samples[i]? with
    | none => rfl
    | some x =>
      obtain ⟨hlo, hhi⟩ := hx x (List.mem_of_getElem? hxi)
      simp [corruptGroup, hi, rawSample_encodeGroup hlo hhi]
  case hit =>
    obtain ⟨hlo, hhi⟩ := rawSample_range (corruptGroup stride bitIndex i (encodeGroup x))
    refine ⟨_, by rw [getElem?_map_corrupt_encodeGroup, hxi, Option.map_some], hlo, hhi, ?_⟩
    rw [unsigned16_rawSample_hit hb hi]
    refine congrArg (unsigned16 x ^^^ ·) ?_
    interval_cases bitIndex <;> rfl

/-! ## Names assigned one after the other -/

/-- Names assigned in order, up to the first that is assigned already (R48). -/
def assignAll : List (Name × Value) → State → Outcome
  | [], s => .next s
  | (k, v) :: rest, s => andThen (assign k v s) (assignAll rest)

/-- The names of a program with further ones in their places. -/
def insertNames : List (Name × Value) → List (Name × Value) → List (Name × Value)
  | [], l => l
  | (k, v) :: rest, l => insertNames rest (insertName k v l)

@[simp] theorem andThen_next_right (o : Outcome) : andThen o (fun s => .next s) = o := by
  cases o <;> rfl

theorem lookupName_insertName_eq_none {k j : Name} {v : Value} {l : List (Name × Value)} :
    lookupName j (insertName k v l) = none ↔ j ≠ k ∧ lookupName j l = none := by
  by_cases h : j = k
  · simp [h, lookupName_insertName_self]
  · simp [h, lookupName_insertName_other]

/-- Assigning completes exactly where every name is new and none comes twice (R48). -/
theorem assignAll_eq_next {new : List (Name × Value)} {s t : State} :
    assignAll new s = .next t ↔ (∀ k ∈ new.map Prod.fst, lookupName k s.names = none) ∧
      (new.map Prod.fst).Nodup ∧ t = s.setNames (insertNames new s.names) := by
  induction new generalizing s with
  | nil => simp [assignAll, insertNames, State.setNames, eq_comm]
  | cons e rest ih =>
    obtain ⟨k, v⟩ := e
    have hnext : assignAll ((k, v) :: rest) s = .next t ↔
        lookupName k s.names = none ∧ assignAll rest (s.setNames (insertName k v s.names)) = .next t := by
      simp [assignAll, andThen_eq_next, assign_eq_next, and_assoc]
    have hrest : (∀ j ∈ rest.map Prod.fst, lookupName j (insertName k v s.names) = none) ↔
        k ∉ rest.map Prod.fst ∧ ∀ j ∈ rest.map Prod.fst, lookupName j s.names = none := by
      simp only [lookupName_insertName_eq_none, forall_and]
      exact and_congr_left fun _ => ⟨fun h hk => h k hk rfl, fun h j hj hjk => h (hjk ▸ hj)⟩
    rw [hnext, ih, State.setNames_names, hrest, List.map_cons, List.forall_mem_cons, List.nodup_cons]
    exact ⟨fun ⟨hk, ⟨hknew, hnew⟩, hnd, ht⟩ => ⟨⟨hk, hnew⟩, ⟨hknew, hnd⟩, ht⟩,
      fun ⟨⟨hk, hnew⟩, ⟨hknew, hnd⟩, ht⟩ => ⟨hk, ⟨hknew, hnew⟩, hnd, ht⟩⟩

theorem lookupName_insertNames_other {k : Name} {new : List (Name × Value)} (h : k ∉ new.map Prod.fst)
    (l : List (Name × Value)) : lookupName k (insertNames new l) = lookupName k l := by
  induction new generalizing l with
  | nil => rfl
  | cons e rest ih =>
    obtain ⟨j, v⟩ := e
    obtain ⟨hkj, hrest⟩ := List.ne_and_not_mem_of_not_mem_cons h
    exact (ih hrest _).trans (lookupName_insertName_other v l hkj)

theorem lookupName_insertNames_of_mem {k : Name} {v : Value} {new : List (Name × Value)}
    (hnd : (new.map Prod.fst).Nodup) (h : (k, v) ∈ new) (l : List (Name × Value)) :
    lookupName k (insertNames new l) = some v := by
  induction new generalizing l with
  | nil => cases h
  | cons e rest ih =>
    obtain ⟨hfirst, hnd⟩ := List.nodup_cons.mp hnd
    obtain rfl | hmem := List.mem_cons.mp h
    · exact (lookupName_insertNames_other hfirst _).trans (lookupName_insertName_self k v l)
    · exact ih hnd hmem _

/-- New names, no two of them one, are all assigned: each then has its value, and every other name what it had. -/
theorem next_of_eq_assignAll {o : Outcome} {new : List (Name × Value)} {s : State} (h : o = assignAll new s)
    (hnew : ∀ k ∈ new.map Prod.fst, lookupName k s.names = none) (hnd : (new.map Prod.fst).Nodup) :
    o = .next (s.setNames (insertNames new s.names)) ∧
      (∀ e ∈ new, lookupName e.1 (insertNames new s.names) = some e.2) ∧
      ∀ k, k ∉ new.map Prod.fst → lookupName k (insertNames new s.names) = lookupName k s.names :=
  ⟨h.trans (assignAll_eq_next.mpr ⟨hnew, hnd, rfl⟩), fun _ hmem => lookupName_insertNames_of_mem hnd hmem _,
    fun _ hk => lookupName_insertNames_other hk _⟩

/-! ## Each statement as an evaluation and its assignments -/

theorem andThen_orRaise_next {α : Type} (x : Except Fault α) (f : α → State) (k : State → Outcome) :
    andThen (orRaise x fun a => .next (f a)) k = orRaise x fun a => k (f a) := by
  cases x <;> rfl

theorem orRaise_next_eq_fault {α : Type} {x : Except Fault α} {g : α → State} {f : Fault} :
    orRaise x (fun a => .next (g a)) = .fault f ↔ x = .error f := by
  cases x <;> simp

@[simp] theorem splitterOut_evaluated (s : State) (u : SamplePattern) (r : Readout) :
    splitterOut ((s.setSplitter (Port.driven u) .settled).setRead r) = .ok (splitNibbles u) :=
  splitterOut_driven rfl rfl

@[simp] theorem joinerOut_evaluated (s : State) (q : Quad Nibble) (r : Readout) :
    joinerOut ((s.setJoiner (q.map Port.driven) .settled).setRead r) = .ok (joinNibbles q) :=
  joinerOut_driven rfl rfl

@[simp] theorem encoderOut_evaluated (s : State) (d : Nibble) (r : Readout) :
    encoderOut ((s.setEncoder (Port.driven d) .settled).setRead r) = .ok (hammingEncode d) :=
  encoderOut_driven rfl rfl

@[simp] theorem decoderOut_evaluated (s : State) (cw : Codeword) (r : Readout) :
    decoderOut ((s.setDecoder (Port.driven cw) .settled).setRead r) =
      .ok ⟨hammingDecode cw, syndromeOf cw, hammingDecodeRaw cw⟩ :=
  decoderOut_driven rfl rfl

theorem runStmt_letValue (x : Name) (v : Value) (s : State) :
    runStmt (.letValue x v) s = assignAll [(x, v)] s := by
  simp [runStmt, assignAll]

theorem runStmt_split (n a b c d : Name) (s : State) :
    runStmt (.split n a b c d) s = orRefuse (sampleNamed n s.names) fun x => orRaise (takeSample x) fun u =>
      assignAll [(a, .nibble (splitNibbles u).s0.toNat), (b, .nibble (splitNibbles u).s1.toNat),
          (c, .nibble (splitNibbles u).s2.toNat), (d, .nibble (splitNibbles u).s3.toNat)]
        ((s.setSplitter (Port.driven u) .settled).setRead (.nibbles (splitNibbles u))) := by
  simp [runStmt, runSplit, exec, execSplit, andThen_orRaise_next, assignNibble, assignAll]

theorem runStmt_join (a b c d n : Name) (s : State) :
    runStmt (.join a b c d n) s =
      orRefuse (nibbleNamed a s.names) fun n0 => orRefuse (nibbleNamed b s.names) fun n1 =>
        orRefuse (nibbleNamed c s.names) fun n2 => orRefuse (nibbleNamed d s.names) fun n3 =>
          orRaise (takeNibbles n0 n1 n2 n3) fun q =>
            assignAll [(n, .sample (signed16 (joinNibbles q)))]
              ((s.setJoiner (q.map Port.driven) .settled).setRead (.sample (joinNibbles q))) := by
  simp [runStmt, runJoin, exec, execJoin, andThen_orRaise_next, assignAll]

theorem runStmt_enc (n c : Name) (s : State) :
    runStmt (.enc n c) s = orRefuse (nibbleNamed n s.names) fun x => orRaise (takeNibble .encoderD none x) fun d =>
      assignAll [(c, .codeword (codewordInts (hammingEncode d)))]
        ((s.setEncoder (Port.driven d) .settled).setRead (.codeword (hammingEncode d))) := by
  simp [runStmt, runEnc, exec, execEncode, andThen_orRaise_next, assignAll]

theorem runStmt_dec (c n y r : Name) (s : State) :
    runStmt (.dec c n y r) s = orRefuse (codewordNamed c s.names) fun bits => orRaise (takeCodeword bits) fun cw =>
      assignAll [(n, .nibble (hammingDecode cw).toNat), (y, .syndrome (pos cw)), (r, .nibble (dataBits cw).toNat)]
        ((s.setDecoder (Port.driven cw) .settled).setRead (.decoded (hammingDecode cw) (syndromeOf cw))) := by
  simp [runStmt, runDec, exec, execDecode, andThen_orRaise_next, assignNibble, assignAll, syndromeOf_toNat,
    hammingDecodeRaw]

theorem runStmt_flip (c : Name) (k : Int) (c2 : Name) (s : State) :
    runStmt (.flip c k c2) s = orRaise (takeParams 1 k) fun sk => orRefuse (codewordNamed c s.names) fun bits =>
      orRaise (takeSequence none bits) fun cw =>
        assignAll [(c2, .codeword (codewordInts (flipAt cw (sk.2 + 1))))] s := by
  simp [runStmt, runFlip, assignAll]

/-- A statement that completes has, whatever it evaluated, assigned its outputs in order. -/
theorem runStmt_assigns_outputs {st : Stmt} {s t : State} (h : runStmt st s = .next t) :
    ∃ new u, assignAll new u = .next t ∧ new.map Prod.fst = st.outputs ∧ u.names = s.names := by
  cases st with
  | letValue x v =>
    rw [runStmt_letValue] at h
    exact ⟨_, s, h, rfl, rfl⟩
  | split n a b c d =>
    rw [runStmt_split] at h
    obtain ⟨x, -, h⟩ := orRefuse_eq_next.mp h
    obtain ⟨u, -, h⟩ := orRaise_eq_next.mp h
    exact ⟨_, _, h, rfl, rfl⟩
  | join a b c d n =>
    rw [runStmt_join] at h
    obtain ⟨n0, -, h⟩ := orRefuse_eq_next.mp h
    obtain ⟨n1, -, h⟩ := orRefuse_eq_next.mp h
    obtain ⟨n2, -, h⟩ := orRefuse_eq_next.mp h
    obtain ⟨n3, -, h⟩ := orRefuse_eq_next.mp h
    obtain ⟨q, -, h⟩ := orRaise_eq_next.mp h
    exact ⟨_, _, h, rfl, rfl⟩
  | enc n c =>
    rw [runStmt_enc] at h
    obtain ⟨x, -, h⟩ := orRefuse_eq_next.mp h
    obtain ⟨d, -, h⟩ := orRaise_eq_next.mp h
    exact ⟨_, _, h, rfl, rfl⟩
  | dec c n y r =>
    rw [runStmt_dec] at h
    obtain ⟨bits, -, h⟩ := orRefuse_eq_next.mp h
    obtain ⟨cw, -, h⟩ := orRaise_eq_next.mp h
    exact ⟨_, _, h, rfl, rfl⟩
  | flip c k c2 =>
    rw [runStmt_flip] at h
    obtain ⟨sk, -, h⟩ := orRaise_eq_next.mp h
    obtain ⟨bits, -, h⟩ := orRefuse_eq_next.mp h
    obtain ⟨cw, -, h⟩ := orRaise_eq_next.mp h
    exact ⟨_, s, h, rfl, rfl⟩

/-- A statement completes with new outputs only, no two of them one name, and adds them to the names (R48). -/
theorem runStmt_eq_next_names {st : Stmt} {s t : State} (h : runStmt st s = .next t) :
    (∀ k ∈ st.outputs, lookupName k s.names = none) ∧ st.outputs.Nodup ∧
      ∃ new, new.map Prod.fst = st.outputs ∧ t.names = insertNames new s.names := by
  obtain ⟨new, u, h, hout, hnames⟩ := runStmt_assigns_outputs h
  obtain ⟨hnew, hnd, rfl⟩ := assignAll_eq_next.mp h
  rw [hout, hnames] at hnew
  exact ⟨hnew, hout ▸ hnd, new, hout, by rw [State.setNames_names, hnames]⟩

/-- Settles O55: a statement completes only where its outputs are new and differ, so no name it finds is touched. -/
theorem namesAreAssignedOnce : Obligations.NamesAreAssignedOnce := by
  refine ⟨fun s t st k w hk hw h => ?again, fun s t st _ htwice h => ?twice, fun s k v w hw => ?letAgain,
    fun s t st k w _ h hw => ?keeps⟩
  case again =>
    obtain ⟨hnew, -, -⟩ := runStmt_eq_next_names h
    simp [hnew k hk] at hw
  case twice =>
    obtain ⟨-, hnd, -⟩ := runStmt_eq_next_names h
    exact htwice hnd
  case letAgain => simp [runStmt, assign, hw]
  case keeps =>
    obtain ⟨hnew, -, new, hout, hnames⟩ := runStmt_eq_next_names h
    have hk : k ∉ new.map Prod.fst := fun hk => by simp [hnew k (hout ▸ hk)] at hw
    rw [hnames, lookupName_insertNames_other hk, hw]

/-! ## What names carry to the ports -/

theorem sampleNamed_sample {k : Name} {l : List (Name × Value)} {x : Int} (h : lookupName k l = some (.sample x)) :
    sampleNamed k l = .ok (.value x) := by simp [sampleNamed, h]

theorem nibbleNamed_nibble {k : Name} {l : List (Name × Value)} {n : Int} (h : lookupName k l = some (.nibble n)) :
    nibbleNamed k l = .ok (.value n) := by simp [nibbleNamed, h]

theorem codewordNamed_codeword {k : Name} {l : List (Name × Value)} {bits : List Int}
    (h : lookupName k l = some (.codeword bits)) : codewordNamed k l = .ok (bits.map .value) := by
  simp [codewordNamed, h, intSignals]

theorem codewordNamed_codewordInts {k : Name} {l : List (Name × Value)} {cw : Codeword}
    (h : lookupName k l = some (.codeword (codewordInts cw))) : codewordNamed k l = .ok (codewordSignals cw) :=
  (codewordNamed_codeword h).trans (congrArg _ (intSignals_codewordInts cw))

/-- Integers that are not 7 bits are no codeword, and every place has a value (R88). -/
theorem takeSequence_malformed {bits : List Int} (index : Option (Nat × Nat))
    (h : bits.length ≠ 7 ∨ ∃ b ∈ bits, b ≠ 0 ∧ b ≠ 1) :
    takeSequence index (bits.map .value) = .error (.malformedCodeword (bits.map .value) index) := by
  have hnone : codewordOf (bits.map .value) = none := by
    by_contra hc
    have := fitsCodewordPort_of_codewordOf hc
    simp [fitsCodewordPort_integers h] at this
  rw [takeSequence_noCodeword index hnone, integers_haveValue]
  rfl

theorem takeSequence_undriven (index : Option (Nat × Nat)) :
    takeSequence index (List.replicate 7 .undriven) = .error (.undrivenInput .decoder .decoderCw) := rfl

/-! ## DEC and FLIP -/

/-- Settles O53: DEC is one evaluation of the decoder on the named codeword and three assignments. -/
theorem decStatementNamesThreeOutputs : Obligations.DecStatementNamesThreeOutputs := by
  constructor
  · intro s c n y r
    refine ⟨fun hc => ?_, fun bits hc hbits => ?_, fun v hc hv => ?_⟩
    · rw [runStmt_dec, codewordNamed_unassigned hc, orRefuse_ok, takeCodeword, takeSequence_undriven, orRaise_error]
    · rw [runStmt_dec, codewordNamed_codeword hc, orRefuse_ok, takeCodeword, takeSequence_malformed none hbits,
        orRaise_error]
    · rw [runStmt_dec, codewordNamed_illTyped hc hv, orRefuse_error]
  · intro s c n y r cw _ hc hn hy hr hny hnr hyr
    have hrun := runStmt_dec c n y r s
    rw [codewordNamed_codewordInts hc, orRefuse_ok, takeCodeword_codewordSignals, orRaise_ok] at hrun
    obtain ⟨ht, hnamed, hothers⟩ := next_of_eq_assignAll hrun (by simp [hn, hy, hr]) (by simp [hny, hnr, hyr])
    simp only [List.forall_mem_cons] at hnamed
    obtain ⟨hn', hy', hr', -⟩ := hnamed
    exact ⟨_, ht, rfl, hn', hy', hr', fun k hkn hky hkr => hothers k (by simp [hkn, hky, hkr])⟩

/-- Settles O54: FLIP looks at k, then at the named codeword, and assigns one name. -/
theorem flipStatementInvertsOneBit : Obligations.FlipStatementInvertsOneBit := by
  have hparams : ∀ k : Int, 0 ≤ k → k ≤ 6 → takeParams 1 k = .ok (1, k.toNat) := fun k h0 h6 =>
    takeParams_eq_ok.mpr ⟨by omega, h0, h6, rfl⟩
  constructor
  · intro s c c2 k h0 h6
    refine ⟨fun hc => ?_, fun bits hc hbits => ?_, fun v hc hv => ?_⟩
    · rw [runStmt_flip, hparams k h0 h6, orRaise_ok, codewordNamed_unassigned hc, orRefuse_ok, takeSequence_undriven,
        orRaise_error]
    · rw [runStmt_flip, hparams k h0 h6, orRaise_ok, codewordNamed_codeword hc, orRefuse_ok,
        takeSequence_malformed none hbits, orRaise_error]
    · rw [runStmt_flip, hparams k h0 h6, orRaise_ok, codewordNamed_illTyped hc hv, orRefuse_error]
  · intro s c c2 k cw hc hc2
    refine ⟨fun h0 h6 => ?_, fun hk => ?_⟩
    · rw [runStmt_flip, hparams k h0 h6, orRaise_ok, codewordNamed_codewordInts hc, orRefuse_ok,
        takeSequence_codewordSignals, orRaise_ok]
      exact assignAll_eq_next.mpr ⟨by simp [hc2], by simp, rfl⟩
    · have hbad : takeParams 1 k = .error (.badHostParameter .bitIndex k) := by simp [takeParams, hk]
      rw [runStmt_flip, hbad, orRaise_error]

/-! ## LET, SPLIT, JOIN and ENC -/

theorem nibbleOf_natCast {p : Nat} (h : p ≤ 15) : nibbleOf (.value p) = some (BitVec.ofNat 4 p) :=
  (nibbleOf_value (by omega) (by omega)).trans (congrArg some (BitVec.ofInt_natCast 4 p))

theorem joinNibbles_ofNat (p : Nat) {q r w : Nat} (hq : q ≤ 15) (hr : r ≤ 15) (hw : w ≤ 15) :
    joinNibbles ⟨BitVec.ofNat 4 p, BitVec.ofNat 4 q, BitVec.ofNat 4 r, BitVec.ofNat 4 w⟩ =
      BitVec.ofNat 16 (4096 * p + 256 * q + 16 * r + w) := by
  apply BitVec.eq_of_toNat_eq
  rw [joinNibbles, concat16_toNat]
  simp only [BitVec.toNat_ofNat]
  omega

/-- A nibble port is offered no value or a nibble that it can hold. -/
def NothingOrNibble (x : Signal) : Prop := x = .undriven ∨ ∃ v, x = nibbleSignal v

theorem takeNibble_nibbleSignal (port : InPort) (slot : Option Nat) (v : Nibble) :
    takeNibble port slot (nibbleSignal v) = .ok v := takeNibble_eq_ok.mpr (nibbleOf_nibbleSignal v)

/-- JOIN's fault where some slot has no value and the others fit: of the first such slot (R90, R94). -/
theorem takeNibbles_undriven {n0 n1 n2 n3 : Signal} (h0 : NothingOrNibble n0) (h1 : NothingOrNibble n1)
    (h2 : NothingOrNibble n2) (h3 : NothingOrNibble n3)
    (hsome : n0 = .undriven ∨ n1 = .undriven ∨ n2 = .undriven ∨ n3 = .undriven) :
    ∃ port : InPort, port.unit = .joiner ∧ takeNibbles n0 n1 n2 n3 = .error (.undrivenInput .joiner port) := by
  obtain rfl | ⟨a, rfl⟩ := h0
  · exact ⟨.joinerN0, rfl, rfl⟩
  obtain rfl | ⟨b, rfl⟩ := h1
  · exact ⟨.joinerN1, rfl, by simp only [takeNibbles, takeNibble_nibbleSignal]; rfl⟩
  obtain rfl | ⟨c, rfl⟩ := h2
  · exact ⟨.joinerN2, rfl, by simp only [takeNibbles, takeNibble_nibbleSignal]; rfl⟩
  obtain rfl | ⟨d, rfl⟩ := h3
  · exact ⟨.joinerN3, rfl, by simp only [takeNibbles, takeNibble_nibbleSignal]; rfl⟩
  · simp [nibbleSignal] at hsome

/-- A name that holds a nibble or nothing offers it to a nibble port. -/
theorem nibbleNamed_nothingOrNibble {k : Name} {l : List (Name × Value)}
    (h : ∀ v, lookupName k l = some v → ∃ p : Nat, v = .nibble p ∧ p ≤ 15) :
    ∃ x, nibbleNamed k l = .ok x ∧ NothingOrNibble x ∧ (lookupName k l = none → x = .undriven) := by
  cases hk : lookupName k l with
  | none => exact ⟨.undriven, nibbleNamed_unassigned hk, .inl rfl, fun _ => rfl⟩
  | some v =>
    obtain ⟨p, rfl, hp⟩ := h v hk
    exact ⟨.value p, nibbleNamed_nibble hk, .inr ⟨_, nibbleOf_eq_some.mp (nibbleOf_natCast hp)⟩, nofun⟩

/-- The name holds a value that is no nibble (R48). -/
def HoldsNoNibble (k : Name) (l : List (Name × Value)) : Prop :=
  ∃ v, lookupName k l = some v ∧ ∀ p, v ≠ .nibble p

theorem nibbleNamed_ok_or_illTyped (k : Name) (l : List (Name × Value)) :
    (∃ x, nibbleNamed k l = .ok x ∧ ¬ HoldsNoNibble k l) ∨
      (nibbleNamed k l = .error (.illTyped k) ∧ HoldsNoNibble k l) := by
  by_cases h : HoldsNoNibble k l
  · obtain ⟨v, hv, hne⟩ := h
    exact .inr ⟨nibbleNamed_illTyped hv hne, v, hv, hne⟩
  · refine .inl ?_
    cases hk : lookupName k l with
    | none => exact ⟨.undriven, nibbleNamed_unassigned hk, h⟩
    | some v =>
      obtain ⟨p, rfl⟩ : ∃ p, v = .nibble p := by
        by_contra hne
        exact h ⟨v, hk, fun p hp => hne ⟨p, hp⟩⟩
      exact ⟨.value p, nibbleNamed_nibble hk, h⟩

/-- JOIN with a name of the wrong kind is refused, by the first such name (logs 8 and 24). -/
theorem runStmt_join_illTyped {a b c d : Name} {s : State} (n : Name)
    (h : ∃ k ∈ [a, b, c, d], HoldsNoNibble k s.names) :
    ∃ k ∈ [a, b, c, d], HoldsNoNibble k s.names ∧ runStmt (.join a b c d n) s = .refused (.illTyped k) := by
  rw [runStmt_join]
  obtain ⟨n0, ha, hna⟩ | ⟨ha, hwrong⟩ := nibbleNamed_ok_or_illTyped a s.names
  case inr => exact ⟨a, by simp, hwrong, by rw [ha, orRefuse_error]⟩
  obtain ⟨n1, hb, hnb⟩ | ⟨hb, hwrong⟩ := nibbleNamed_ok_or_illTyped b s.names
  case inr => exact ⟨b, by simp, hwrong, by rw [ha, orRefuse_ok, hb, orRefuse_error]⟩
  obtain ⟨n2, hc, hnc⟩ | ⟨hc, hwrong⟩ := nibbleNamed_ok_or_illTyped c s.names
  case inr => exact ⟨c, by simp, hwrong, by rw [ha, orRefuse_ok, hb, orRefuse_ok, hc, orRefuse_error]⟩
  obtain ⟨n3, hd, hnd⟩ | ⟨hd, hwrong⟩ := nibbleNamed_ok_or_illTyped d s.names
  case inr =>
    exact ⟨d, by simp, hwrong, by rw [ha, orRefuse_ok, hb, orRefuse_ok, hc, orRefuse_ok, hd, orRefuse_error]⟩
  simp [hna, hnb, hnc, hnd] at h

/-- JOIN where every name holds a nibble or nothing, and one nothing, is `UndrivenInput` (R90; log 9). -/
theorem runStmt_join_unassigned {a b c d : Name} {s : State} (n : Name)
    (hnone : ∃ k ∈ [a, b, c, d], lookupName k s.names = none)
    (hkinds : ∀ k ∈ [a, b, c, d], ∀ v, lookupName k s.names = some v → ∃ p : Nat, v = .nibble p ∧ p ≤ 15) :
    ∃ port : InPort, port.unit = .joiner ∧ runStmt (.join a b c d n) s = .fault (.undrivenInput .joiner port) := by
  obtain ⟨n0, ha, h0, hna⟩ := nibbleNamed_nothingOrNibble (hkinds a (by simp))
  obtain ⟨n1, hb, h1, hnb⟩ := nibbleNamed_nothingOrNibble (hkinds b (by simp))
  obtain ⟨n2, hc, h2, hnc⟩ := nibbleNamed_nothingOrNibble (hkinds c (by simp))
  obtain ⟨n3, hd, h3, hnd⟩ := nibbleNamed_nothingOrNibble (hkinds d (by simp))
  have hsome : n0 = .undriven ∨ n1 = .undriven ∨ n2 = .undriven ∨ n3 = .undriven := by
    simp only [List.mem_cons, List.not_mem_nil, or_false, exists_eq_or_imp, exists_eq_left] at hnone
    exact hnone.imp hna (.imp hnb (.imp hnc hnd))
  obtain ⟨port, hport, htake⟩ := takeNibbles_undriven h0 h1 h2 h3 hsome
  exact ⟨port, hport, by simp [runStmt_join, ha, hb, hc, hd, htake]⟩

/-- Settles O58: each form is its equation above: the kinds of its names, the boundary, the evaluation, and the
assignment of new names. -/
theorem statementsNameWhatTheirUnitGives : Obligations.StatementsNameWhatTheirUnitGives := by
  intro s _
  refine ⟨fun x v hx => ?letValue, fun n x a b c d hn hlo hhi hnew hnd => ?split,
    fun a b c d n p q r w ha hb hc hd hp hq hr hw hn => ?join, fun n c p hn hp hc => ?enc,
    fun n a b c d x => ⟨fun hn hx => ?badSample, fun hn hx => ?badNibble⟩,
    fun a b c d n p q r w f ha hb hc hd hf => ?badJoin,
    fun n a b c d => ⟨fun hn => ?unassigned, fun v hn hv => ?splitIllTyped, fun v hn hv => ?encIllTyped⟩,
    fun a b c d n => ⟨runStmt_join_unassigned n, runStmt_join_illTyped n⟩⟩
  case letValue =>
    obtain ⟨ht, hnamed, hothers⟩ := next_of_eq_assignAll (runStmt_letValue x v s) (by simp [hx]) (by simp)
    exact ⟨_, ht, rfl, hnamed _ (.head _), fun k hk => hothers k (by simp [hk])⟩
  case split =>
    have hrun := runStmt_split n a b c d s
    rw [sampleNamed_sample hn, orRefuse_ok, takeSample_value hlo hhi, orRaise_ok] at hrun
    obtain ⟨ht, hnamed, hothers⟩ := next_of_eq_assignAll hrun hnew hnd
    simp only [List.forall_mem_cons] at hnamed
    obtain ⟨ha, hb, hc, hd, -⟩ := hnamed
    exact ⟨_, ht, rfl, ha, hb, hc, hd, hothers⟩
  case join =>
    have htake : takeNibbles (.value p) (.value q) (.value r) (.value w) =
        .ok ⟨BitVec.ofNat 4 p, BitVec.ofNat 4 q, BitVec.ofNat 4 r, BitVec.ofNat 4 w⟩ :=
      takeNibbles_eq_ok.mpr ⟨nibbleOf_natCast hp, nibbleOf_natCast hq, nibbleOf_natCast hr, nibbleOf_natCast hw⟩
    have hrun := runStmt_join a b c d n s
    rw [nibbleNamed_nibble ha, orRefuse_ok, nibbleNamed_nibble hb, orRefuse_ok, nibbleNamed_nibble hc, orRefuse_ok,
      nibbleNamed_nibble hd, orRefuse_ok, htake, orRaise_ok, joinNibbles_ofNat p hq hr hw] at hrun
    obtain ⟨ht, hnamed, hothers⟩ := next_of_eq_assignAll hrun (by simp [hn]) (by simp)
    exact ⟨_, ht, rfl, hnamed _ (.head _), fun k hk => hothers k (by simp [hk])⟩
  case enc =>
    have hrun := runStmt_enc n c s
    rw [nibbleNamed_nibble hn, orRefuse_ok, takeNibble_eq_ok.mpr (nibbleOf_natCast hp), orRaise_ok] at hrun
    obtain ⟨ht, hnamed, hothers⟩ := next_of_eq_assignAll hrun (by simp [hc]) (by simp)
    exact ⟨_, ht, rfl, hnamed _ (.head _), fun k hk => hothers k (by simp [hk])⟩
  case badSample => rw [runStmt_split, sampleNamed_sample hn, orRefuse_ok, takeSample_out hx, orRaise_error]
  case badNibble => rw [runStmt_enc, nibbleNamed_nibble hn, orRefuse_ok, takeNibble_out _ _ hx, orRaise_error]
  case badJoin =>
    have htake : takeNibbles (.value p) (.value q) (.value r) (.value w) = .error f := orRaise_next_eq_fault.mp hf
    simp only [runStmt_join, nibbleNamed_nibble ha, nibbleNamed_nibble hb, nibbleNamed_nibble hc,
      nibbleNamed_nibble hd, orRefuse_ok, htake, orRaise_error]
  case unassigned =>
    rw [runStmt_split, sampleNamed_unassigned hn, runStmt_enc, nibbleNamed_unassigned hn]
    exact ⟨rfl, rfl⟩
  case splitIllTyped => rw [runStmt_split, sampleNamed_illTyped hn hv, orRefuse_error]
  case encIllTyped => rw [runStmt_enc, nibbleNamed_illTyped hn hv, orRefuse_error]

end Sys2Proof.Machine

/-!
The nibble codec (spec/40_nibble_codec.md): SPLIT of a Sample and JOIN of four nibbles as equations on the state, the
joined pattern as a number and as a signed value, and from them the two units as each other's inverse.
-/

namespace Sys2Proof.Machine

/-! ## The pattern as a signed value -/

/-- `signed16` is the two's-complement reading of the pattern (R11, R52). -/
theorem signed16_eq_toInt (u : SamplePattern) : signed16 u = u.toInt := by
  rw [signed16, BitVec.toInt_eq_toNat_cond]
  split <;> split <;> omega

theorem signed16_neg_iff {u : SamplePattern} : signed16 u < 0 ↔ 32768 ≤ u.toNat := by
  have := u.isLt
  unfold signed16
  split <;> omega

theorem signed16_ofNat {v : Nat} (h : v < 65536) :
    signed16 (BitVec.ofNat 16 v) = if v < 32768 then (v : Int) else (v : Int) - 65536 := by
  rw [signed16, BitVec.toNat_ofNat, Nat.mod_eq_of_lt h]

/-! ## Nibbles and the joined pattern -/

theorem nibble_toNat_le (n : Nibble) : n.toNat ≤ 15 := Nat.le_of_lt_succ n.isLt

theorem nibble_toNat_ofNat {a : Nat} (h : a ≤ 15) : (BitVec.ofNat 4 a).toNat = a := by
  rw [BitVec.toNat_ofNat, Nat.mod_eq_of_lt (Nat.lt_succ_of_le h)]

theorem joinNibbles_eq_ofNat (q : Quad Nibble) :
    joinNibbles q =
      BitVec.ofNat 16 (4096 * q.s0.toNat + 256 * q.s1.toNat + 16 * q.s2.toNat + q.s3.toNat) := by
  rw [← concat16_toNat, BitVec.ofNat_toNat, BitVec.setWidth_eq, joinNibbles]

@[simp] theorem joinNibbles_splitNibbles (u : SamplePattern) : joinNibbles (splitNibbles u) = u := concat16_fields16 u

@[simp] theorem splitNibbles_joinNibbles (q : Quad Nibble) : splitNibbles (joinNibbles q) = q := fields16_concat16 q

theorem nibble_bit3_iff (n : Nibble) : n.getLsbD 3 = true ↔ 8 ≤ n.toNat := by
  revert n; decide

/-- The joined sample's sign is bit 3 of slot 0, the pattern's highest bit (R55). -/
theorem signed16_joinNibbles_neg_iff (q : Quad Nibble) : signed16 (joinNibbles q) < 0 ↔ q.s0.getLsbD 3 = true := by
  have h1 := q.s1.isLt; have h2 := q.s2.isLt; have h3 := q.s3.isLt
  rw [signed16_neg_iff, nibble_bit3_iff, joinNibbles, concat16_toNat]
  omega

/-! ## The two operations on values that their ports can hold -/

theorem exec_split_value {x : Int} (h : -32768 ≤ x) (h' : x ≤ 32767) (s : State) :
    exec (.split (.value x)) s =
      .next ((s.setSplitter (Port.driven (unsigned16 x)) .settled).setRead
        (.nibbles (splitNibbles (unsigned16 x)))) :=
  execSplit_eq_next.mpr ⟨_, takeSample_value h h', rfl⟩

theorem exec_join_nibbleSignals (q : Quad Nibble) (s : State) :
    exec (.join (nibbleSignal q.s0) (nibbleSignal q.s1) (nibbleSignal q.s2) (nibbleSignal q.s3)) s =
      .next ((s.setJoiner (q.map Port.driven) .settled).setRead (.sample (joinNibbles q))) :=
  execJoin_eq_next.mpr ⟨q, takeNibbles_eq_ok.mpr ⟨nibbleOf_nibbleSignal _, nibbleOf_nibbleSignal _,
    nibbleOf_nibbleSignal _, nibbleOf_nibbleSignal _⟩, rfl⟩

/-- The nibbles that JOIN takes from four numbers. -/
def nibblesOfNat (a b c d : Nat) : Quad Nibble :=
  ⟨BitVec.ofNat 4 a, BitVec.ofNat 4 b, BitVec.ofNat 4 c, BitVec.ofNat 4 d⟩

theorem natCast_eq_nibbleSignal {a : Nat} (h : a ≤ 15) : Signal.value a = nibbleSignal (BitVec.ofNat 4 a) :=
  nibbleOf_eq_some.mp (nibbleOf_natCast h)

theorem exec_join_natCast {a b c d : Nat} (ha : a ≤ 15) (hb : b ≤ 15) (hc : c ≤ 15) (hd : d ≤ 15) (s : State) :
    exec (.join (.value a) (.value b) (.value c) (.value d)) s =
      .next ((s.setJoiner ((nibblesOfNat a b c d).map Port.driven) .settled).setRead
        (.sample (joinNibbles (nibblesOfNat a b c d)))) := by
  rw [natCast_eq_nibbleSignal ha, natCast_eq_nibbleSignal hb, natCast_eq_nibbleSignal hc, natCast_eq_nibbleSignal hd]
  exact exec_join_nibbleSignals (nibblesOfNat a b c d) s

/-! ## SPLIT -/

/-- Settles O8: `splitNibbles` is the four fields, and the driven, settled port gives them. -/
theorem splitExtractsTheFourFields : Obligations.SplitExtractsTheFourFields := fun s _ hlo hhi =>
  ⟨exec_split_value hlo hhi s, splitterOut_evaluated s _ _⟩

/-- Settles O9: the nibbles, weighed by their places, are the joined pattern, which is the one SPLIT was given. -/
theorem splitOfIntegerReassembles : Obligations.SplitOfIntegerReassembles := by
  intro s x hlo hhi
  refine ⟨_, _, _, exec_split_value hlo hhi s, rfl, rfl, unsigned16_toNat x, nibble_toNat_le _, nibble_toNat_le _,
    nibble_toNat_le _, nibble_toNat_le _, ?_⟩
  rw [← joinNibbles_eq_ofNat, joinNibbles_splitNibbles, signed16_unsigned16 hlo hhi]

/-! ## JOIN -/

/-- Settles O11: the joined pattern is the weighed sum of the nibbles, which is below 65536. -/
theorem joinConcatenatesTheNibbles : Obligations.JoinConcatenatesTheNibbles := by
  intro s a b c d ha hb hc hd
  have hjoin := joinNibbles_ofNat a hb hc hd
  refine ⟨?exec, ?out, signed16_ofNat (by omega)⟩
  case exec =>
    rw [exec_join_natCast ha hb hc hd, nibblesOfNat, hjoin]
    rfl
  case out =>
    rw [← hjoin]
    exact joinerOut_evaluated s (nibblesOfNat a b c d) _

/-- Settles O12: JOIN completes for the readings of four nibbles alone, and gives their concatenation. -/
theorem joinIsTwosComplement : Obligations.JoinIsTwosComplement := by
  intro s t n0 n1 n2 n3 h
  obtain ⟨q, hq, rfl⟩ := execJoin_eq_next.mp h
  obtain ⟨h0, h1, h2, h3⟩ := takeNibbles_eq_ok.mp hq
  obtain ⟨hlo, hhi⟩ := signed16_range (joinNibbles q)
  exact ⟨q.s0.toNat, q.s1.toNat, q.s2.toNat, q.s3.toNat, joinNibbles q,
    ⟨nibbleOf_eq_some.mp h0, nibbleOf_eq_some.mp h1, nibbleOf_eq_some.mp h2, nibbleOf_eq_some.mp h3⟩,
    ⟨nibble_toNat_le _, nibble_toNat_le _, nibble_toNat_le _, nibble_toNat_le _⟩, rfl, concat16_toNat q,
    signed16_eq_toInt _, hlo, hhi, signed16_neg_iff.symm⟩

/-- Settles O16: splitting the joined pattern gives every lane back, slot 0 weighs 4096, and its bit 3 is the sign. -/
theorem joinLanesAreIndependent : Obligations.JoinLanesAreIndependent := by
  intro q n
  refine ⟨⟨splitNibbles_joinNibbles _, splitNibbles_joinNibbles _, splitNibbles_joinNibbles _,
    splitNibbles_joinNibbles _⟩, ?weight, ?sign⟩
  case weight =>
    simp only [joinNibbles, concat16_toNat]
    omega
  case sign =>
    rw [signed16_joinNibbles_neg_iff, signed16_joinNibbles_neg_iff]
    exact Bool.eq_iff_iff.symm

/-! ## Each operation after the other -/

/-- Settles O14: the nibbles read are those of the Sample's pattern, and joining them gives that pattern. -/
theorem joinAfterSplitIsIdentity : Obligations.JoinAfterSplitIsIdentity := by
  refine ⟨joinNibbles_splitNibbles, fun s x hlo hhi => ?_⟩
  refine ⟨_, _, _, _, exec_split_value hlo hhi s, rfl, exec_join_nibbleSignals _ _, rfl, ?_⟩
  rw [joinNibbles_splitNibbles, signed16_unsigned16 hlo hhi]

/-- Settles O15: each unit's function inverts the other, and the signed reading of a pattern is presented as that
pattern. -/
theorem splitAfterJoinIsIdentity : Obligations.SplitAfterJoinIsIdentity := by
  refine ⟨splitNibbles_joinNibbles, ⟨Function.LeftInverse.injective joinNibbles_splitNibbles,
    Function.RightInverse.surjective splitNibbles_joinNibbles⟩, fun s a b c d ha hb hc hd => ?_⟩
  obtain ⟨hlo, hhi⟩ := signed16_range (joinNibbles (nibblesOfNat a b c d))
  refine ⟨_, _, _, _, exec_join_natCast ha hb hc hd s, rfl, exec_split_value hlo hhi _, rfl, ?_⟩
  rw [unsigned16_signed16, splitNibbles_joinNibbles]
  exact ⟨nibble_toNat_ofNat ha, nibble_toNat_ofNat hb, nibble_toNat_ofNat hc, nibble_toNat_ofNat hd⟩

end Sys2Proof.Machine

/-!
The Hamming codec (spec/41_hamming_codec.md): the bits of words and nibbles, the syndrome of inverted positions, valid
codewords and their distance, and from them what the encoder and the decoder give on every word.
-/

namespace Sys2Proof.Machine

/-! ## Bits of words and nibbles -/

theorem bitAt_codewordOfBits (b1 b2 b3 b4 b5 b6 b7 : Bool) :
    bitAt (codewordOfBits b1 b2 b3 b4 b5 b6 b7) 1 = b1 ∧ bitAt (codewordOfBits b1 b2 b3 b4 b5 b6 b7) 2 = b2 ∧
      bitAt (codewordOfBits b1 b2 b3 b4 b5 b6 b7) 3 = b3 ∧ bitAt (codewordOfBits b1 b2 b3 b4 b5 b6 b7) 4 = b4 ∧
      bitAt (codewordOfBits b1 b2 b3 b4 b5 b6 b7) 5 = b5 ∧ bitAt (codewordOfBits b1 b2 b3 b4 b5 b6 b7) 6 = b6 ∧
      bitAt (codewordOfBits b1 b2 b3 b4 b5 b6 b7) 7 = b7 := by
  revert b1 b2 b3 b4 b5 b6 b7; decide

theorem getLsbD_nibbleOfBits (d1 d2 d3 d4 : Bool) :
    (nibbleOfBits d1 d2 d3 d4).getLsbD 3 = d1 ∧ (nibbleOfBits d1 d2 d3 d4).getLsbD 2 = d2 ∧
      (nibbleOfBits d1 d2 d3 d4).getLsbD 1 = d3 ∧ (nibbleOfBits d1 d2 d3 d4).getLsbD 0 = d4 := by
  revert d1 d2 d3 d4; decide

theorem getLsbD_dataBits (cw : Codeword) :
    (dataBits cw).getLsbD 3 = bitAt cw 3 ∧ (dataBits cw).getLsbD 2 = bitAt cw 5 ∧
      (dataBits cw).getLsbD 1 = bitAt cw 6 ∧ (dataBits cw).getLsbD 0 = bitAt cw 7 :=
  getLsbD_nibbleOfBits _ _ _ _

theorem getLsbD_syndromeOf (cw : Codeword) :
    (syndromeOf cw).getLsbD 0 = s1 cw ∧ (syndromeOf cw).getLsbD 1 = s2 cw ∧ (syndromeOf cw).getLsbD 2 = s3 cw := by
  have hbits : ∀ y1 y2 y3 : Bool, let y := BitVec.ofBool y3 ++ BitVec.ofBool y2 ++ BitVec.ofBool y1
      y.getLsbD 0 = y1 ∧ y.getLsbD 1 = y2 ∧ y.getLsbD 2 = y3 := by decide
  exact hbits (s1 cw) (s2 cw) (s3 cw)

/-- A word is its seven bits (R39). -/
theorem codeword_ext {a b : Codeword} (h : ∀ P, 1 ≤ P → P ≤ 7 → bitAt a P = bitAt b P) : a = b :=
  BitVec.eq_of_getLsbD_eq fun i hi => h (i + 1) (by omega) (by omega)

theorem bitAt_xor (a b : Codeword) (P : Nat) : bitAt (a ^^^ b) P = (bitAt a P ^^ bitAt b P) :=
  BitVec.getLsbD_xor

theorem dataBits_xor (a b : Codeword) : dataBits (a ^^^ b) = dataBits a ^^^ dataBits b := by
  refine BitVec.eq_of_getLsbD_eq fun i hi => ?_
  interval_cases i <;> simp only [BitVec.getLsbD_xor, getLsbD_dataBits, bitAt_xor]

theorem syndromeOf_xor (a b : Codeword) : syndromeOf (a ^^^ b) = syndromeOf a ^^^ syndromeOf b := by
  have h1 : s1 (a ^^^ b) = (s1 a ^^ s1 b) := by simp only [s1, bitAt_xor, Bool.xor_assoc, Bool.xor_left_comm]
  have h2 : s2 (a ^^^ b) = (s2 a ^^ s2 b) := by simp only [s2, bitAt_xor, Bool.xor_assoc, Bool.xor_left_comm]
  have h3 : s3 (a ^^^ b) = (s3 a ^^ s3 b) := by simp only [s3, bitAt_xor, Bool.xor_assoc, Bool.xor_left_comm]
  refine BitVec.eq_of_getLsbD_eq fun i hi => ?_
  interval_cases i <;> simp only [BitVec.getLsbD_xor, getLsbD_syndromeOf, h1, h2, h3]

theorem hammingEncode_xor (a b : Nibble) : hammingEncode (a ^^^ b) = hammingEncode a ^^^ hammingEncode b := by
  have h1 : p1 (a ^^^ b) = (p1 a ^^ p1 b) := by simp only [p1, BitVec.getLsbD_xor, Bool.xor_assoc, Bool.xor_left_comm]
  have h2 : p2 (a ^^^ b) = (p2 a ^^ p2 b) := by simp only [p2, BitVec.getLsbD_xor, Bool.xor_assoc, Bool.xor_left_comm]
  have h3 : p3 (a ^^^ b) = (p3 a ^^ p3 b) := by simp only [p3, BitVec.getLsbD_xor, Bool.xor_assoc, Bool.xor_left_comm]
  refine codeword_ext fun P hP hP' => ?_
  interval_cases P <;> simp only [hammingEncode, bitAt_xor, bitAt_codewordOfBits, BitVec.getLsbD_xor, h1, h2, h3]

/-! ## Inverted positions -/

theorem bitAt_flipAt (cw : Codeword) {P Q : Nat} (hP : 1 ≤ P) (hQ : 1 ≤ Q) (hQ' : Q ≤ 7) :
    bitAt (flipAt cw P) Q = (bitAt cw Q ^^ decide (Q = P)) := by
  have hmask : bitAt (1#7 <<< (P - 1)) Q = decide (Q = P) := by
    simp only [bitAt, BitVec.getLsbD_shiftLeft, BitVec.getLsbD_one]
    rw [Bool.eq_iff_iff]
    simp
    omega
  rw [flipAt, bitAt_xor, hmask]

/-- Inverting position P changes the syndrome by P (R61). -/
theorem pos_flipAt (cw : Codeword) {P : Nat} (hP : 1 ≤ P) (hP' : P ≤ 7) : pos (flipAt cw P) = pos cw ^^^ P := by
  have hmask : ∀ k : Fin 7, (syndromeOf (1#7 <<< k.val)).toNat = k.val + 1 := by decide
  have hmaskP : (syndromeOf (1#7 <<< (P - 1))).toNat = P := (hmask ⟨P - 1, by omega⟩).trans (Nat.sub_add_cancel hP)
  rw [← syndromeOf_toNat, flipAt, syndromeOf_xor, BitVec.toNat_xor, syndromeOf_toNat, hmaskP]

theorem pos_flipAll (cw : Codeword) {ps : List Nat} (h : ∀ P ∈ ps, 1 ≤ P ∧ P ≤ 7) :
    pos (flipAll cw ps) = ps.foldl (· ^^^ ·) (pos cw) := by
  induction ps generalizing cw with
  | nil => rfl
  | cons P ps ih =>
    obtain ⟨⟨hP, hP'⟩, hps⟩ := List.forall_mem_cons.mp h
    rw [List.foldl_cons, ← pos_flipAt cw hP hP', ← ih (flipAt cw P) hps]
    rfl

theorem bitAt_flipAll (cw : Codeword) {ps : List Nat} (hnd : ps.Nodup) (h : ∀ P ∈ ps, 1 ≤ P ∧ P ≤ 7) {Q : Nat}
    (hQ : 1 ≤ Q) (hQ' : Q ≤ 7) : bitAt (flipAll cw ps) Q = (bitAt cw Q ^^ decide (Q ∈ ps)) := by
  induction ps generalizing cw with
  | nil => simp [flipAll]
  | cons P ps ih =>
    obtain ⟨hPnot, hnd'⟩ := List.nodup_cons.mp hnd
    obtain ⟨⟨hP, -⟩, hps⟩ := List.forall_mem_cons.mp h
    have hrest := ih (flipAt cw P) hnd' hps
    rw [bitAt_flipAt cw hP hQ hQ'] at hrest
    rw [show flipAll cw (P :: ps) = flipAll (flipAt cw P) ps from rfl, hrest, Bool.xor_assoc]
    by_cases hQP : Q = P
    · subst hQP; simp [hPnot]
    · simp [hQP]

/-- The positions of a word's ones, in ascending order (R61). -/
def onePositions (cw : Codeword) : List Nat := [1, 2, 3, 4, 5, 6, 7].filter (bitAt cw)

theorem mem_onePositions {cw : Codeword} {P : Nat} : P ∈ onePositions cw ↔ (1 ≤ P ∧ P ≤ 7) ∧ bitAt cw P = true := by
  have hrange : P ∈ [1, 2, 3, 4, 5, 6, 7] ↔ 1 ≤ P ∧ P ≤ 7 := by
    simp only [List.mem_cons, List.not_mem_nil, or_false]
    omega
  rw [onePositions, List.mem_filter, hrange]

/-- Every word is the zero word with the positions of its ones inverted. -/
theorem flipAll_zero_onePositions (cw : Codeword) : flipAll 0#7 (onePositions cw) = cw := by
  have hnd : (onePositions cw).Nodup := List.Nodup.filter _ (by decide)
  refine codeword_ext fun P hP hP' => ?_
  rw [bitAt_flipAll _ hnd (fun Q hQ => (mem_onePositions.mp hQ).1) hP hP']
  simp [mem_onePositions, hP, hP', bitAt]

/-- The mask that inverting position P leaves on the data bits is R63's M(P). -/
theorem dataBits_flipAt (cw : Codeword) {P : Nat} (hP : 1 ≤ P) (hP' : P ≤ 7) :
    dataBits (flipAt cw P) = dataBits cw ^^^ nibbleMask (P - 1) := by
  have hmask : ∀ k : Fin 7, dataBits (1#7 <<< k.val) = nibbleMask k.val := by decide
  rw [flipAt, dataBits_xor, hmask ⟨P - 1, by omega⟩]

/-! ## Valid codewords and the working copy -/

theorem bitAt_hammingEncode (n : Nibble) :
    bitAt (hammingEncode n) 1 = p1 n ∧ bitAt (hammingEncode n) 2 = p2 n ∧ bitAt (hammingEncode n) 3 = n.getLsbD 3 ∧
      bitAt (hammingEncode n) 4 = p3 n ∧ bitAt (hammingEncode n) 5 = n.getLsbD 2 ∧
      bitAt (hammingEncode n) 6 = n.getLsbD 1 ∧ bitAt (hammingEncode n) 7 = n.getLsbD 0 :=
  bitAt_codewordOfBits _ _ _ _ _ _ _

theorem dataBits_hammingEncode (n : Nibble) : dataBits (hammingEncode n) = n := hammingDecodeRaw_hammingEncode n

/-- The syndrome compares the parity bits received with those of the data bits received (R57, R60). -/
theorem syndromeBits_eq_parity_mismatch (cw : Codeword) :
    s1 cw = (bitAt cw 1 ^^ p1 (dataBits cw)) ∧ s2 cw = (bitAt cw 2 ^^ p2 (dataBits cw)) ∧
      s3 cw = (bitAt cw 4 ^^ p3 (dataBits cw)) := by
  simp only [s1, s2, s3, p1, p2, p3, getLsbD_dataBits, Bool.xor_assoc, and_self]

/-- The syndrome is 0 exactly where the three parity bits agree (R60, R61). -/
theorem pos_eq_zero_iff_parity (cw : Codeword) :
    pos cw = 0 ↔ bitAt cw 1 = p1 (dataBits cw) ∧ bitAt cw 2 = p2 (dataBits cw) ∧ bitAt cw 4 = p3 (dataBits cw) := by
  obtain ⟨h1, h2, h3⟩ := syndromeBits_eq_parity_mismatch cw
  simp [pos, h1, h2, h3, and_assoc]

/-- A word with syndrome 0 is what its own data bits encode to, and no other word is (R68). -/
theorem hammingEncode_dataBits_eq_iff (cw : Codeword) : hammingEncode (dataBits cw) = cw ↔ pos cw = 0 := by
  obtain ⟨hb1, hb2, hb3, hb4, hb5, hb6, hb7⟩ := bitAt_hammingEncode (dataBits cw)
  obtain ⟨hd3, hd2, hd1, hd0⟩ := getLsbD_dataBits cw
  rw [pos_eq_zero_iff_parity]
  constructor
  · intro h
    rw [h] at hb1 hb2 hb4
    exact ⟨hb1, hb2, hb4⟩
  · rintro ⟨h1, h2, h4⟩
    refine codeword_ext fun P hP hP' => ?_
    interval_cases P
    · exact hb1.trans h1.symm
    · exact hb2.trans h2.symm
    · exact hb3.trans hd3
    · exact hb4.trans h4.symm
    · exact hb5.trans hd2
    · exact hb6.trans hd1
    · exact hb7.trans hd0

@[simp] theorem pos_hammingEncode (n : Nibble) : pos (hammingEncode n) = 0 :=
  (hammingEncode_dataBits_eq_iff _).mp (congrArg hammingEncode (dataBits_hammingEncode n))

theorem validCodeword_iff_pos_eq_zero (cw : Codeword) : ValidCodeword cw ↔ pos cw = 0 :=
  ⟨fun ⟨n, hn⟩ => hn ▸ pos_hammingEncode n, fun h => ⟨dataBits cw, (hammingEncode_dataBits_eq_iff cw).mpr h⟩⟩

theorem pos_le_seven (cw : Codeword) : pos cw ≤ 7 :=
  syndromeOf_toNat cw ▸ Nat.le_of_lt_succ (syndromeOf cw).isLt

theorem syndromeOf_eq_zero_iff (cw : Codeword) : syndromeOf cw = 0 ↔ pos cw = 0 := by
  rw [← syndromeOf_toNat, ← BitVec.toNat_inj]
  rfl

theorem workingCopy_of_pos_eq_zero {cw : Codeword} (h : pos cw = 0) : workingCopy cw = cw := if_pos h

theorem workingCopy_of_pos_ne_zero {cw : Codeword} (h : pos cw ≠ 0) : workingCopy cw = flipAt cw (pos cw) := if_neg h

theorem bitAt_workingCopy (cw : Codeword) {P : Nat} (hP : 1 ≤ P) (hP' : P ≤ 7) :
    bitAt (workingCopy cw) P = (bitAt cw P ^^ decide (P = pos cw)) := by
  by_cases h : pos cw = 0
  · have hne : P ≠ pos cw := by omega
    rw [workingCopy_of_pos_eq_zero h, decide_eq_false hne, Bool.xor_false]
  · rw [workingCopy_of_pos_ne_zero h, bitAt_flipAt cw (Nat.pos_of_ne_zero h) hP hP']

/-- The correcting flip cancels the syndrome (R62). -/
theorem pos_workingCopy (cw : Codeword) : pos (workingCopy cw) = 0 := by
  by_cases h : pos cw = 0
  · rw [workingCopy_of_pos_eq_zero h, h]
  · rw [workingCopy_of_pos_ne_zero h, pos_flipAt cw (Nat.pos_of_ne_zero h) (pos_le_seven cw), Nat.xor_self]

/-- The decoded nibble encodes to the working copy (R72). -/
theorem hammingEncode_hammingDecode (cw : Codeword) : hammingEncode (hammingDecode cw) = workingCopy cw :=
  (hammingEncode_dataBits_eq_iff _).mpr (pos_workingCopy cw)

/-- `d = d_raw ⊕ M(pos)`, the closed form of R63. -/
theorem hammingDecode_eq_raw_xor_mask (cw : Codeword) :
    hammingDecode cw = hammingDecodeRaw cw ^^^ nibbleMask (pos cw - 1) := by
  by_cases h : pos cw = 0
  · rw [hammingDecode, workingCopy_of_pos_eq_zero h, h, hammingDecodeRaw]
    exact BitVec.xor_zero.symm
  · rw [hammingDecode, workingCopy_of_pos_ne_zero h, dataBits_flipAt cw (Nat.pos_of_ne_zero h) (pos_le_seven cw),
      hammingDecodeRaw]

/-! ## Distance -/

/-- A word as the family of its seven bits, of which `distance` is the Hamming distance. -/
def codewordBits (cw : Codeword) (i : Fin 7) : Bool := cw.getLsbD i

theorem distance_eq_hammingDist (a b : Codeword) : distance a b = hammingDist (codewordBits a) (codewordBits b) := by
  rw [distance, ← List.countP_eq_length_filter, hammingDist, Finset.card_filter, Fin.sum_univ_seven]
  simp [codewordBits, List.range_succ_eq_map, List.countP_cons]
  ac_rfl

theorem distance_triangle (a b c : Codeword) : distance a c ≤ distance a b + distance b c := by
  simp only [distance_eq_hammingDist]
  exact hammingDist_triangle _ _ _

theorem distance_comm (a b : Codeword) : distance a b = distance b a := by
  simp only [distance_eq_hammingDist, hammingDist_comm]

theorem distance_self (a : Codeword) : distance a a = 0 := by
  rw [distance_eq_hammingDist, hammingDist_self]

theorem distance_eq_distance_zero (a b : Codeword) : distance a b = distance (a ^^^ b) 0#7 := by
  simp [distance, bne]

/-- A word with a set of positions inverted is as far away as the set is large. -/
theorem distance_flipAll (cw : Codeword) {ps : List Nat} (hnd : ps.Nodup) (h : ∀ P ∈ ps, 1 ≤ P ∧ P ≤ 7) :
    distance cw (flipAll cw ps) = ps.length := by
  have hfilter : ((List.range 7).filter fun i => cw.getLsbD i != (flipAll cw ps).getLsbD i) =
      (List.range 7).filter fun i => decide (i + 1 ∈ ps) := by
    refine List.filter_congr fun i hi => ?_
    have hbit := bitAt_flipAll cw hnd h (Nat.le_add_left 1 i) (List.mem_range.mp hi)
    simp only [bitAt, Nat.add_sub_cancel] at hbit
    rw [hbit]
    cases cw.getLsbD i <;> simp
  have hperm : (((List.range 7).filter fun i => decide (i + 1 ∈ ps)).map (· + 1)).Perm ps := by
    refine (List.perm_ext_iff_of_nodup ?_ hnd).mpr fun P => ?_
    · exact ((List.nodup_range).filter _).map (Nat.succ_injective)
    · simp only [List.mem_map, List.mem_filter, List.mem_range, decide_eq_true_eq]
      constructor
      · rintro ⟨i, ⟨-, hi⟩, rfl⟩
        exact hi
      · intro hP
        obtain ⟨hlo, hhi⟩ := h P hP
        exact ⟨P - 1, ⟨by omega, by rwa [Nat.sub_add_cancel hlo]⟩, Nat.sub_add_cancel hlo⟩
  rw [distance, hfilter, ← hperm.length_eq, List.length_map]

/-- Distinct outputs of the encoder differ in at least three positions (R59). -/
theorem three_le_distance_hammingEncode {a b : Nibble} (h : a ≠ b) :
    3 ≤ distance (hammingEncode a) (hammingEncode b) := by
  have hweight : ∀ n : Nibble, n ≠ 0#4 → 3 ≤ distance (hammingEncode n) 0#7 := by decide
  rw [distance_eq_distance_zero, ← hammingEncode_xor]
  exact hweight _ fun h0 => h (BitVec.xor_eq_zero_iff.mp h0)

theorem distance_workingCopy_le_one (cw : Codeword) : distance cw (workingCopy cw) ≤ 1 := by
  by_cases h : pos cw = 0
  · rw [workingCopy_of_pos_eq_zero h, distance_self]
    exact Nat.zero_le 1
  · rw [workingCopy_of_pos_ne_zero h]
    have := pos_le_seven cw
    exact (distance_flipAll cw (List.nodup_singleton (pos cw)) (by simp; omega)).le

/-- The nibble decoded is the one whose codeword is within distance 1, of which there is no other (R72). -/
theorem hammingDecode_eq_iff_distance_le_one (cw : Codeword) (n : Nibble) :
    hammingDecode cw = n ↔ distance cw (hammingEncode n) ≤ 1 := by
  have hnear : distance cw (hammingEncode (hammingDecode cw)) ≤ 1 := by
    rw [hammingEncode_hammingDecode]
    exact distance_workingCopy_le_one cw
  refine ⟨fun h => h ▸ hnear, fun h => ?_⟩
  by_contra hne
  have hfar := three_le_distance_hammingEncode hne
  have htri := distance_triangle (hammingEncode (hammingDecode cw)) cw (hammingEncode n)
  rw [distance_comm _ cw] at htri
  omega

/-- With two or more positions inverted the nibble decoded is never the one encoded (R69). -/
theorem hammingDecode_flipAll_ne (n : Nibble) {ps : List Nat} (hnd : ps.Nodup) (h : ∀ P ∈ ps, 1 ≤ P ∧ P ≤ 7)
    (hlen : 2 ≤ ps.length) : hammingDecode (flipAll (hammingEncode n) ps) ≠ n := by
  rw [Ne, hammingDecode_eq_iff_distance_le_one, distance_comm, distance_flipAll _ hnd h]
  omega

/-! ## The three operations on values that their ports can hold -/

theorem exec_encode_natCast {n : Nat} (h : n ≤ 15) (s : State) :
    exec (.encode (.value n)) s =
      .next ((s.setEncoder (Port.driven (BitVec.ofNat 4 n)) .settled).setRead
        (.codeword (hammingEncode (BitVec.ofNat 4 n)))) :=
  execEncode_eq_next.mpr ⟨_, nibbleOf_natCast h, rfl⟩

theorem exec_decode_bits (b1 b2 b3 b4 b5 b6 b7 : Bool) (s : State) :
    exec (.decode ([b1, b2, b3, b4, b5, b6, b7].map bitSignal)) s =
      .next ((s.setDecoder (Port.driven (codewordOfBits b1 b2 b3 b4 b5 b6 b7)) .settled).setRead
        (.decoded (hammingDecode (codewordOfBits b1 b2 b3 b4 b5 b6 b7))
          (syndromeOf (codewordOfBits b1 b2 b3 b4 b5 b6 b7)))) :=
  codewordSignals_codewordOfBits b1 b2 b3 b4 b5 b6 b7 ▸ execDecode_codeword _ s

theorem exec_decodeRaw_bits (b1 b2 b3 b4 b5 b6 b7 : Bool) (s : State) :
    exec (.decodeRaw ([b1, b2, b3, b4, b5, b6, b7].map bitSignal)) s =
      .next ((s.setDecoder (Port.driven (codewordOfBits b1 b2 b3 b4 b5 b6 b7)) .settled).setRead
        (.raw (hammingDecodeRaw (codewordOfBits b1 b2 b3 b4 b5 b6 b7)))) :=
  codewordSignals_codewordOfBits b1 b2 b3 b4 b5 b6 b7 ▸ execDecodeRaw_codeword _ s

/-! ## ENCODE -/

/-- Settles O17: the encoder's seven bits, with the nibble's bits those of the number presented. -/
theorem encodeEmitsParityAndData : Obligations.EncodeEmitsParityAndData := by
  intro s n hn
  have hbit : ∀ i < 4, (BitVec.ofNat 4 n).getLsbD i = n.testBit i := fun i hi => by
    rw [BitVec.getLsbD_ofNat, decide_eq_true hi, Bool.true_and]
  have hbits := bitAt_hammingEncode (BitVec.ofNat 4 n)
  simp only [p1, p2, p3, hbit, Nat.reduceLT] at hbits
  obtain ⟨hb1, hb2, hb3, hb4, hb5, hb6, hb7⟩ := hbits
  exact ⟨_, exec_encode_natCast hn s, encoderOut_evaluated s _ _, hb1, hb2, hb3, hb4, hb5, hb6, hb7⟩

/-- Settles O18: by linearity the distance of two outputs is the weight of a third, which is at least 3. -/
theorem encodeIsSystematicWithDistanceThree : Obligations.EncodeIsSystematicWithDistanceThree := by
  refine ⟨fun n => ?systematic, fun a b hne => ⟨?distinct, three_le_distance_hammingEncode hne⟩, 0x0#4, 0x8#4,
    by decide⟩
  case systematic =>
    obtain ⟨-, -, h3, -, h5, h6, h7⟩ := bitAt_hammingEncode n
    exact ⟨h3, h5, h6, h7⟩
  case distinct =>
    intro h
    have hfar := three_le_distance_hammingEncode hne
    rw [h, distance_self] at hfar
    omega

/-- Settles O19: every bit of the output is an XOR of the nibble's bits. -/
theorem encodeIsLinear : Obligations.EncodeIsLinear := hammingEncode_xor

/-! ## DECODE and DECODE_RAW -/

/-- Settles O22: a word is the zero word with the positions of its ones inverted, each of which changes the syndrome by
its number. -/
theorem syndromeIsXorOfPositions : Obligations.SyndromeIsXorOfPositions := by
  intro cw
  refine ⟨(syndromeOf_toNat cw).symm, pos_le_seven cw, rfl, ?_⟩
  calc pos cw = pos (flipAll 0#7 (onePositions cw)) := by rw [flipAll_zero_onePositions]
    _ = (onePositions cw).foldl (· ^^^ ·) (pos 0#7) := pos_flipAll _ fun P hP => (mem_onePositions.mp hP).1
    _ = _ := List.foldl_filter

/-- Settles O20: the port's bits are those presented, the syndrome is their parities, and `d` is the data bits of the
working copy. -/
theorem decodeCorrectsAtTheSyndromePosition : Obligations.DecodeCorrectsAtTheSyndromePosition := by
  intro s b1 b2 b3 b4 b5 b6 b7
  have hexec := exec_decode_bits b1 b2 b3 b4 b5 b6 b7 s
  have hbits := bitAt_codewordOfBits b1 b2 b3 b4 b5 b6 b7
  generalize codewordOfBits b1 b2 b3 b4 b5 b6 b7 = cw at hexec hbits
  have hvalue := syndromeOf_toNat cw
  have hsyn : s1 cw = (b1 ^^ b3 ^^ b5 ^^ b7) ∧ s2 cw = (b2 ^^ b3 ^^ b6 ^^ b7) ∧ s3 cw = (b4 ^^ b5 ^^ b6 ^^ b7) := by
    simp only [s1, s2, s3, hbits, and_self]
  obtain ⟨h1, h2, h3⟩ := hsyn
  refine ⟨cw, hammingDecode cw, syndromeOf cw, hexec, ⟨hammingDecodeRaw cw, decoderOut_evaluated s _ _, ?closedForm⟩,
    hbits, ?bits, ?value, workingCopy cw, fun P hP hP' => ?flip, getLsbD_dataBits (workingCopy cw)⟩
  case closedForm =>
    rw [hammingDecode_eq_raw_xor_mask, ← hvalue]
    generalize syndromeOf cw = y
    congr 1
    revert y
    decide
  case bits =>
    rw [← h1, ← h2, ← h3]
    exact getLsbD_syndromeOf cw
  case value => rw [hvalue, pos, h1, h2, h3]
  case flip =>
    rw [hvalue]
    exact bitAt_workingCopy cw hP hP'

/-- Settles O21: the two nibbles differ by the mask of the syndrome, which is 0 exactly for 0, 1, 2 and 4. -/
theorem decodeRawTakesTheDataBits : Obligations.DecodeRawTakesTheDataBits := by
  intro s b1 b2 b3 b4 b5 b6 b7
  have hexec := exec_decodeRaw_bits b1 b2 b3 b4 b5 b6 b7 s
  have hbits := bitAt_codewordOfBits b1 b2 b3 b4 b5 b6 b7
  generalize codewordOfBits b1 b2 b3 b4 b5 b6 b7 = cw at hexec hbits
  have hdata := getLsbD_dataBits cw
  simp only [hbits] at hdata
  refine ⟨cw, hammingDecode cw, hammingDecodeRaw cw, syndromeOf cw, hexec, hbits, decoderOut_evaluated s _ _, hdata, ?_⟩
  have hmask : ∀ y : Syndrome,
      0#4 = nibbleMask (y.toNat - 1) ↔ y.toNat = 0 ∨ y.toNat = 1 ∨ y.toNat = 2 ∨ y.toNat = 4 := by decide
  calc hammingDecodeRaw cw = hammingDecode cw
    _ ↔ hammingDecodeRaw cw ^^^ 0#4 = hammingDecodeRaw cw ^^^ nibbleMask (pos cw - 1) := by
      rw [BitVec.xor_zero, hammingDecode_eq_raw_xor_mask]
    _ ↔ 0#4 = nibbleMask ((syndromeOf cw).toNat - 1) := by rw [BitVec.xor_right_inj, syndromeOf_toNat]
    _ ↔ _ := hmask (syndromeOf cw)

/-! ## Errors and correction -/

/-- Settles O24: the syndrome of a valid codeword is 0, and an inverted position is the syndrome and is corrected. -/
theorem singleBitErrorIsCorrected : Obligations.SingleBitErrorIsCorrected := by
  intro s n
  refine ⟨⟨_, execDecode_codeword _ s, ?unmodified, workingCopy_of_pos_eq_zero (pos_hammingEncode n)⟩,
    fun P hP hP' => ⟨_, syndromeOf (flipAt (hammingEncode n) P), execDecode_codeword _ s, ?corrected, ?position⟩⟩
  case unmodified =>
    rw [State.setRead_hostRead, hammingDecode_hammingEncode, (syndromeOf_eq_zero_iff _).mpr (pos_hammingEncode n)]
  case corrected =>
    have hd := hammingDecode_flipAt n (k := P - 1) (by omega)
    rw [Nat.sub_add_cancel hP] at hd
    exact congrArg (Readout.decoded · _) hd
  case position => rw [syndromeOf_toNat, pos_flipAt _ hP hP', pos_hammingEncode, Nat.zero_xor]

/-- Settles O25: the syndrome is 0 exactly where the parity bits are those of the data bits. -/
theorem zeroSyndromeExactlyForValidCodewords : Obligations.ZeroSyndromeExactlyForValidCodewords := fun s cw =>
  ⟨_, hammingDecode cw, syndromeOf cw, execDecode_codeword cw s, rfl,
    (syndromeOf_eq_zero_iff cw).trans (validCodeword_iff_pos_eq_zero cw).symm⟩

/-- DECODE of a codeword with two or more positions inverted: it completes, the syndrome is their XOR, and the nibble is
a wrong one, that of the working copy (R66, R69). -/
theorem exec_decode_flipAll (s : State) (n : Nibble) {ps : List Nat} (hnd : ps.Nodup)
    (h : ∀ P ∈ ps, 1 ≤ P ∧ P ≤ 7) (hlen : 2 ≤ ps.length) :
    ∃ t d y, exec (.decode (codewordSignals (flipAll (hammingEncode n) ps))) s = .next t ∧
      t.hostRead = .decoded d y ∧ y.toNat = ps.foldl (· ^^^ ·) 0 ∧ d ≠ n ∧
      (y.toNat = 0 → flipAll (hammingEncode n) ps = hammingEncode d) ∧
      (y.toNat ≠ 0 → flipAt (flipAll (hammingEncode n) ps) y.toNat = hammingEncode d) := by
  refine ⟨_, _, _, execDecode_codeword _ s, rfl, ?_, hammingDecode_flipAll_ne n hnd h hlen, ?_⟩
  · rw [syndromeOf_toNat, pos_flipAll _ h, pos_hammingEncode]
  · rw [syndromeOf_toNat, hammingEncode_hammingDecode]
    exact ⟨fun h0 => (workingCopy_of_pos_eq_zero h0).symm, fun h0 => (workingCopy_of_pos_ne_zero h0).symm⟩

theorem xor_ne_left {a b : Nat} (h : b ≠ 0) : a ^^^ b ≠ a := fun hab =>
  h (Nat.xor_right_inj.mp (hab.trans (Nat.xor_zero a).symm))

/-- The complement of a codeword is the codeword of the complement, all seven positions being inverted (R69). -/
theorem not_hammingEncode (n : Nibble) : ~~~(hammingEncode n) = hammingEncode (n ^^^ 0xF#4) := by
  have hones : hammingEncode 0xF#4 = BitVec.allOnes 7 := by decide
  rw [hammingEncode_xor, hones, BitVec.xor_allOnes]

/-- Settles O26: the XOR of two or three distinct positions is none of them, and all seven inverted lead to the codeword
of the complement. -/
theorem multiBitErrorsAreSilentlyMiscorrected : Obligations.MultiBitErrorsAreSilentlyMiscorrected := by
  intro s n
  refine ⟨fun i j hi hij hj => ?two, fun i j k hi hij hjk hk => ?three, _, execDecode_codeword _ s, ?seven⟩
  case two =>
    obtain ⟨t, d, y, ht, hread, hy, hd, -, hcopy⟩ :=
      exec_decode_flipAll s n (ps := [i, j]) (by simp; omega) (by simp; omega) (by simp)
    simp only [List.foldl_cons, List.foldl_nil, Nat.zero_xor] at hy
    have h0 : y.toNat ≠ 0 := hy ▸ Nat.xor_ne_zero_iff.mpr (by omega)
    exact ⟨t, d, y, ht, hread, hy, h0, hy ▸ xor_ne_left (by omega), hy ▸ Nat.xor_comm i j ▸ xor_ne_left (by omega), hd,
      hcopy h0⟩
  case three =>
    obtain ⟨t, d, y, ht, hread, hy, hd, hvalid, hcopy⟩ :=
      exec_decode_flipAll s n (ps := [i, j, k]) (by simp; omega) (by simp; omega) (by simp)
    simp only [List.foldl_cons, List.foldl_nil, Nat.zero_xor] at hy
    refine ⟨t, d, y, ht, hread, hd, hy, ?_, ?_, ?_, hvalid, hcopy⟩ <;> rw [hy]
    · rw [Nat.xor_assoc]
      exact xor_ne_left (Nat.xor_ne_zero_iff.mpr (by omega))
    · rw [Nat.xor_assoc, Nat.xor_left_comm]
      exact xor_ne_left (Nat.xor_ne_zero_iff.mpr (by omega))
    · rw [Nat.xor_comm]
      exact xor_ne_left (Nat.xor_ne_zero_iff.mpr (by omega))
  case seven =>
    rw [State.setRead_hostRead, not_hammingEncode, hammingDecode_hammingEncode,
      (syndromeOf_eq_zero_iff _).mpr (pos_hammingEncode _)]

/-- Settles O27: the working copy is valid and near, and two valid codewords near one word would be near each other. -/
theorem codeIsPerfect : Obligations.CodeIsPerfect := by
  refine ⟨hammingDecode_hammingEncode, ?valid, fun r => ⟨(validCodeword_iff_pos_eq_zero _).mpr (pos_workingCopy r),
    distance_workingCopy_le_one r, ?nearest, hammingEncode_hammingDecode r⟩⟩
  case valid =>
    rintro _ ⟨n, rfl⟩
    rw [hammingDecode_hammingEncode]
  case nearest =>
    rintro _ ⟨n, rfl⟩ hn
    rw [← hammingEncode_hammingDecode, (hammingDecode_eq_iff_distance_le_one r n).mpr hn]

end Sys2Proof.Machine

/-!
The reference host's data: CORRUPT on groups and its refusals, what an ended run holds and hands over, and the two
audio adapters.
-/

namespace Sys2Proof.Machine

/-! ## CORRUPT on groups of codewords -/

/-- CORRUPT inverts the bit at `bit_index` of slot 0 where the stride divides the index (R75, R76). -/
theorem corruptGroup_eq_ite_dvd (stride bitIndex i : Nat) (q : Quad Codeword) :
    corruptGroup stride bitIndex i q =
      if stride ∣ i then ⟨q.s0 ^^^ (1#7 <<< bitIndex), q.s1, q.s2, q.s3⟩ else q := by
  simp only [corruptGroup, Nat.dvd_iff_mod_eq_zero]
  rfl

/-- Settles O40: CORRUPT acts on each group by itself. -/
theorem corruptFlipsOneBitOfHitGroups : Obligations.CorruptFlipsOneBitOfHitGroups := by
  intro stride bitIndex groups
  refine ⟨length_corrupt stride bitIndex groups, fun i q hq => ?_⟩
  rw [getElem?_corrupt, hq, Option.map_some, corruptGroup_eq_ite_dvd]

theorem flipAt_ne (cw : Codeword) {k : Nat} (hk : k ≤ 6) : flipAt cw (k + 1) ≠ cw := fun h => by
  have hbit := bitAt_flipAt cw (P := k + 1) (Q := k + 1) (by omega) (by omega) (by omega)
  rw [h] at hbit
  simp at hbit

/-- With `bit_index` in range a group is changed exactly where its index is hit (R75, R76). -/
theorem corruptGroup_ne_iff {stride bitIndex i : Nat} (hb : bitIndex ≤ 6) (q : Quad Codeword) :
    corruptGroup stride bitIndex i q ≠ q ↔ i % stride = 0 := by
  unfold corruptGroup
  split
  case isTrue hi => simpa [hi] using fun h => flipAt_ne q.s0 hb (congrArg Quad.s0 h)
  case isFalse hi => simp [hi]

theorem getElem?_corrupt_ne_iff {stride bitIndex i : Nat} {groups : List (Quad Codeword)} (hb : bitIndex ≤ 6)
    (hi : i < groups.length) : (corrupt stride bitIndex groups)[i]? ≠ groups[i]? ↔ i % stride = 0 := by
  rw [getElem?_corrupt, List.getElem?_eq_getElem hi, Option.map_some, Ne, Option.some.injEq]
  exact corruptGroup_ne_iff hb _

/-- There are `ceil(N / s)` multiples of s below N (R75). -/
theorem length_filter_range_mod_eq_zero {stride : Nat} (hs : 1 ≤ stride) (n : Nat) :
    ((List.range n).filter fun i => decide (i % stride = 0)).length = (n + stride - 1) / stride := by
  calc ((List.range n).filter fun i => decide (i % stride = 0)).length
    _ = n.count (· ≡ 0 [MOD stride]) := by
      rw [Nat.count, List.countP_eq_length_filter]
      refine congrArg _ (List.filter_congr fun i _ => decide_eq_decide.mpr ?_)
      rw [Nat.ModEq, Nat.zero_mod]
    _ = n / stride + if 0 < n % stride then 1 else 0 := by rw [Nat.count_modEq_card _ hs, Nat.zero_mod]
    _ = (n + (stride - 1)) / stride := by
      rw [Nat.add_div hs, Nat.div_eq_of_lt (by omega : stride - 1 < stride),
        Nat.mod_eq_of_lt (by omega : stride - 1 < stride), Nat.add_zero]
      congr 2
      exact propext (by omega)
    _ = (n + stride - 1) / stride := by rw [Nat.add_sub_assoc hs]

/-- Settles O41: the groups that CORRUPT changes are the hit ones, of which there are `ceil(N / s)`. -/
theorem corruptHitsEveryStride : Obligations.CorruptHitsEveryStride := by
  intro stride bitIndex groups hs hb
  have hhit : ∀ i < groups.length, ((corrupt stride bitIndex groups)[i]? ≠ groups[i]? ↔ i % stride = 0) :=
    fun i hi => getElem?_corrupt_ne_iff hb hi
  refine ⟨hhit, ?count, fun hn => (hhit 0 hn).mpr (Nat.zero_mod stride)⟩
  case count =>
    rw [← length_filter_range_mod_eq_zero hs, List.filter_congr fun i hi => ?_]
    exact decide_eq_decide.mpr (hhit i (List.mem_range.mp hi))

/-- Settles O42: a hit group has its bit inverted twice, any other is left alone twice. -/
theorem corruptTwiceRestores : Obligations.CorruptTwiceRestores := by
  intro stride bitIndex groups
  refine List.ext_getElem? fun i => ?_
  cases hq : groups[i]? with
  | none => simp [getElem?_corrupt, hq]
  | some q => simp [getElem?_corrupt, hq, corruptGroup_corruptGroup]

/-! ## Parameters of CORRUPT -/

theorem takeParams_natCast {stride bitIndex : Nat} (hs : 1 ≤ stride) (hb : bitIndex ≤ 6) :
    takeParams stride bitIndex = .ok (stride, bitIndex) :=
  takeParams_eq_ok.mpr ⟨by omega, by omega, by omega, rfl⟩

@[simp] theorem takeGroup_codewordSignals (i : Nat) (q : Quad Codeword) :
    takeGroup i (q.map codewordSignals) = .ok q := by
  simp [takeGroup, Quad.map]

/-- Groups of well-formed codewords are taken as they are (R88). -/
theorem takeGroups_codewordSignals (i : Nat) (qs : List (Quad Codeword)) :
    takeGroups i (qs.map fun q => q.map codewordSignals) = .ok qs := by
  induction qs generalizing i with
  | nil => rfl
  | cons q qs ih => simp [takeGroups, ih]

theorem callCorrupt_of_bad_params {stride bitIndex : Int} {f : Fault} (h : takeParams stride bitIndex = .error f)
    (groups : List (Quad (List Signal))) (s : State) : callCorrupt groups stride bitIndex s = .fault f := by
  rw [callCorrupt, h, orRaise_error]

theorem beginRun_of_bad_params {stride bitIndex : Option Int} {f : Fault}
    (h : takeParams (stride.getD Config.defaultStride) (bitIndex.getD Config.defaultBitIndex) = .error f)
    (original : List HostFloat) (samples : List Int) (s : State) :
    beginRun original samples stride bitIndex s = .fault f := by
  rw [beginRun, h, orRaise_error]

theorem loadRun_of_bad_params {stride bitIndex : Option Int} {f : Fault}
    (h : takeParams (stride.getD Config.defaultStride) (bitIndex.getD Config.defaultBitIndex) = .error f)
    (floats : List HostFloat) (s : State) : loadRun floats stride bitIndex s = .fault f := by
  rw [loadRun, h, orRaise_error]

/-- A parameter that is not the default has been given. -/
theorem eq_some_of_getD_ne {o : Option Int} {d : Int} (h : o.getD d ≠ d) : o = some (o.getD d) := by
  cases o with
  | none => exact absurd rfl h
  | some x => rfl

/-- Settles O43: the parameters are looked at before anything else, and the defaults are good, so a bad one was given;
with good ones the codewords are taken and corrupted. -/
theorem badHostParameterIsRefused : Obligations.BadHostParameterIsRefused := by
  refine ⟨fun s stride bitIndex groups hbad => ?call, fun s stride bitIndex original floats samples hbad => ?begin,
    fun s stride bitIndex qs hs hb => ?good⟩
  case call =>
    obtain ⟨p, v, hparams, hpv⟩ := takeParams_bad hbad
    exact ⟨p, v, callCorrupt_of_bad_params hparams groups s, hpv⟩
  case begin =>
    have hbad' : stride.getD 100 ≤ 0 ∨ bitIndex.getD 6 < 0 ∨ 6 < bitIndex.getD 6 := by
      obtain ⟨x, rfl, hx⟩ | ⟨x, rfl, hx⟩ := hbad
      · exact .inl hx
      · exact .inr hx
    obtain ⟨p, v, hparams, hpv⟩ := takeParams_bad hbad'
    refine ⟨p, v, beginRun_of_bad_params hparams original samples s, loadRun_of_bad_params hparams floats s, ?_⟩
    obtain ⟨rfl, rfl, hv⟩ | ⟨rfl, rfl, hv⟩ := hpv
    · exact .inl ⟨rfl, eq_some_of_getD_ne (by omega), hv⟩
    · exact .inr ⟨rfl, eq_some_of_getD_ne (by omega), hv⟩
  case good =>
    exact callCorrupt_eq_next.mpr ⟨_, qs, takeParams_natCast hs hb, takeGroups_codewordSignals 0 qs, rfl⟩

/-- Settles O47: bit 12 is what `bit_index` 6 stands for in PROCESS at every stride. -/
theorem defaultCorruptionFlipsBitTwelve : Obligations.DefaultCorruptionFlipsBitTwelve := by
  refine ⟨rfl, rfl, fun samples hx => ?_⟩
  obtain ⟨raw, hproc, hlen, hmiss, hhit⟩ := processCorrectsEveryRun 100 6 samples (by decide) (by decide) hx
  refine ⟨raw, hproc, hlen, fun i x hxi => ?_⟩
  by_cases hi : i % 100 = 0
  · obtain ⟨y, hy, hlo, hhi, hpattern⟩ := hhit i x hi hxi
    exact ⟨y, hy, hlo, hhi, fun _ => hpattern, fun h => absurd hi h⟩
  · obtain ⟨hlo, hhi⟩ := hx x (List.mem_of_getElem? hxi)
    exact ⟨x, (hmiss i hi).trans hxi, hlo, hhi, fun h => absurd h hi, fun _ => rfl⟩

/-! ## What the buffers of a run hold -/

/-- Settles O60: the splitter's nibbles are the four fields of the pattern, each encoded. -/
theorem encodeSampleWritesItsGroup : Obligations.EncodeSampleWritesItsGroup := by
  refine fun s i => ⟨fun x hx => encodeSample_eq_next.mpr ⟨x, hx, rfl⟩, fun hi => ?_⟩
  rw [encodeSample, List.getElem?_eq_none hi]

/-- A complete buffer of the right length whose elements are the expected ones is the expected list (R32). -/
theorem eq_map_some_of_allWritten {α : Type} {buf : List (Option α)} {l vals : List α} (hl : allWritten buf = some l)
    (hlen : buf.length = vals.length) (h : ∀ (i : Nat) (a : α), buf[i]? = some (some a) → vals[i]? = some a) :
    buf = vals.map some := by
  obtain rfl := allWritten_eq_some.mp hl
  refine congrArg _ (List.ext_getElem (by simpa using hlen) fun i hi hi' => ?_)
  have hval := h i l[i] (by simp [hi])
  rw [List.getElem?_eq_getElem hi'] at hval
  exact (Option.some.inj hval).symm

/-- A run has ended exactly when both output streams have their length and are complete (R111). -/
theorem Run.ended_iff {r : Run} :
    r.ended = true ↔ r.corrupted.length = r.samples.length ∧ r.corrected.length = r.samples.length ∧
      (∃ e, allWritten r.corrupted = some e) ∧ ∃ c, allWritten r.corrected = some c := by
  simp only [Run.ended, Bool.and_eq_true, decide_eq_true_eq, Option.isSome_iff_exists, and_assoc]

theorem RunConsistent.corrected_of_ended {r : Run} (hr : RunConsistent r) (h : r.ended = true) :
    r.corrected = r.samples.map some := by
  obtain ⟨-, hlen, -, c, hc⟩ := Run.ended_iff.mp h
  exact eq_map_some_of_allWritten hc hlen hr.corrected_ok

theorem RunConsistent.corrupted_of_ended {r : Run} (hr : RunConsistent r) (h : r.ended = true) :
    r.corrupted = (r.expectedCorrupt.map rawSample).map some := by
  obtain ⟨hlen, -, ⟨e, he⟩, -⟩ := Run.ended_iff.mp h
  exact eq_map_some_of_allWritten he (by simpa using hlen) fun i y hy => by
    rw [List.getElem?_map]
    exact hr.corrupted_ok i y hy

/-- Settles O39: an ended run has every element of both streams written, and the invariant says what each is. -/
theorem endedRunReturnsItsInput : Obligations.EndedRunReturnsItsInput := by
  intro s hs hended r
  refine ⟨hs.run.corrected_of_ended hended, (hs.run.corrupted_of_ended hended).trans ?_⟩
  rw [List.map_map]
  refine List.map_congr_left fun q _ => congrArg some ?_
  rw [rawSample_eq]
  simp only [dataBits_toNat, r]

/-! ## The exit adapter -/

theorem floatError_nonneg (q : Rat) : 0 ≤ floatError q := by
  unfold floatError
  positivity

theorem asFloat_intCast (n : Int) : asFloat n = n := if_pos rfl

theorem exitFloat_eq (x : Int) : exitFloat x = .finite (asFloat ((x : Rat) / 32767)) := by
  simp [exitFloat, Config.audioScale]

/-- The host's float format moves no value by more than its precision allows (log 11). -/
theorem abs_asFloat_sub_le (q : Rat) : |asFloat q - q| ≤ floatError q := by
  have herr := floatError_nonneg q
  unfold asFloat
  split
  case isTrue => simpa using herr
  case isFalse =>
    rw [abs_le]
    constructor
    · linarith [le_max_left (q - floatError q) (min (q + floatError q) (Config.floatRounding q))]
    · have hmax : max (q - floatError q) (min (q + floatError q) (Config.floatRounding q)) ≤ q + floatError q :=
        max_le (by linarith) (min_le_left _ _)
      linarith

/-- A save before both streams are complete is refused (R32; log 7). -/
theorem saveRun_of_not_written {s : State}
    (h : ¬ ((∃ e, allWritten s.run.corrupted = some e) ∧ ∃ c, allWritten s.run.corrected = some c)) :
    saveRun s = .refused .runNotEnded := by
  unfold saveRun
  split
  case h_1 e c he hc => exact absurd ⟨⟨e, he⟩, c, hc⟩ h
  case h_2 => rfl

/-- Settles O52: a save asks for both streams to be complete, and an integer quotient is a float as it is. -/
theorem saveHandsOverThreeOutputs : Obligations.SaveHandsOverThreeOutputs := by
  intro s
  refine ⟨fun e c he hc => ?written, fun x => ⟨_, exitFloat_eq x, ?bound, ?zero, ?one, ?minusOne⟩,
    fun hended hraw hcor => ?early⟩
  case written =>
    exact saveRun_eq_next.mpr ⟨e, c, allWritten_eq_some.mpr he, allWritten_eq_some.mpr hc, rfl⟩
  case bound => exact abs_asFloat_sub_le _
  case zero =>
    rintro rfl
    simpa using asFloat_intCast 0
  case one =>
    rintro rfl
    simpa using asFloat_intCast 1
  case minusOne =>
    rintro rfl
    simpa [neg_div] using asFloat_intCast (-1)
  case early =>
    refine saveRun_of_not_written fun hwritten => ?_
    rw [Run.ended_iff.mpr ⟨hraw, hcor, hwritten⟩] at hended
    cases hended

/-! ## The entry adapter -/

/-- `clip(x·32767, -32768, 32767)` (R85). -/
def clippedProduct (x : Rat) : Rat := max (-32768) (min (x * 32767) 32767)

theorem neg_le_clippedProduct (x : Rat) : -32768 ≤ clippedProduct x := le_max_left _ _

theorem clippedProduct_le (x : Rat) : clippedProduct x ≤ 32767 := max_le (by norm_num) (min_le_right _ _)

/-- The Sample that the entry adapter gives a finite float (R85). -/
def roundedSample (x : Rat) : Int := roundNearest (clip (x.num * Config.audioScale) x.den) x.den

theorem entrySample_finite (i : Nat) (x : Rat) : entrySample i (.finite x) = .ok (roundedSample x) := rfl

/-- The numerator that is clipped stands for the clipped product (R85). -/
theorem clip_div_den (x : Rat) : ((clip (x.num * Config.audioScale) x.den : Int) : Rat) / x.den = clippedProduct x := by
  have hden : (0 : Rat) < x.den := by exact_mod_cast x.den_pos
  have hx : (x.num * 32767 : Rat) / x.den = x * 32767 := by
    rw [mul_div_right_comm, Rat.num_div_den]
  rw [clip, clippedProduct]
  push_cast
  rw [← max_div_div_right hden.le, ← min_div_div_right hden.le, hx, mul_div_cancel_right₀ _ hden.ne',
    mul_div_cancel_right₀ _ hden.ne']

/-- Rounding moves the numerator by at most half the denominator, for either way of taking ties (R85; log 10). -/
theorem abs_two_mul_roundNearest_mul_sub_le (num : Int) {den : Nat} (hden : 0 < den) :
    |2 * (roundNearest num den * den - num)| ≤ den := by
  have hsplit := Int.emod_add_mul_ediv num den
  have hlo := Int.emod_nonneg num (b := den) (by omega)
  have hhi := Int.emod_lt_of_pos num (b := den) (by omega)
  have hdown : num / den * den = num - num % den := by linarith
  have hup : (num / den + 1) * den = num - num % den + den := by linarith
  rw [abs_le]
  unfold roundNearest
  split_ifs <;> simp only [hdown, hup] <;> omega

/-- Rounding gives an integer nearest to the quotient (R85). -/
theorem abs_roundNearest_sub_le (num : Int) {den : Nat} (hden : 0 < den) :
    |(roundNearest num den : Rat) - num / den| ≤ 1 / 2 := by
  have hden' : (0 : Rat) < den := by exact_mod_cast hden
  have hround : |2 * ((roundNearest num den : Rat) * den - num)| ≤ den := by
    exact_mod_cast abs_two_mul_roundNearest_mul_sub_le num hden
  have hquot : (roundNearest num den : Rat) - num / den = (roundNearest num den * den - num) / den := by
    rw [sub_div, mul_div_cancel_right₀ _ hden'.ne']
  rw [hquot, abs_div, abs_of_pos hden', div_le_iff₀ hden']
  rw [abs_mul, abs_two] at hround
  linarith

theorem abs_roundedSample_sub_le (x : Rat) : |(roundedSample x : Rat) - clippedProduct x| ≤ 1 / 2 := by
  rw [← clip_div_den]
  exact abs_roundNearest_sub_le _ x.den_pos

/-- An integer nearest to a value between two integers is between them too. -/
theorem mem_Icc_of_abs_sub_le_half {y lo hi : Int} {q : Rat} (h : |(y : Rat) - q| ≤ 1 / 2) (hlo : (lo : Rat) ≤ q)
    (hhi : q ≤ hi) : lo ≤ y ∧ y ≤ hi := by
  obtain ⟨hdown, hup⟩ := abs_le.mp h
  constructor
  · have hlt : ((lo - 1 : Int) : Rat) < y := by push_cast; linarith
    have := Int.cast_lt.mp hlt
    omega
  · have hlt : (y : Rat) < ((hi + 1 : Int) : Rat) := by push_cast; linarith
    have := Int.cast_lt.mp hlt
    omega

theorem roundedSample_range (x : Rat) : -32768 ≤ roundedSample x ∧ roundedSample x ≤ 32767 := by
  refine mem_Icc_of_abs_sub_le_half (abs_roundedSample_sub_le x) ?_ ?_
  · exact_mod_cast neg_le_clippedProduct x
  · exact_mod_cast clippedProduct_le x

/-- The most negative Sample is given to floats below -1 alone (R85). -/
theorem neg_le_roundedSample {x : Rat} (h : -1 ≤ x) : -32767 ≤ roundedSample x := by
  have hproduct : -32767 ≤ clippedProduct x :=
    le_max_of_le_right (le_min (by linarith) (by norm_num))
  exact (mem_Icc_of_abs_sub_le_half (abs_roundedSample_sub_le x) (lo := -32767) (hi := 32767)
    (by exact_mod_cast hproduct) (by exact_mod_cast clippedProduct_le x)).1

/-- Settles O51: rounding moves the clipped product by at most a half, so the Sample keeps within its bounds. -/
theorem entryAdapterRoundsTheClippedProduct : Obligations.EntryAdapterRoundsTheClippedProduct := by
  refine ⟨fun i x => ?finite, fun i f hf => ?noValue⟩
  case finite =>
    obtain ⟨hlo, hhi⟩ := roundedSample_range x
    exact ⟨roundedSample x, entrySample_finite i x, hlo, hhi, abs_roundedSample_sub_le x,
      fun hx _ => ⟨neg_le_roundedSample hx, hhi⟩⟩
  case noValue => obtain rfl | rfl | rfl := hf <;> rfl

theorem entrySamples_finite (i : Nat) (qs : List Rat) :
    entrySamples i (qs.map .finite) = .ok (qs.map roundedSample) := by
  induction qs generalizing i with
  | nil => rfl
  | cons q qs ih => simp only [List.map_cons, entrySamples, entrySample_finite, ih]

/-- Begun with good parameters on finite floats, a run is one begun on their rounded Samples (R85). -/
theorem loadRun_finite {stride bitIndex : Option Int} (hs : 1 ≤ stride.getD 100) (hb : 0 ≤ bitIndex.getD 6)
    (hb' : bitIndex.getD 6 ≤ 6) (qs : List Rat) (s : State) :
    loadRun (qs.map .finite) stride bitIndex s =
      beginRun (qs.map .finite) (qs.map roundedSample) stride bitIndex s := by
  rw [loadRun, takeParams_eq_ok.mpr ⟨hs, hb, hb', rfl⟩, orRaise_ok, entrySamples_finite, orRaise_ok]

/-- Settles O59: the entry adapter gives each float its Sample in order, and a run begins on those. -/
theorem loadBeginsARunOnRoundedSamples : Obligations.LoadBeginsARunOnRoundedSamples := by
  intro s floats stride bitIndex hs hb hb' hfinite
  have hrange : floats ∈ Set.range (List.map HostFloat.finite) := by
    rw [Set.range_list_map]
    exact fun f hf => (hfinite f hf).imp fun q hq => hq.symm
  obtain ⟨qs, rfl⟩ := hrange
  refine ⟨qs.map roundedSample, by simp, fun i x hx => ?nearest, ?completes⟩
  case nearest =>
    have hxi : qs[i]? = some x := by simpa using hx
    obtain ⟨hlo, hhi⟩ := roundedSample_range x
    exact ⟨roundedSample x, by simp [hxi], hlo, hhi, abs_roundedSample_sub_le x⟩
  case completes =>
    have hsamples : ∀ y ∈ qs.map roundedSample, -32768 ≤ y ∧ y ≤ 32767 :=
      List.forall_mem_map.mpr fun x _ => roundedSample_range x
    rw [loadRun_finite hs hb hb', beginRun_good hs hb hb' hsamples]
    simp only [freshRun, State.setRun, List.length_map]

end Sys2Proof.Machine

/-!
Faults (spec/60_exceptions.md): what the boundary, a reading and a host call answer where a value is bad or missing,
and which of several bad values they name.
-/

namespace Sys2Proof.Machine

/-! ## Operands the boundary refuses -/

/-- A place carries no value when it is undriven, X or Z (R90). -/
theorem hasNoValue_iff {z : Signal} : hasNoValue z = true ↔ z = .undriven ∨ z = .unknown ∨ z = .highZ := by
  cases z <;> simp [hasNoValue]

theorem takeSample_noValue {z : Signal} (h : hasNoValue z = true) :
    takeSample z = .error (.undrivenInput .splitter .splitterSample) := by
  obtain rfl | rfl | rfl := hasNoValue_iff.mp h <;> rfl

/-- A place without a value decides, whatever the other elements and the length are (R94; log 23). -/
theorem takeCodeword_noValue {bits : List Signal} {z : Signal} (h : hasNoValue z = true) (hz : z ∈ bits) :
    takeCodeword bits = .error (.undrivenInput .decoder .decoderCw) :=
  if_pos (List.any_eq_true.mpr ⟨z, hz, h⟩)

theorem exec_split_refused {x : Signal} {f : Fault} (h : takeSample x = .error f) (s : State) :
    exec (.split x) s = .fault f := by
  simp only [exec, execSplit, h, orRaise_error]

theorem exec_encode_refused {d : Signal} {f : Fault} (h : takeNibble .encoderD none d = .error f) (s : State) :
    exec (.encode d) s = .fault f := by
  simp only [exec, execEncode, h, orRaise_error]

/-- Both readings of the decoder take their operand alike (R40). -/
theorem exec_decode_refused {bits : List Signal} {f : Fault} (h : takeCodeword bits = .error f) (s : State) :
    exec (.decode bits) s = .fault f ∧ exec (.decodeRaw bits) s = .fault f := by
  simp only [exec, execDecode, execDecodeRaw, h, orRaise_error, and_self]

theorem takeNibble_natCast {a : Nat} (h : a ≤ 15) (port : InPort) (slot : Option Nat) :
    takeNibble port slot (.value a) = .ok (BitVec.ofNat 4 a) := takeNibble_eq_ok.mpr (nibbleOf_natCast h)

/-- JOIN names the lowest slot whose operand is refused, whatever the later slots hold (R94). -/
theorem exec_join_refused {n : Signal} {f : InPort → Nat → Fault}
    (hn : ∀ port slot, takeNibble port (some slot) n = .error (f port slot)) {a b c : Nat} (ha : a ≤ 15) (hb : b ≤ 15)
    (hc : c ≤ 15) (x y z : Signal) (s : State) :
    exec (.join n x y z) s = .fault (f .joinerN0 0) ∧
      exec (.join (.value a) n y z) s = .fault (f .joinerN1 1) ∧
      exec (.join (.value a) (.value b) n z) s = .fault (f .joinerN2 2) ∧
      exec (.join (.value a) (.value b) (.value c) n) s = .fault (f .joinerN3 3) := by
  simp only [exec, execJoin, takeNibbles, hn, takeNibble_natCast ha, takeNibble_natCast hb, takeNibble_natCast hc,
    orRaise_error, and_self]

theorem runWord_completes {tag : Tag} {p : Nat} (h : p < 2 ^ tag.width) (s : State) :
    ∃ t, runWord ⟨tag, p⟩ s = .next t := by
  obtain ⟨i, t, hi, -, ht⟩ := everyPortPatternIsLegal.1 tag p s h
  exact ⟨t, (runWord_of_decode hi s).trans ht⟩

theorem entrySample_noFinite {f : HostFloat} (hf : ∀ q, f ≠ .finite q) (i : Nat) :
    entrySample i f = .error (.outOfRangeSample (.float f) (some i)) := by
  cases f with
  | finite q => exact absurd rfl (hf q)
  | posInf | negInf | nan => rfl

/-- Settles O10: SPLIT's boundary and the entry adapter refuse the value, and a port pattern is always a Sample. -/
theorem outOfRangeSampleIsRefused : Obligations.OutOfRangeSampleIsRefused :=
  ⟨fun s _ hx => exec_split_refused (takeSample_out hx) s, fun i _ hf => entrySample_noFinite hf i,
    fun s _ hp => runWord_completes hp s⟩

/-- Settles O13: the boundary refuses the nibble at whatever port it is presented. -/
theorem outOfRangeNibbleIsRefused : Obligations.OutOfRangeNibbleIsRefused := fun s n hn =>
  ⟨exec_encode_refused (takeNibble_out _ none hn) s, fun _ _ _ ha hb hc x y z =>
    exec_join_refused (f := fun _ slot => .outOfRangeNibble n (some slot))
      (fun port slot => takeNibble_out port (some slot) hn) ha hb hc x y z s⟩

/-- Settles O23: such a sequence is no codeword, with a value at every place; a port pattern is always a codeword. -/
theorem malformedCodewordIsRefused : Obligations.MalformedCodewordIsRefused := by
  refine ⟨fun s bits h => exec_decode_refused (takeSequence_malformed none h) s, fun s p hp => ?_⟩
  obtain ⟨t, ht⟩ := runWord_completes (tag := .decode) hp s
  obtain ⟨t', ht'⟩ := runWord_completes (tag := .decodeRaw) hp s
  exact ⟨t, t', ht, ht'⟩

/-- Settles O32: the boundary refuses a place without a value at whatever port it is presented. -/
theorem undrivenOperandFaults : Obligations.UndrivenOperandFaults := by
  intro s z hz
  have hnone := hasNoValue_iff.mpr hz
  refine ⟨exec_split_refused (takeSample_noValue hnone) s, exec_encode_refused (takeNibble_noValue _ none hnone) s,
    fun a b c ha hb hc x y w => ?_, fun bits hbits => exec_decode_refused (takeCodeword_noValue hnone hbits) s⟩
  exact exec_join_refused (f := fun port _ => .undrivenInput port.unit port)
    (fun port slot => takeNibble_noValue port (some slot) hnone) ha hb hc x y w s

/-! ## Reading an output without an input value -/

theorem splitterOut_unknown {s : State} (h : s.splitterIn.known ≠ BitVec.allOnes 16) :
    splitterOut s = .error (.undrivenInput .splitter .splitterSample) := by
  rw [splitterOut, inputValue_unknown _ _ h]
  rfl

theorem encoderOut_unknown {s : State} (h : s.encoderIn.known ≠ BitVec.allOnes 4) :
    encoderOut s = .error (.undrivenInput .encoder .encoderD) := by
  rw [encoderOut, inputValue_unknown _ _ h]
  rfl

theorem decoderOut_unknown {s : State} (h : s.decoderIn.known ≠ BitVec.allOnes 7) :
    decoderOut s = .error (.undrivenInput .decoder .decoderCw) := by
  rw [decoderOut, inputValue_unknown _ _ h]
  rfl

theorem inputValue_known_or_undriven {w : Nat} (port : InPort) (t : Settle) (p : Port w) :
    (∃ v, inputValue port t p = .ok v ∧ p.known = BitVec.allOnes w) ∨
      inputValue port t p = .error (.undrivenInput port.unit port) := by
  by_cases hk : p.known = BitVec.allOnes w
  · cases ht : t.over with
    | true => exact .inl ⟨p.value, inputValue_eq_ok.mpr ⟨ht, if_pos hk⟩, hk⟩
    | false => exact .inr (inputValue_early port p ht)
  · exact .inr (inputValue_unknown port t hk)

/-- Whichever of the joiner's ports lacks a value, the first one found without is named (R90, R94). -/
theorem joinerOut_unknown {s : State}
    (h : s.joinerIn.s0.known ≠ BitVec.allOnes 4 ∨ s.joinerIn.s1.known ≠ BitVec.allOnes 4 ∨
      s.joinerIn.s2.known ≠ BitVec.allOnes 4 ∨ s.joinerIn.s3.known ≠ BitVec.allOnes 4) :
    ∃ p : InPort, p.unit = .joiner ∧ joinerOut s = .error (.undrivenInput .joiner p) := by
  obtain ⟨a, ha, hk0⟩ | he := inputValue_known_or_undriven .joinerN0 s.joinerSettle s.joinerIn.s0
  case inr => exact ⟨.joinerN0, rfl, by rw [joinerOut, he]; rfl⟩
  obtain ⟨b, hb, hk1⟩ | he := inputValue_known_or_undriven .joinerN1 s.joinerSettle s.joinerIn.s1
  case inr => exact ⟨.joinerN1, rfl, by simp only [joinerOut, ha, he]; rfl⟩
  obtain ⟨c, hc, hk2⟩ | he := inputValue_known_or_undriven .joinerN2 s.joinerSettle s.joinerIn.s2
  case inr => exact ⟨.joinerN2, rfl, by simp only [joinerOut, ha, hb, he]; rfl⟩
  obtain ⟨d, hd, hk3⟩ | he := inputValue_known_or_undriven .joinerN3 s.joinerSettle s.joinerIn.s3
  case inr => exact ⟨.joinerN3, rfl, by simp only [joinerOut, ha, hb, hc, he]; rfl⟩
  simp [hk0, hk1, hk2, hk3] at h

/-- Every output of the unit is the fault `f` (R14). -/
def UnitId.Fails (u : UnitId) (f : Fault) (s : State) : Prop :=
  match u with
  | .splitter => splitterOut s = .error f
  | .joiner => joinerOut s = .error f
  | .encoder => encoderOut s = .error f
  | .decoder => decoderOut s = .error f

/-- An output port is a part of what its unit gives, so it has a value only where the unit has. -/
theorem runRead_of_unit_fails {q : OutPort} {u : UnitId} {f : Fault} {s : State} (hq : q.unit = u) (h : u.Fails f s) :
    runRead q s = .fault f := by
  subst hq
  refine runRead_of_error ?_
  cases q <;> exact congrArg (Except.map _) h

/-- Settles O33: each output of a unit is read from the one function of its input ports, which has no value then. -/
theorem readingWithoutAnInputValueFaults : Obligations.ReadingWithoutAnInputValueFaults := by
  refine fun s q => ⟨fun hq h => runRead_of_unit_fails hq (splitterOut_unknown h), fun hq h => ?joiner,
    fun hq h => runRead_of_unit_fails hq (encoderOut_unknown h),
    fun hq h => runRead_of_unit_fails hq (decoderOut_unknown h)⟩
  case joiner =>
    obtain ⟨p, hp, hout⟩ := joinerOut_unknown h
    exact ⟨p, hp, runRead_of_unit_fails hq hout⟩

/-! ## Driving a port without a value -/

theorem portOfSample_noValue {z : Signal} (h : hasNoValue z = true) : portOfSample z = .ok (Port.undriven 16) :=
  if_pos h

theorem portOfNibble_noValue {z : Signal} (h : hasNoValue z = true) (port : InPort) (slot : Option Nat) :
    portOfNibble port slot z = .ok (Port.undriven 4) :=
  if_pos h

theorem driveJoiner_noValue {z : Signal} (h : hasNoValue z = true) (port : InPort) (slot : Nat)
    (put : Quad (Port 4) → Port 4 → Quad (Port 4)) (s : State) :
    driveJoiner port slot put z s = .next (s.setJoiner (put s.joinerIn (Port.undriven 4))
      (if s.joinerIn = put s.joinerIn (Port.undriven 4) then s.joinerSettle else .since 0)) := by
  simp only [driveJoiner, portOfNibble_noValue h, orRaise_ok, Settle.afterDrive_decide_ne]

/-- The codeword port under a sequence that fits it: each element its own bit (R28, R39). -/
def codewordPort (bits : List Signal) : Port 7 := ⟨BitVec.ofNat 7 (levelsOf bits).1, BitVec.ofNat 7 (levelsOf bits).2⟩

theorem driveDecoder_fits {bits : List Signal} (h : fitsCodewordPort bits = true) (s : State) :
    driveDecoder bits s = .next (s.setDecoder (codewordPort bits)
      (if s.decoderIn = codewordPort bits then s.decoderSettle else .since 0)) := by
  have hport : portOfBits bits = .ok (codewordPort bits) := if_pos h
  simp only [driveDecoder, hport, orRaise_ok, Settle.afterDrive_decide_ne]

/-- A malformed sequence with a place without a value is refused where it is driven (R94; log 23). -/
theorem driveDecoder_misfit_noValue {bits : List Signal} {z : Signal} (h : hasNoValue z = true) (hz : z ∈ bits)
    (hfit : fitsCodewordPort bits = false) (s : State) :
    driveDecoder bits s = .fault (.undrivenInput .decoder .decoderCw) := by
  have hany : bits.any hasNoValue = true := List.any_eq_true.mpr ⟨z, hz, h⟩
  rw [driveDecoder, portOfBits_misfit hfit, if_pos hany, orRaise_error]

theorem fitsBit_iff {e : Signal} : fitsBit e = true ↔ ∀ n, e = .value n → n = 0 ∨ n = 1 := by
  cases e with
  | value n =>
    simp only [fitsBit, hasNoValue, Signal.isBit, Signal.inRange, Bool.false_or, Bool.and_eq_true, decide_eq_true_eq,
      Signal.value.injEq, forall_eq']
    omega
  | undriven | unknown | highZ => simp [fitsBit, hasNoValue]

theorem fitsCodewordPort_iff {bits : List Signal} :
    fitsCodewordPort bits = true ↔ bits.length = 7 ∧ ∀ e ∈ bits, ∀ n, e = .value n → n = 0 ∨ n = 1 := by
  simp only [fitsCodewordPort, Bool.and_eq_true, decide_eq_true_eq, List.all_eq_true, fitsBit_iff]

theorem bitOf_eq_some_true_iff {e : Signal} : bitOf e = some true ↔ e = .value 1 := by
  constructor
  · intro h
    obtain rfl | rfl := bitOf_isSome_iff.mp (by rw [h]; rfl)
    · cases h
    · rfl
  · rintro rfl
    rfl

theorem isSome_bitOf_of_fitsBit {e : Signal} (h : fitsBit e = true) : (bitOf e).isSome = !hasNoValue e := by
  cases e with
  | value n =>
    obtain rfl | rfl := fitsBit_iff.mp h n rfl <;> rfl
  | undriven | unknown | highZ => rfl

/-- Bit i of the port is known exactly where element i has a value, and is 1 exactly where that is 1 (R39, R90). -/
theorem getLsbD_codewordPort {bits : List Signal} (h : fitsCodewordPort bits = true) {i : Nat} {e : Signal}
    (hi : bits[i]? = some e) :
    (codewordPort bits).known.getLsbD i = !hasNoValue e ∧
      (codewordPort bits).value.getLsbD i = decide (e = .value 1) := by
  obtain ⟨hlen, hbits⟩ := fitsCodewordPort_iff.mp h
  have hi7 : i < 7 := hlen ▸ (List.getElem?_eq_some_iff.mp hi).1
  have hfit := fitsBit_iff.mpr (hbits e (List.mem_of_getElem? hi))
  obtain ⟨hvalue, hknown⟩ := testBit_levelsOf bits i
  simp only [hi, Option.bind_some, bitOf_eq_some_true_iff, isSome_bitOf_of_fitsBit hfit] at hvalue hknown
  simp only [codewordPort, BitVec.getLsbD_ofNat, hi7, decide_true, Bool.true_and, hvalue, hknown, and_self]

theorem known_codewordPort_ne {bits : List Signal} {z : Signal} (h : hasNoValue z = true) (hz : z ∈ bits)
    (hfit : fitsCodewordPort bits = true) : (codewordPort bits).known ≠ BitVec.allOnes 7 := fun hk => by
  obtain ⟨i, hi⟩ := List.getElem?_of_mem hz
  have hi7 : i < 7 := (fitsCodewordPort_iff.mp hfit).1 ▸ (List.getElem?_eq_some_iff.mp hi).1
  have hbit := (getLsbD_codewordPort hfit hi).1
  rw [hk, BitVec.getLsbD_allOnes, h] at hbit
  simp [hi7] at hbit

/-- Settles O57: a place without a value leaves its bits not known, and no unit's function is read from such a port. -/
theorem drivingWithoutAValueMakesReadingFault : Obligations.DrivingWithoutAValueMakesReadingFault := by
  intro s z hz
  have hnone := hasNoValue_iff.mpr hz
  have hsample : (Port.undriven 16).known ≠ BitVec.allOnes 16 := by decide
  have hnibble : (Port.undriven 4).known ≠ BitVec.allOnes 4 := by decide
  refine ⟨⟨_, ?splitter, rfl, fun q hq => runRead_of_unit_fails hq (splitterOut_unknown hsample)⟩,
    fun d p hd => ⟨_, ?joinerDriven, rfl, ?joinerRead⟩,
    ⟨_, ?encoder, rfl, runRead_of_unit_fails rfl (encoderOut_unknown hnibble)⟩,
    fun bits hbits => ⟨fun hlen hvalues => ?fits, fun t ht => ?known, fun hbad => ?malformed⟩⟩
  case splitter =>
    simp only [runDrive, driveSplitter, portOfSample_noValue hnone, orRaise_ok, Settle.afterDrive_decide_ne]
    rfl
  case joinerDriven =>
    obtain ⟨rfl, rfl⟩ | ⟨rfl, rfl⟩ | ⟨rfl, rfl⟩ | ⟨rfl, rfl⟩ := hd <;>
      simp only [runDrive, driveJoiner_noValue hnone] <;> rfl
  case joinerRead =>
    have hlacks : p.s0.known ≠ BitVec.allOnes 4 ∨ p.s1.known ≠ BitVec.allOnes 4 ∨ p.s2.known ≠ BitVec.allOnes 4 ∨
        p.s3.known ≠ BitVec.allOnes 4 := by
      obtain ⟨-, rfl⟩ | ⟨-, rfl⟩ | ⟨-, rfl⟩ | ⟨-, rfl⟩ := hd
      · exact .inl hnibble
      · exact .inr (.inl hnibble)
      · exact .inr (.inr (.inl hnibble))
      · exact .inr (.inr (.inr hnibble))
    obtain ⟨port, hport, hout⟩ := joinerOut_unknown (s := s.setJoiner p _) hlacks
    exact ⟨port, hport, runRead_of_unit_fails rfl hout⟩
  case encoder =>
    simp only [runDrive, driveEncoder, portOfNibble_noValue hnone, orRaise_ok, Settle.afterDrive_decide_ne]
    rfl
  case fits =>
    have hfit := fitsCodewordPort_iff.mpr ⟨hlen, hvalues⟩
    exact ⟨codewordPort bits, fun i e hi => getLsbD_codewordPort hfit hi, driveDecoder_fits hfit s⟩
  case known =>
    cases hfit : fitsCodewordPort bits with
    | true =>
      cases (driveDecoder_fits hfit s).symm.trans ht
      have hk := known_codewordPort_ne hnone hbits hfit
      exact ⟨hk, fun q hq => runRead_of_unit_fails hq (decoderOut_unknown hk)⟩
    | false => cases (driveDecoder_misfit_noValue hnone hbits hfit s).symm.trans ht
  case malformed =>
    refine driveDecoder_misfit_noValue hnone hbits (Bool.eq_false_iff.mpr fun hfit => ?_) s
    obtain ⟨hlen, hvalues⟩ := fitsCodewordPort_iff.mp hfit
    obtain hbad | ⟨n, hn, h0, h1⟩ := hbad
    · exact hbad hlen
    · exact (hvalues _ hn n rfl).elim h0 h1

/-! ## The first bad value of a host call -/

theorem checkSamples_first_bad {good : List Int} {x : Int} (i : Nat) (hgood : ∀ y ∈ good, -32768 ≤ y ∧ y ≤ 32767)
    (hx : x < -32768 ∨ 32767 < x) (bad : List Int) :
    checkSamples i (good ++ x :: bad) = .error (.outOfRangeSample (.integer x) (some (i + good.length))) := by
  induction good generalizing i with
  | nil =>
    have hout : ¬ (-32768 ≤ x ∧ x ≤ 32767) := by omega
    exact if_neg hout
  | cons y good ih =>
    obtain ⟨hy, hrest⟩ := List.forall_mem_cons.mp hgood
    rw [List.cons_append, checkSamples, if_pos hy, ih (i + 1) hrest, List.length_cons]
    congr 3
    omega

theorem entrySamples_first_bad {good : List HostFloat} {f : HostFloat} (i : Nat)
    (hgood : ∀ g ∈ good, ∃ q, g = .finite q) (hf : ∀ q, f ≠ .finite q) (bad : List HostFloat) :
    entrySamples i (good ++ f :: bad) = .error (.outOfRangeSample (.float f) (some (i + good.length))) := by
  induction good generalizing i with
  | nil => simp [entrySamples, entrySample_noFinite hf]
  | cons g good ih =>
    obtain ⟨⟨q, rfl⟩, hrest⟩ := List.forall_mem_cons.mp hgood
    simp only [List.cons_append, entrySamples, entrySample_finite, ih (i + 1) hrest, List.length_cons]
    congr 3
    omega

theorem takeGroups_first_bad (i : Nat) (good : List (Quad Codeword)) {g : Quad (List Signal)} {f : Fault}
    (hg : takeGroup (i + good.length) g = .error f) (bad : List (Quad (List Signal))) :
    takeGroups i (good.map (fun q => q.map codewordSignals) ++ g :: bad) = .error f := by
  induction good generalizing i with
  | nil => rw [List.map_nil, List.nil_append, takeGroups, show takeGroup i g = .error f from hg]
  | cons q good ih =>
    have hrest := ih (i + 1) (by rwa [Nat.add_right_comm, Nat.add_assoc, ← List.length_cons])
    simp only [List.map_cons, List.cons_append, takeGroups, takeGroup_codewordSignals, hrest]

theorem codewordOf_eq_none {bits : List Signal} (h : isCodeword bits = false) : codewordOf bits = none := by
  by_contra hc
  obtain ⟨cw, hcw⟩ := Option.ne_none_iff_exists'.mp hc
  simp [codewordOf_eq_some.mp hcw, isCodeword_codewordSignals] at h

/-- With good parameters a call of CORRUPT is the fault of the first group that is refused (R94). -/
theorem callCorrupt_first_bad {stride bitIndex : Int} (hs : 1 ≤ stride) (hb : 0 ≤ bitIndex) (hb' : bitIndex ≤ 6)
    (good : List (Quad Codeword)) {g : Quad (List Signal)} {f : Fault} (hg : takeGroup good.length g = .error f)
    (bad : List (Quad (List Signal))) (s : State) :
    callCorrupt (good.map (fun q => q.map codewordSignals) ++ g :: bad) stride bitIndex s = .fault f := by
  rw [callCorrupt, takeParams_eq_ok.mpr ⟨hs, hb, hb', rfl⟩, orRaise_ok,
    takeGroups_first_bad 0 good (by rwa [Nat.zero_add]), orRaise_error]

/-- Settles O44: each list is gone through from its first element, and stops at the first that is refused. -/
theorem firstBadSampleIsReported : Obligations.FirstBadSampleIsReported := by
  intro s stride bitIndex hs hb hb'
  have hparams : takeParams (stride.getD 100) (bitIndex.getD 6) =
      .ok ((stride.getD 100).toNat, (bitIndex.getD 6).toNat) := takeParams_eq_ok.mpr ⟨hs, hb, hb', rfl⟩
  refine ⟨fun original good bad x hgood hx => ?integers, fun good bad f hgood hf => ?floats,
    fun good c0 c1 c2 w x y z bad hw => ?codewords⟩
  case integers =>
    rw [beginRun, hparams, orRaise_ok, checkSamples_first_bad 0 hgood hx, orRaise_error, Nat.zero_add]
  case floats =>
    rw [loadRun, hparams, orRaise_ok, entrySamples_first_bad 0 hgood hf, orRaise_error, Nat.zero_add]
  case codewords =>
    have hrefused := fun k => takeSequence_noCodeword (some (good.length, k)) (codewordOf_eq_none hw)
    refine ⟨callCorrupt_first_bad hs hb hb' good ?_ bad s, callCorrupt_first_bad hs hb hb' good ?_ bad s,
      callCorrupt_first_bad hs hb hb' good ?_ bad s, callCorrupt_first_bad hs hb hb' good ?_ bad s⟩
    all_goals simp only [takeGroup, takeSequence_codewordSignals, hrefused]

end Sys2Proof.Machine

/-!
The time from a change of a unit's input until its outputs have settled (R104): an early read is a fault whatever the
input, and from `T_SETTLE` on the unit's outputs are those of its new input.
-/

namespace Sys2Proof.Machine

/-! ## Before and after settling -/

/-- How long the unit's inputs have been unchanged (R104). -/
def State.settleOf (s : State) : UnitId → Settle
  | .splitter => s.splitterSettle
  | .joiner => s.joinerSettle
  | .encoder => s.encoderSettle
  | .decoder => s.decoderSettle

theorem State.settleOf_passTime (s : State) (u : UnitId) (k : Nat) :
    (s.passTime k).settleOf u = (s.settleOf u).later k := by
  cases u <;> rfl

theorem Settle.over_later_since_zero (k : Nat) : ((Settle.since 0).later k).over = decide (Config.tSettle ≤ k) := by
  rw [Settle.later, Settle.over_since, Nat.zero_add]

/-- Before `T_SETTLE` has passed no input of the unit has a value for its outputs (R104). -/
theorem UnitId.fails_of_early {u : UnitId} {s : State} (h : (s.settleOf u).over = false) :
    ∃ p : InPort, p.unit = u ∧ u.Fails (.undrivenInput u p) s := by
  cases u with
  | splitter => exact ⟨.splitterSample, rfl, by rw [Fails, splitterOut, inputValue_early (t := s.splitterSettle) _ _ h]; rfl⟩
  | joiner => exact ⟨.joinerN0, rfl, by rw [Fails, joinerOut, inputValue_early (t := s.joinerSettle) _ _ h]; rfl⟩
  | encoder => exact ⟨.encoderD, rfl, by rw [Fails, encoderOut, inputValue_early (t := s.encoderSettle) _ _ h]; rfl⟩
  | decoder => exact ⟨.decoderCw, rfl, by rw [Fails, decoderOut, inputValue_early (t := s.decoderSettle) _ _ h]; rfl⟩

/-- A unit whose time has just started anew faults until `T_SETTLE`, and reads as a settled one from then on. -/
theorem State.readsOnceSettled_of_restarted {t : State} {u : UnitId} {values : List (OutPort × Nat)}
    (hage : t.settleOf u = .since 0)
    (hvalues : ∀ k, ((t.passTime k).settleOf u).over = true → ∀ x ∈ values,
      runRead x.1 (t.passTime k) = .next ((t.passTime k).setRead (.port x.1 x.2))) :
    t.ReadsOnceSettled u values := by
  intro k
  have hover : ((t.passTime k).settleOf u).over = decide (Config.tSettle ≤ k) := by
    rw [settleOf_passTime, hage, Settle.over_later_since_zero]
  refine ⟨fun hk q hq => ?early, fun hk q v hx => ?late⟩
  case early =>
    obtain ⟨p, hp, hfails⟩ := UnitId.fails_of_early (hover.trans (decide_eq_false (Nat.not_le.mpr hk)))
    exact ⟨p, hp, runRead_of_unit_fails hq hfails⟩
  case late => exact hvalues k (hover.trans (decide_eq_true hk)) (q, v) hx

/-! ## The units one by one, with their outputs' values from `outputPortsFollowTheInputs` -/

theorem State.splitter_readsOnceSettled {t : State} {u : SamplePattern} (hp : t.splitterIn = Port.driven u)
    (hage : t.splitterSettle = .since 0) :
    t.ReadsOnceSettled .splitter
      [(.splitterN0, u.toNat / 4096), (.splitterN1, u.toNat / 256 % 16), (.splitterN2, u.toNat / 16 % 16),
        (.splitterN3, u.toNat % 16)] := by
  refine readsOnceSettled_of_restarted hage fun k hover => ?_
  obtain ⟨hsplitter, -⟩ := outputPortsFollowTheInputs (t.passTime k)
  obtain ⟨h0, h1, h2, h3⟩ := hsplitter u hp hover
  simp [h0, h1, h2, h3]

theorem State.joiner_readsOnceSettled {t : State} {q : Quad Nibble} (hp : t.joinerIn = q.map Port.driven)
    (hage : t.joinerSettle = .since 0) :
    t.ReadsOnceSettled .joiner
      [(.joinerSample, 4096 * q.s0.toNat + 256 * q.s1.toNat + 16 * q.s2.toNat + q.s3.toNat)] := by
  refine readsOnceSettled_of_restarted hage fun k hover => ?_
  obtain ⟨-, hjoiner, -⟩ := outputPortsFollowTheInputs (t.passTime k)
  simp [hjoiner q.s0 q.s1 q.s2 q.s3 hp hover]

theorem State.encoder_readsOnceSettled {t : State} {n : Nibble} (hp : t.encoderIn = Port.driven n)
    (hage : t.encoderSettle = .since 0) :
    t.ReadsOnceSettled .encoder [(.encoderCw, (hammingEncode n).toNat)] := by
  refine readsOnceSettled_of_restarted hage fun k hover => ?_
  obtain ⟨-, -, hencoder, -⟩ := outputPortsFollowTheInputs (t.passTime k)
  simp [hencoder n hp hover]

theorem State.decoder_readsOnceSettled {t : State} {cw : Codeword} (hp : t.decoderIn = Port.driven cw)
    (hage : t.decoderSettle = .since 0) :
    t.ReadsOnceSettled .decoder
      [(.decoderD, (hammingDecode cw).toNat), (.decoderSyndrome, pos cw), (.decoderDRaw, (dataBits cw).toNat)] := by
  refine readsOnceSettled_of_restarted hage fun k hover => ?_
  obtain ⟨-, -, -, hdecoder⟩ := outputPortsFollowTheInputs (t.passTime k)
  obtain ⟨hd, hsyndrome, hraw⟩ := hdecoder cw hp hover
  simp [hd, hsyndrome, hraw]

/-- Settles O34: a drive that changes a unit's input starts its time anew, and nothing but that time says whether the
unit has settled. -/
theorem readingBeforeSettlingFaults : Obligations.ReadingBeforeSettlingFaults := by
  intro s
  obtain ⟨hsplitter, hjoiner, hencoder, hdecoder, -⟩ := drivingSetsOnePortOrIsRefused s
  refine ⟨fun u hne => ⟨_, hsplitter u, rfl, State.splitter_readsOnceSettled rfl (if_neg hne)⟩,
    fun q d hne hd => ?joiner,
    fun n hne => ⟨_, hencoder n, rfl, State.encoder_readsOnceSettled rfl (if_neg hne)⟩,
    fun cw hne => ⟨_, hdecoder cw, rfl, State.decoder_readsOnceSettled rfl (if_neg hne)⟩⟩
  case joiner =>
    suffices hdrive : runDrive d s = .next (s.setJoiner (q.map Port.driven)
        (if s.joinerIn = q.map Port.driven then s.joinerSettle else .since 0)) from
      ⟨_, hdrive, rfl, State.joiner_readsOnceSettled rfl (if_neg hne)⟩
    obtain ⟨hd, hq⟩ | ⟨hd, hq⟩ | ⟨hd, hq⟩ | ⟨hd, hq⟩ := hd
    · exact hjoiner q.s0 d _ (.inl ⟨hd, hq.symm⟩)
    · exact hjoiner q.s1 d _ (.inr (.inl ⟨hd, hq.symm⟩))
    · exact hjoiner q.s2 d _ (.inr (.inr (.inl ⟨hd, hq.symm⟩)))
    · exact hjoiner q.s3 d _ (.inr (.inr (.inr ⟨hd, hq.symm⟩)))

end Sys2Proof.Machine
